-- ==== Sys2Proof/Word.lean ====
section
/-! DEFINITION. The values HUFF computes with: command words, bytes, bit strings and symbols
(spec/00_scope.md R8, spec/10_state.md R21). Numbers are naturals: HUFF has no signed and no
wrapping arithmetic (spec/00_scope.md R4). -/

namespace Sys2Proof

/-- A command word: one 32-bit value with no byte order (R85). -/
abbrev Word := BitVec 32

/-- A byte, 0 to 255 (R8). -/
abbrev Byte := BitVec 8

/-- A bit string, first bit at index 0; `true` is the bit 1 (R8). -/
abbrev Bits := List Bool

/-- A symbol is a non-empty byte string (R21): its first byte and the bytes after it.
The type has no empty value. -/
structure Symbol where
  first : Byte
  rest  : List Byte
  deriving DecidableEq, Repr, Inhabited

/-- The bytes of a symbol, in the symbol's own order. -/
def Symbol.bytes (s : Symbol) : List Byte := s.first :: s.rest

/-- The byte length of a symbol. -/
def Symbol.len (s : Symbol) : Nat := s.bytes.length

end Sys2Proof
end

