-- ==== Sys2Proof/Config.lean ====
section
/-! DEFINITION. What an implementation of HUFF fixes (spec/00_scope.md R6) and the values the
spec leaves open (spec/93_implementation_defined.md I1, I2, I8). Both are opaque: nothing in Lean
can evaluate them or prove a value of them. Log entries 3, 4, 8. -/

namespace Sys2Proof

/-- A capacity or width parameter: a natural number, or `INF` (R6). -/
inductive Bound where
  | fin (n : Nat)
  | inf
  deriving DecidableEq, Repr, Inhabited

/-- The parameter `TIEBREAK` (R6, R117). -/
inductive TieBreak where
  | any
  | ref
  deriving DecidableEq, Repr, Inhabited

/-- The implementation parameters of R6. `NNODE_MAX` is derived from `nsymMax`. -/
structure Params where
  symlenMax : Bound
  textMax   : Bound
  nsymMax   : Bound
  bitsMax   : Bound
  dataMax   : Bound
  ctabMax   : Bound
  wFreq     : Bound
  tiebreak  : TieBreak
  deriving DecidableEq, Repr, Inhabited

/-- The numbers a finite parameter may take, from `lo` up to `hi`; the other numbers are moved to
the nearest end. `INF` stays. -/
def Bound.between (lo hi : Nat) : Bound → Bound
  | .fin n => .fin (max lo (min hi n))
  | .inf   => .inf

/-- The largest finite `NSYM_MAX`: `2*NSYM_MAX - 1 <= 2^24` (R6). -/
def nsymTop : Nat := 2 ^ 23

/-- A number at least 1, or `INF`. -/
def Bound.positive : Bound → Bound
  | .fin n => .fin (max 1 n)
  | .inf   => .inf

/-- `TEXT_MAX < 2^W_FREQ` (R6, D3): with a finite `W_FREQ` the text capacity is finite too. -/
def Bound.below (t : Bound) : Bound → Bound
  | .inf   => t
  | .fin w => match t with
    | .fin n => .fin (min n (2 ^ w - 1))
    | .inf   => .fin (2 ^ w - 1)

/-- The setting nearest to `p` that meets the constraints of R6: every capacity and `W_FREQ` is a
positive number or `INF` (D2, D3). A setting that meets them is its own image, so every setting the
spec allows is reached (`Laws/Memory.lean`, `legalise_of_legal`). -/
def Params.legalise (p : Params) : Params :=
  { p with
    symlenMax := p.symlenMax.positive
    textMax   := p.textMax.positive.below p.wFreq.positive
    nsymMax   := p.nsymMax.between 1 nsymTop
    bitsMax   := p.bitsMax.positive
    dataMax   := p.dataMax.positive
    ctabMax   := p.ctabMax.positive
    wFreq     := p.wFreq.positive }

/-- The values the spec leaves open at one point of a run: the contents of the outputs of a
failed command (I8, R238), and under `TIEBREAK = ANY` the arrangement of the heap and the minimal
node popped (I1, I2, R117). -/
structure FreeValues where
  text        : List Symbol
  freq        : List (Symbol × Nat)
  code        : List (Symbol × Bits)
  inv         : List (Bits × Symbol)
  bits        : Bits
  data        : List Byte
  ctab        : List Byte
  out         : List Symbol
  root        : Nat
  hres        : Nat
  pad         : Fin 8
  arrangement : List Nat
  choice      : Nat
  deriving Inhabited

/-- The free values, numbered by the counter `State.tick`. -/
opaque Config.free : Nat → FreeValues

/-- The parameters of this machine before the constraints of R6 are imposed. -/
opaque Config.rawParams : Params

/-- The parameters of this machine: any setting that R6 allows. -/
def Config.params : Params := Config.rawParams.legalise

end Sys2Proof
end

