-- ==== Sys2Proof/Syntax.lean ====
section
/-! DEFINITION. The thirteen commands of HUFF, one constructor per row of spec/opcode_table.json
(spec/30_encoding.md R88). -/

namespace Sys2Proof

/-- A command. Only HINIT and HPUSH have an operand, the natural number of the ARG field (R86). -/
inductive Instr where
  | hinit (n : Nat)
  | hpush (k : Nat)
  | hpop
  | count
  | build
  | gencodes
  | encode
  | decode
  | verify
  | serdata
  | sertab
  | desdata
  | destab
  deriving DecidableEq, Repr

end Sys2Proof
end

