-- ==== Sys2Proof/Machine/State.lean ====
section
/-! DEFINITION. The state of HUFF (spec/10_state.md R20 to R44), the host beside it
(spec/00_scope.md R7), and the reasons a step can stop. A length register is held once, as the
length of its buffer (log entry 2). -/

namespace Sys2Proof.Machine

/-- A node of the arena (R24): a leaf holds one symbol, an internal node the indices of its two
children. -/
inductive Node where
  | leaf (sym : Symbol) (freq : Nat)
  | internal (left right : Nat) (freq : Nat)
  deriving DecidableEq, Repr

/-- The result codes of R225, in its order. Codes 11 to 15 never occur (I15). -/
inductive ResultCode where
  | ok
  | emptyInput
  | emptyQueue
  | unknownSymbol
  | undecodableStream
  | formatLimitExceeded
  | corruptArtifact
  | roundTripMismatch
  | illegalCommand
  | notReady
  | capacity
  deriving DecidableEq, Repr

/-- The ten fields of the valid register V (R35). -/
inductive Flag where
  | text
  | freq
  | tree
  | code
  | bits
  | data
  | ctab
  | inv
  | out
  | hres
  deriving DecidableEq, Repr

/-- The ten address spaces (spec/20_memory.md R60), by name. -/
inductive Space where
  | text
  | freq
  | node
  | heap
  | code
  | inv
  | bits
  | data
  | ctab
  | out
  deriving DecidableEq, Repr

/-- The contents of the ten address spaces (R22 to R33, R61). Each space is dense: element `i` of
the list is the element at index `i`, and the length register of the space is the list's length. -/
structure Memory where
  /-- TEXT: the input text (R22); its length is TLEN -/
  text : List Symbol
  /-- FREQ: the frequency table (R23); its length is NSYM -/
  freq : List (Symbol × Nat)
  /-- NODE: the arena of tree nodes (R24); its length is NNODE -/
  node : List Node
  /-- HEAP: the priority queue's array of node indices (R25); its length is HN -/
  heap : List Nat
  /-- CODE: the code table (R27); its length is NCODE -/
  code : List (Symbol × Bits)
  /-- INV: the inverse code table (R28); its length is NINV -/
  inv  : List (Bits × Symbol)
  /-- BITS: the unpadded bitstream (R29); its length is BITLEN -/
  bits : Bits
  /-- DATA: the encoded-data artifact (R31); its length is DLEN -/
  data : List Byte
  /-- CTAB: the code-table artifact (R32); its length is CLEN -/
  ctab : List Byte
  /-- OUT: the decoded text (R33); its length is OLEN -/
  out  : List Symbol
  deriving DecidableEq, Repr

/-- The three value registers (R26, R30, R34). -/
structure Regs where
  root : Nat
  hres : Nat
  pad  : Fin 8
  deriving DecidableEq, Repr

/-- The valid register and the control and status registers (R35 to R39). -/
structure Control where
  /-- V: bit numbers in `Flag.bit` -/
  valid  : BitVec 10
  /-- STATUS: bit 0 BUSY, bit 1 ERRF (R37) -/
  status : BitVec 2
  /-- ERR (R38) -/
  err    : ResultCode
  /-- ERRLOG (R39) -/
  errlog : BitVec 16
  /-- CMD: the word the host has written and HUFF has not yet taken; CMD holds nothing between
  commands (R36) -/
  cmd    : Option Word
  deriving DecidableEq, Repr

/-- What a host read can name (R45, R70). -/
inductive ReadTarget where
  | contents (x : Space)
  | length (x : Space)
  | root
  | hres
  | pad
  | valid
  | status
  | err
  | errlog
  | cmd
  deriving DecidableEq, Repr

/-- A value a host read obtains. -/
inductive ReadValue where
  | symbols (v : List Symbol)
  | freqTable (v : List (Symbol × Nat))
  | nodes (v : List Node)
  | indices (v : List Nat)
  | codeTable (v : List (Symbol × Bits))
  | inverseTable (v : List (Bits × Symbol))
  | bits (v : Bits)
  | bytes (v : List Byte)
  | number (n : Nat)
  deriving DecidableEq, Repr

/-- The answer to a host read: the whole value, or no value (R70). -/
inductive Reply where
  | value (v : ReadValue)
  | refused
  deriving DecidableEq, Repr

/-- One action of the host (R7, R64, R106, R260). A `script` is a sequence of command words that
the host issues one after another and stops at the first whose result code is not 0;
`scriptRest` is the part of one still to be issued. -/
inductive HostAction where
  | ldtext (v : List Symbol)
  | ldfreq (v : List (Symbol × Nat))
  | lddata (v : List Byte)
  | ldctab (v : List Byte)
  | rd (x : ReadTarget)
  | command (w : Word)
  | script (ws : List Word)
  | scriptRest (ws : List Word)
  | reset
  deriving DecidableEq, Repr

/-- The host as far as HUFF meets it: what it has still to do, first action first, and what its
reads have answered, oldest first. The model's own field (log entry 10). -/
structure HostSide where
  pending : List HostAction
  replies : List Reply
  deriving DecidableEq, Repr

/-- The state of the machine. `params` and `tick` are the model's own fields: the implementation
parameters (log entry 3), which nothing writes, and the number of the next free values (log
entry 5). -/
structure State where
  mem    : Memory
  regs   : Regs
  ctl    : Control
  params : Params
  tick   : Nat
  host   : HostSide
  deriving DecidableEq, Repr

/-- Why the machine can stop with a fault. Each is safe: the model stops in a state that no run
from reset reaches and to which the spec gives no meaning (R62: an out-of-range access cannot be
expressed). Log entry 11. -/
inductive Fault where
  /-- raised by HPUSH and HPOP when HEAP holds an index that NODE does not have; safe -/
  | danglingHeapEntry
  /-- raised by GENCODES when ROOT or a child index is no index of NODE; safe -/
  | danglingNodeIndex
  /-- raised by GENCODES when the walk has popped NNODE nodes and its stack is not empty, so that
  NODE is not a tree; safe -/
  | unendingWalk
  deriving DecidableEq, Repr

/-- Why the machine can refuse. -/
inductive Refusal where
  /-- raised by exec for a command that has no meaning yet; safe -/
  | notModelled (mnemonic : String)
  /-- raised by the step when the host acts while STATUS.BUSY is 1 (R64, I11); no run reaches such
  a state (R37); safe -/
  | hostActionWhileBusy
  deriving DecidableEq, Repr

/-- The machine right after reset (R44, R260): every length 0, V, STATUS, ERR and ERRLOG 0.
ROOT, HRES and PAD are unspecified there; the model sets them to 0 (DESIGN CHOICE, log entry 6).
`tick` starts at 0 (DESIGN CHOICE, log entry 5). -/
def State.reset : State where
  mem    := ⟨[], [], [], [], [], [], [], [], [], []⟩
  regs   := ⟨0, 0, 0⟩
  ctl    := ⟨0#10, 0#2, .ok, 0#16, none⟩
  params := Config.params
  tick   := 0
  host   := ⟨[], []⟩

end Sys2Proof.Machine
end

