-- ==== Sys2Proof/Machine/Flags.lean ====
section
/-! DEFINITION. The valid register V (spec/10_state.md R35), STATUS (R37), ERR (R38) and ERRLOG
(R39). HUFF has no condition codes: these are all its flags. -/

namespace Sys2Proof.Machine

/-- The bit of V that holds a flag (R35). -/
def Flag.bit : Flag → Nat
  | .text => 0
  | .freq => 1
  | .tree => 2
  | .code => 3
  | .bits => 4
  | .data => 5
  | .ctab => 6
  | .inv  => 7
  | .out  => 8
  | .hres => 9

/-- `V.f` -/
def State.flag (s : State) (f : Flag) : Bool := s.ctl.valid.getLsbD f.bit

/-- `V.f <- 1` -/
def State.setFlag (f : Flag) (s : State) : State :=
  { s with ctl := { s.ctl with valid := s.ctl.valid ||| (1#10 <<< f.bit) } }

/-- `V.f <- 0` -/
def State.clearFlag (f : Flag) (s : State) : State :=
  { s with ctl := { s.ctl with valid := s.ctl.valid &&& ~~~(1#10 <<< f.bit) } }

/-- The number of a result code (R225). -/
def ResultCode.toNat : ResultCode → Nat
  | .ok                  => 0
  | .emptyInput          => 1
  | .emptyQueue          => 2
  | .unknownSymbol       => 3
  | .undecodableStream   => 4
  | .formatLimitExceeded => 5
  | .corruptArtifact     => 6
  | .roundTripMismatch   => 7
  | .illegalCommand      => 8
  | .notReady            => 9
  | .capacity            => 10

/-- ERR as the 4-bit register the host reads (R38). -/
def ResultCode.word (c : ResultCode) : BitVec 4 := BitVec.ofNat 4 c.toNat

/-- STATUS.BUSY, bit 0 (R37). -/
def State.busy (s : State) : Bool := s.ctl.status.getLsbD 0

/-- STATUS.ERRF, bit 1 (R37). -/
def State.errf (s : State) : Bool := s.ctl.status.getLsbD 1

/-- STATUS with ERRF set to `b` and BUSY kept. -/
def statusWithErrf (st : BitVec 2) (b : Bool) : BitVec 2 :=
  (st &&& 1#2) ||| (if b then 2#2 else 0#2)

/-- ERRLOG after an action that ended with code `c`: bit c is set for c at least 1, and a code 0
leaves ERRLOG as it was (R39, R237 step 5). -/
def logCode (log : BitVec 16) (c : ResultCode) : BitVec 16 :=
  if c = .ok then log else log ||| (1#16 <<< c.toNat)

end Sys2Proof.Machine
end

