-- ==== Sys2Proof/Machine/Ops.lean ====
section
/-! DEFINITION. The named operations every command and load is made of: parameters, MemRead and
MemWrite (spec/20_memory.md R62), ending with a result code, the execution frame of a command
(spec/60_exceptions.md R237, R238) and the common steps of a load (spec/20_memory.md R65). -/

namespace Sys2Proof

/-- `n` does not exceed the parameter; nothing exceeds `INF` (R6). -/
def Bound.admits (b : Bound) (n : Nat) : Bool :=
  match b with
  | .fin m => decide (n ≤ m)
  | .inf   => true

/-- A sequence cut to the parameter. -/
def Bound.clip {α : Type} (b : Bound) (l : List α) : List α :=
  match b with
  | .fin m => l.take m
  | .inf   => l

/-- `NNODE_MAX = 2*NSYM_MAX - 1` (R6). -/
def Params.nnodeMax (p : Params) : Bound :=
  match p.nsymMax with
  | .fin n => .fin (2 * n - 1)
  | .inf   => .inf

/-- `n < 2^W_FREQ` (R6, D3). -/
def Params.freqFits (p : Params) (n : Nat) : Bool :=
  match p.wFreq with
  | .fin w => decide (n < 2 ^ w)
  | .inf   => true

end Sys2Proof

namespace Sys2Proof.Machine

/-- How the body of a command stops before its end: with one of the errors of R225, or in a state
the spec gives no meaning to. -/
inductive Stop where
  | raise (c : ResultCode)
  | fault (f : Fault)
  deriving DecidableEq, Repr

/-- MemWrite at the end of a space (R62): the elements `xs` are appended, or the command ends with
CapacityError when the new length would exceed the capacity (R235). -/
def memAppend {α : Type} (cap : Bound) (buf xs : List α) : Except Stop (List α) :=
  if cap.admits (buf.length + xs.length) then .ok (buf ++ xs) else .error (.raise .capacity)

/-- MemRead of the next `n` elements of a sequence, and what follows them; nothing when fewer than
`n` remain (R62). -/
def memTake {α : Type} (n : Nat) (l : List α) : Option (List α × List α) :=
  if n ≤ l.length then some (l.take n, l.drop n) else none

/-- The element of NODE at index `k`; nothing outside `0 .. NNODE-1` (R61). -/
def nodeAt (nodes : List Node) (k : Nat) : Option Node := nodes[k]?

/-- The frequency field of a node (R24). -/
def Node.freq : Node → Nat
  | .leaf _ f       => f
  | .internal _ _ f => f

/-- `freq(k)`, the frequency field of `NODE[k]` (R9). The commands that call it have checked that
k is an index of NODE; the 0 for any other k is never used (log entry 11). -/
def freqOf (nodes : List Node) (k : Nat) : Nat :=
  match nodeAt nodes k with
  | some n => n.freq
  | none   => 0

/-- An action ends with result code `c`: ERR, STATUS.ERRF and ERRLOG (R37 to R39, R237 steps 1, 2
and 5, R238, R65). This is all there is to taking an error: HUFF has no handler, vector, saved pc
or mode, and so no return (R238, R242). -/
def State.endWith (c : ResultCode) (s : State) : State :=
  { s with ctl := { s.ctl with
      err    := c
      status := statusWithErrf s.ctl.status (decide (c ≠ .ok))
      errlog := logCode s.ctl.errlog c } }

/-- R237 step 3: the output's valid flag is cleared, and BUILD's output NODE and its scratch HEAP
are emptied, so that NNODE and HN are exact (R43). -/
def State.invalidate (f : Flag) (s : State) : State :=
  let t := s.clearFlag f
  match f with
  | .tree => { t with mem := { t.mem with node := [], heap := [] } }
  | _     => t

/-- R237 step 3 for a command with at most one output flag. -/
def State.invalidateOutput (out : Option Flag) (s : State) : State :=
  match out with
  | some f => s.invalidate f
  | none   => s

/-- R237 step 5, the flag: the output is valid. -/
def State.commitOutput (out : Option Flag) (s : State) : State :=
  match out with
  | some f => s.setFlag f
  | none   => s

/-- The contents of a failed load's or command's output buffer are unspecified, and so is its
length register within the capacity (R238, R35, I8): free values (log entry 8). NODE is exact and
stays empty, and ROOT is free; HRES is free. PAD is not part of a load of DATA (R68) and is
spoiled by SERDATA alone. -/
def State.spoil (f : Flag) (s : State) : State :=
  let v := Config.free s.tick
  let t := { s with tick := s.tick + 1 }
  match f with
  | .text => { t with mem := { t.mem with text := s.params.textMax.clip v.text } }
  | .freq => { t with mem := { t.mem with freq := s.params.nsymMax.clip v.freq } }
  | .tree => { t with regs := { t.regs with root := v.root } }
  | .code => { t with mem := { t.mem with code := s.params.nsymMax.clip v.code } }
  | .bits => { t with mem := { t.mem with bits := s.params.bitsMax.clip v.bits } }
  | .data => { t with mem := { t.mem with data := s.params.dataMax.clip v.data } }
  | .ctab => { t with mem := { t.mem with ctab := s.params.ctabMax.clip v.ctab } }
  | .inv  => { t with mem := { t.mem with inv := s.params.nsymMax.clip v.inv } }
  | .out  => { t with mem := { t.mem with out := s.params.textMax.clip v.out } }
  | .hres => { t with regs := { t.regs with hres := v.hres } }

/-- PAD, an output of SERDATA, after a SERDATA that failed (log entry 8). -/
def State.spoilPad (s : State) : State :=
  { s with regs := { s.regs with pad := (Config.free s.tick).pad }, tick := s.tick + 1 }

/-- The unspecified outputs of a failed command (R238). -/
def State.spoilOutput (out : Option Flag) (s : State) : State :=
  match out with
  | some .data => (s.spoil .data).spoilPad
  | some f     => s.spoil f
  | none       => s

/-- The execution frame of a decoded command (R237 steps 2 to 5, R238). `needs` are the flags of
R234, `out` the command's output flag of R35, `body` its pseudocode run on the state of step 3.
On an error the command's outputs are unspecified and everything else is as step 3 left it. -/
def runFrame (needs : List Flag) (out : Option Flag) (body : State → Except Stop State)
    (s : State) : Host.Outcome State Fault Refusal :=
  if needs.all s.flag then
    match body (s.invalidateOutput out) with
    | .ok t             => .next ((t.commitOutput out).endWith .ok)
    | .error (.raise c) => .next (((s.invalidateOutput out).spoilOutput out).endWith c)
    | .error (.fault f) => .fault f
  else
    .next (s.endWith .notReady)

/-- The common steps of a load into the buffer with flag `f` (R65): invalidate, validate (`check`
is the code of the first rule broken), store and end with code 0. -/
def runLoad (f : Flag) (check : Option ResultCode) (store : State → State) (s : State) : State :=
  match check with
  | some c => ((s.invalidate f).spoil f).endWith c
  | none   => ((store (s.invalidate f)).setFlag f).endWith .ok

end Sys2Proof.Machine
end

