-- ==== Sys2Proof/Machine/Operands.lean ====
section
/-! DEFINITION. The operands of the commands: the range checks of the two explicit operands
(spec/40_heap.md R120, R121), the look-ups of the implicit ones, and the byte formats of the two
artifacts (spec/30_encoding.md R95 to R100). -/

namespace Sys2Proof

/-- The symbol with these bytes; a symbol is not empty (R21). -/
def Symbol.ofBytes? (l : List Byte) : Option Symbol :=
  match l with
  | []      => none
  | b :: bs => some ⟨b, bs⟩

end Sys2Proof

namespace Sys2Proof.Machine

/-- HINIT's operand: a count of nodes, at most NNODE (R120). -/
def hinitOperandOk (n : Nat) (s : State) : Bool := decide (n ≤ s.mem.node.length)

/-- HPUSH's operand: an index of NODE (R121). -/
def hpushOperandOk (k : Nat) (s : State) : Bool := decide (k < s.mem.node.length)

/-- Every element of HEAP is an index of NODE (R25). -/
def heapInRange (s : State) : Bool := s.mem.heap.all (fun k => decide (k < s.mem.node.length))

/-- The code of a symbol: the entry of CODE with an equal symbol (R170, R171). -/
def codeOf? (table : List (Symbol × Bits)) (sym : Symbol) : Option Bits :=
  (table.find? (fun e => e.1 == sym)).map (·.2)

/-- The symbol of a code: the entry of INV whose code equals the whole buffer (R173, R174). -/
def symbolOf? (table : List (Bits × Symbol)) (buf : Bits) : Option Symbol :=
  (table.find? (fun e => e.1 == buf)).map (·.2)

/-- The padding length of a bitstream of `n` bits, `(8 - n mod 8) mod 8` (R97). -/
def padOf (n : Nat) : Fin 8 := ⟨(8 - n % 8) % 8, Nat.mod_lt _ (by decide)⟩

/-- The bit string of `n` zeros (R8). -/
def zeros (n : Nat) : Bits := List.replicate n false

/-- The weight of a bit (R8). -/
def bitNat (b : Bool) : Nat := if b then 1 else 0

/-- One byte from eight bits, most significant first (R96). -/
def packByte (b7 b6 b5 b4 b3 b2 b1 b0 : Bool) : Byte :=
  BitVec.ofNat 8 (128 * bitNat b7 + 64 * bitNat b6 + 32 * bitNat b5 + 16 * bitNat b4
    + 8 * bitNat b3 + 4 * bitNat b2 + 2 * bitNat b1 + bitNat b0)

/-- `pack(b)` of a bit string whose length is a multiple of 8 (R96). SERDATA packs nothing else;
a rest of fewer than 8 bits gives no byte. -/
def pack : Bits → List Byte
  | b7 :: b6 :: b5 :: b4 :: b3 :: b2 :: b1 :: b0 :: rest =>
      packByte b7 b6 b5 b4 b3 b2 b1 b0 :: pack rest
  | _ => []

/-- The eight bits of a byte, most significant first: bit `i` is `(y div 2^(7-i)) mod 2` (R96). -/
def byteBits (y : Byte) : Bits :=
  [y.getLsbD 7, y.getLsbD 6, y.getLsbD 5, y.getLsbD 4,
   y.getLsbD 3, y.getLsbD 2, y.getLsbD 1, y.getLsbD 0]

/-- `unpack(y)` (R96). -/
def unpack : List Byte → Bits
  | []      => []
  | y :: ys => byteBits y ++ unpack ys

/-- `u8(n)`, for n at most 255 (R8). -/
def u8 (n : Nat) : Byte := BitVec.ofNat 8 n

/-- The ASCII byte of a code bit (R99). -/
def asc (b : Bool) : Byte := if b then 0x31#8 else 0x30#8

/-- The bits spelled by bytes each 0x30 or 0x31; nothing when some byte is neither (R204, R205 f). -/
def ascBits? : List Byte → Option Bits
  | []      => some []
  | y :: ys =>
    if y = 0x30#8 then (ascBits? ys).map (false :: ·)
    else if y = 0x31#8 then (ascBits? ys).map (true :: ·)
    else none

/-- The largest value of a one-byte length field (R6, R101). -/
def lenFieldMax : Nat := 255

/-- `rec(sym, code)`, one record of the code-table artifact (R98). -/
def tableRecord (sym : Symbol) (code : Bits) : List Byte :=
  u8 sym.len :: (sym.bytes ++ u8 code.length :: code.map asc)

end Sys2Proof.Machine
end

