-- ==== Sys2Proof/Machine/Heap.lean ====
section
/-! DEFINITION. The priority queue (spec/40_heap.md): the heap procedures that HINIT, HPUSH, HPOP
and BUILD share, under both settings of TIEBREAK (R117), and the three commands. `f` is the
frequency of a node index; only frequencies are compared (R115). -/

namespace Sys2Proof.Machine

/-- The frequency of the element at heap position `i`. -/
def keyAt (f : Nat → Nat) (h : List Nat) (i : Nat) : Nat := f (h.getD i 0)

/-- Exchange of the elements at positions `i` and `j`. -/
def swapAt (h : List Nat) (i j : Nat) : List Nat := (h.set i (h.getD j 0)).set j (h.getD i 0)

/-- The heap-order invariant on the array: parent frequency at most child frequency (R25, R116). -/
def heapOrdered (f : Nat → Nat) (h : List Nat) : Bool :=
  (List.range h.length).all (fun i => i == 0 || decide (keyAt f h ((i - 1) / 2) ≤ keyAt f h i))

/-- The position among `i` and its children that siftdown moves to: the left child is examined
first and comparisons are strict (R118). -/
def smallest (f : Nat → Nat) (h : List Nat) (i : Nat) : Nat :=
  let l := 2 * i + 1
  let r := 2 * i + 2
  let m := if l < h.length ∧ keyAt f h l < keyAt f h i then l else i
  if r < h.length ∧ keyAt f h r < keyAt f h m then r else m

/-- `siftdown(i)` (R118). Each round moves to a larger position, so as many rounds as HN are
enough. -/
def siftdown (f : Nat → Nat) : Nat → List Nat → Nat → List Nat
  | 0, h, _          => h
  | rounds + 1, h, i =>
    let m := smallest f h i
    if m = i then h else siftdown f rounds (swapAt h i m) m

/-- `siftup(i)` (R119). Each round moves to a smaller position, so `i` rounds are enough. -/
def siftup (f : Nat → Nat) : Nat → List Nat → Nat → List Nat
  | 0, h, _          => h
  | rounds + 1, h, i =>
    if i = 0 then h
    else
      let p := (i - 1) / 2
      if keyAt f h i < keyAt f h p then siftup f rounds (swapAt h i p) p else h

/-- siftdown at the positions below `i`, from `i - 1` down to 0 (R120). -/
def heapify (f : Nat → Nat) : Nat → List Nat → List Nat
  | 0, h     => h
  | i + 1, h => heapify f i (siftdown f h.length h i)

/-- `heap_init(n)` under REF: indices 0 .. n-1, then bottom-up heapify from `n div 2 - 1` (R120). -/
def heapInitRef (f : Nat → Nat) (n : Nat) : List Nat := heapify f (n / 2) (List.range n)

/-- `heap_push(k)` under REF, without its capacity check: append, then sift up (R121). -/
def heapPushRef (f : Nat → Nat) (h : List Nat) (k : Nat) : List Nat :=
  siftup f h.length (h ++ [k]) h.length

/-- What `heap_pop()` leaves under REF of the heap with top `v` and the elements `t` after it: the
last element moves to the top and sifts down (R122). -/
def heapPopRef (f : Nat → Nat) (v : Nat) (t : List Nat) : List Nat :=
  match t with
  | []      => []
  | _ :: _  => siftdown f t.length (((v :: t).dropLast).set 0 ((v :: t).getLastD 0)) 0

/-- Insertion in order of frequency. -/
def insertByFreq (f : Nat → Nat) (k : Nat) : List Nat → List Nat
  | []      => [k]
  | x :: xs => if f k ≤ f x then k :: x :: xs else x :: insertByFreq f k xs

/-- The elements in order of frequency: one arrangement that has the heap order. -/
def sortByFreq (f : Nat → Nat) : List Nat → List Nat
  | []      => []
  | x :: xs => insertByFreq f x (sortByFreq f xs)

/-- Under `TIEBREAK = ANY`: any arrangement of `members` that has the heap order (R117). The free
value `wish` is taken whenever it is one, so every such arrangement is reached; a free value that
is none stands for the sorted one. -/
def anyArrangement (f : Nat → Nat) (wish members : List Nat) : List Nat :=
  if wish.isPerm members && heapOrdered f wish then wish else sortByFreq f members

/-- `k` is a member of smallest frequency. -/
def isMinimal (f : Nat → Nat) (h : List Nat) (k : Nat) : Bool :=
  h.contains k && h.all (fun x => decide (f k ≤ f x))

/-- Under `TIEBREAK = ANY`: any member of smallest frequency (R117). The free value `wish` is
taken whenever it is one; otherwise the first member of smallest frequency is. -/
def anyMinimal (f : Nat → Nat) (wish : Nat) (h : List Nat) : Nat :=
  if isMinimal f h wish then wish else (h.find? (isMinimal f h)).getD 0

/-- `heap_init(n)` (R120). -/
def heapInit (p : Params) (f : Nat → Nat) (n tick : Nat) : List Nat :=
  match p.tiebreak with
  | .ref => heapInitRef f n
  | .any => anyArrangement f (Config.free tick).arrangement (List.range n)

/-- `heap_push(k)` (R121). -/
def heapPush (p : Params) (f : Nat → Nat) (h : List Nat) (k tick : Nat) : Except Stop (List Nat) :=
  match memAppend p.nnodeMax h [k] with
  | .error e => .error e
  | .ok h'   =>
    match p.tiebreak with
    | .ref => .ok (heapPushRef f h k)
    | .any => .ok (anyArrangement f (Config.free tick).arrangement h')

/-- `heap_pop()` (R122): the element returned and the heap it leaves. -/
def heapPop (p : Params) (f : Nat → Nat) (h : List Nat) (tick : Nat) :
    Except Stop (Nat × List Nat) :=
  match h with
  | []     => .error (.raise .emptyQueue)
  | v :: t =>
    match p.tiebreak with
    | .ref => .ok (v, heapPopRef f v t)
    | .any =>
      let m := anyMinimal f (Config.free tick).choice h
      .ok (m, anyArrangement f (Config.free tick).arrangement (h.erase m))

/-- HINIT's command (R120). -/
def hinitBody (n : Nat) (s : State) : Except Stop State :=
  if hinitOperandOk n s then
    .ok { s with
      mem  := { s.mem with heap := heapInit s.params (freqOf s.mem.node) n s.tick }
      tick := s.tick + 1 }
  else .error (.raise .illegalCommand)

/-- HPUSH's command (R121): the operand's range, then the capacity, before anything is written. -/
def hpushBody (k : Nat) (s : State) : Except Stop State :=
  if hpushOperandOk k s then
    match heapPush s.params (freqOf s.mem.node) s.mem.heap k s.tick with
    | .error e => .error e
    | .ok h    =>
      if heapInRange s then
        .ok { s with mem := { s.mem with heap := h }, tick := s.tick + 1 }
      else .error (.fault .danglingHeapEntry)
  else .error (.raise .illegalCommand)

/-- HPOP's command (R122). -/
def hpopBody (s : State) : Except Stop State :=
  match heapPop s.params (freqOf s.mem.node) s.mem.heap s.tick with
  | .error e     => .error e
  | .ok (v, h)   =>
    if heapInRange s then
      .ok { s with
        mem  := { s.mem with heap := h }
        regs := { s.regs with hres := v }
        tick := s.tick + 1 }
    else .error (.fault .danglingHeapEntry)

/-- **HINIT n** (R120). -/
def execHinit (n : Nat) (s : State) : Host.Outcome State Fault Refusal :=
  runFrame [] none (hinitBody n) s

/-- **HPUSH k** (R121). -/
def execHpush (k : Nat) (s : State) : Host.Outcome State Fault Refusal :=
  runFrame [] none (hpushBody k) s

/-- **HPOP** (R122). -/
def execHpop (s : State) : Host.Outcome State Fault Refusal :=
  runFrame [] (some .hres) hpopBody s

end Sys2Proof.Machine
end

