-- ==== Sys2Proof/Machine/Builder.lean ====
section
/-! DEFINITION. The frequency count and the tree builder: COUNT and BUILD
(spec/41_tree_builder.md). -/

namespace Sys2Proof.Machine

/-- The table with the count of `sym` one larger; nothing when `sym` has no entry (R135). -/
def bumpCount (sym : Symbol) : List (Symbol × Nat) → Option (List (Symbol × Nat))
  | []      => none
  | e :: es =>
    if e.1 = sym then some ((e.1, e.2 + 1) :: es) else (bumpCount sym es).map (e :: ·)

/-- The loop of COUNT over the symbols still to come, with FREQ as it stands (R135). A new symbol's
entry is put at the end, so FREQ is in order of first occurrence (R136). -/
def countLoop (p : Params) : List Symbol → List (Symbol × Nat) → Except Stop (List (Symbol × Nat))
  | [], freq      => .ok freq
  | c :: cs, freq =>
    match bumpCount c freq with
    | some freq' => countLoop p cs freq'
    | none       =>
      match memAppend p.nsymMax freq [(c, 1)] with
      | .ok freq' => countLoop p cs freq'
      | .error e  => .error e

/-- COUNT's pseudocode (R135). -/
def countBody (s : State) : Except Stop State :=
  match countLoop s.params s.mem.text [] with
  | .ok freq => .ok { s with mem := { s.mem with freq := freq } }
  | .error e => .error e

/-- **COUNT** (R135). -/
def execCount (s : State) : Host.Outcome State Fault Refusal :=
  runFrame [.text] (some .freq) countBody s

/-- The sum of the counts of a frequency table (R137, R145). -/
def totalCount (freq : List (Symbol × Nat)) : Nat := (freq.map (·.2)).sum

/-- The leaves of a frequency table: entry i becomes node i (R138). -/
def leavesOf (freq : List (Symbol × Nat)) : List Node := freq.map (fun e => .leaf e.1 e.2)

/-- What BUILD works on: the arena, the heap, and the number of the next free values. -/
structure Forest where
  nodes : List Node
  heap  : List Nat
  tick  : Nat
  deriving DecidableEq, Repr

/-- One round of the merge loop (R139): pop two, the first becomes the left child and the second
the right child (R140), and push the new node, whose frequency is the exact sum (R145). -/
def mergeOnce (p : Params) (w : Forest) : Except Stop Forest :=
  match heapPop p (freqOf w.nodes) w.heap w.tick with
  | .error e     => .error e
  | .ok (l, h1)  =>
    match heapPop p (freqOf w.nodes) h1 (w.tick + 1) with
    | .error e    => .error e
    | .ok (r, h2) =>
      let k := w.nodes.length
      let node := Node.internal l r (freqOf w.nodes l + freqOf w.nodes r)
      match memAppend p.nnodeMax w.nodes [node] with
      | .error e  => .error e
      | .ok nodes =>
        match heapPush p (freqOf nodes) h2 k (w.tick + 2) with
        | .error e => .error e
        | .ok h3   => .ok ⟨nodes, h3, w.tick + 3⟩

/-- The merge loop, while more than one node remains (R137, R139). Each round leaves one fewer, so
as many rounds as there are nodes at the start are enough. -/
def mergeLoop (p : Params) : Nat → Forest → Except Stop Forest
  | 0, w          => .ok w
  | rounds + 1, w =>
    if w.heap.length ≤ 1 then .ok w
    else
      match mergeOnce p w with
      | .error e => .error e
      | .ok w'   => mergeLoop p rounds w'

/-- BUILD's pseudocode (R137), on a state whose NODE and HEAP step 3 has emptied. -/
def buildBody (s : State) : Except Stop State :=
  let freq := s.mem.freq
  if freq = [] then .error (.raise .emptyInput)
  else if s.params.freqFits (totalCount freq) then
    match memAppend s.params.nnodeMax s.mem.node (leavesOf freq) with
    | .error e      => .error e
    | .ok leaves    =>
      let n := freq.length
      let start : Forest := ⟨leaves, heapInit s.params (freqOf leaves) n s.tick, s.tick + 1⟩
      match mergeLoop s.params n start with
      | .error e => .error e
      | .ok w    =>
        match heapPop s.params (freqOf w.nodes) w.heap w.tick with
        | .error e        => .error e
        | .ok (root, rest) =>
          .ok { s with
            mem  := { s.mem with node := w.nodes, heap := rest }
            regs := { s.regs with root := root }
            tick := w.tick + 1 }
  else .error (.raise .capacity)

/-- **BUILD** (R137). -/
def execBuild (s : State) : Host.Outcome State Fault Refusal :=
  runFrame [.freq] (some .tree) buildBody s

end Sys2Proof.Machine
end

