-- ==== Sys2Proof/Machine/Generator.lean ====
section
/-! DEFINITION. The code generator: GENCODES (spec/42_code_generator.md). -/

namespace Sys2Proof.Machine

/-- The depth-first walk with its explicit stack, top first, and CODE as it stands (R155). Bit 0
leads to the left child, which is visited first (R156, R157). A tree's nodes are each popped once
(R159), so NNODE pops are enough. -/
def walk (p : Params) (nodes : List Node) :
    Nat → List (Nat × Bits) → List (Symbol × Bits) → Except Stop (List (Symbol × Bits))
  | _, [], code                     => .ok code
  | 0, _ :: _, _                    => .error (.fault .unendingWalk)
  | pops + 1, (n, path) :: st, code =>
    match nodeAt nodes n with
    | none                    => .error (.fault .danglingNodeIndex)
    | some (.leaf sym _)      =>
      match memAppend p.nsymMax code [(sym, path)] with
      | .ok code' => walk p nodes pops st code'
      | .error e  => .error e
    | some (.internal l r _)  =>
      walk p nodes pops ((l, path ++ [false]) :: (r, path ++ [true]) :: st) code

/-- The code table of a tree (R155): a root that is a leaf gets the code "0" (R158), any other root
is walked from the empty path. -/
def generate (p : Params) (nodes : List Node) (root : Nat) :
    Except Stop (List (Symbol × Bits)) :=
  match nodeAt nodes root with
  | none                   => .error (.fault .danglingNodeIndex)
  | some (.leaf sym _)     => memAppend p.nsymMax [] [(sym, [false])]
  | some (.internal _ _ _) => walk p nodes nodes.length [(root, [])] []

/-- GENCODES's pseudocode (R155). -/
def gencodesBody (s : State) : Except Stop State :=
  match generate s.params s.mem.node s.regs.root with
  | .ok code => .ok { s with mem := { s.mem with code := code } }
  | .error e => .error e

/-- **GENCODES** (R155). -/
def execGencodes (s : State) : Host.Outcome State Fault Refusal :=
  runFrame [.tree] (some .code) gencodesBody s

end Sys2Proof.Machine
end

