-- ==== Sys2Proof/Machine/Codec.lean ====
section
/-! DEFINITION. The bitstream codec: ENCODE, DECODE and VERIFY (spec/43_codec.md). -/

namespace Sys2Proof.Machine

/-- The loop of ENCODE over the symbols still to come, with BITS as it stands (R170): for each
symbol the unknown symbol is found before the capacity (R241). -/
def encodeLoop (p : Params) (table : List (Symbol × Bits)) :
    List Symbol → Bits → Except Stop Bits
  | [], bits      => .ok bits
  | c :: cs, bits =>
    match codeOf? table c with
    | none      => .error (.raise .unknownSymbol)
    | some code =>
      match memAppend p.bitsMax bits code with
      | .ok bits' => encodeLoop p table cs bits'
      | .error e  => .error e

/-- ENCODE's pseudocode (R170). -/
def encodeBody (s : State) : Except Stop State :=
  match encodeLoop s.params s.mem.code s.mem.text [] with
  | .ok bits => .ok { s with mem := { s.mem with bits := bits } }
  | .error e => .error e

/-- **ENCODE** (R170). -/
def execEncode (s : State) : Host.Outcome State Fault Refusal :=
  runFrame [.text, .code] (some .bits) encodeBody s

/-- The loop of DECODE over the bits still to come, with the buffer and OUT as they stand (R173).
The match is tested after every single bit, on the whole buffer. -/
def decodeLoop (p : Params) (table : List (Bits × Symbol)) :
    Bits → Bits → List Symbol → Except Stop (List Symbol)
  | [], buf, out      => if buf = [] then .ok out else .error (.raise .undecodableStream)
  | b :: bs, buf, out =>
    match symbolOf? table (buf ++ [b]) with
    | none     => decodeLoop p table bs (buf ++ [b]) out
    | some sym =>
      match memAppend p.textMax out [sym] with
      | .ok out' => decodeLoop p table bs [] out'
      | .error e => .error e

/-- DECODE's pseudocode (R173). -/
def decodeBody (s : State) : Except Stop State :=
  match decodeLoop s.params s.mem.inv s.mem.bits [] [] with
  | .ok out  => .ok { s with mem := { s.mem with out := out } }
  | .error e => .error e

/-- **DECODE** (R173). -/
def execDecode (s : State) : Host.Outcome State Fault Refusal :=
  runFrame [.bits, .inv] (some .out) decodeBody s

/-- VERIFY's pseudocode (R177): the two sequences differ in length or in an element. -/
def verifyBody (s : State) : Except Stop State :=
  if s.mem.out.length ≠ s.mem.text.length then .error (.raise .roundTripMismatch)
  else if s.mem.out = s.mem.text then .ok s
  else .error (.raise .roundTripMismatch)

/-- **VERIFY** (R177). -/
def execVerify (s : State) : Host.Outcome State Fault Refusal :=
  runFrame [.text, .out] none verifyBody s

end Sys2Proof.Machine
end

