-- ==== Sys2Proof/Machine/Serializer.lean ====
section
/-! DEFINITION. The binary serializer and deserializer: SERDATA, SERTAB, DESDATA and DESTAB
(spec/44_serializer.md). -/

namespace Sys2Proof.Machine

/-- The encoded-data artifact of a bitstream (R95): the padding length, then the padded bits
packed. -/
def dataArtifact (bits : Bits) : List Byte :=
  u8 (padOf bits.length) :: pack (bits ++ zeros (padOf bits.length))

/-- SERDATA's pseudocode (R195). -/
def serdataBody (s : State) : Except Stop State :=
  let pad := padOf s.mem.bits.length
  if s.params.dataMax.admits (1 + (s.mem.bits.length + pad) / 8) then
    .ok { s with
      regs := { s.regs with pad := pad }
      mem  := { s.mem with data := dataArtifact s.mem.bits } }
  else .error (.raise .capacity)

/-- **SERDATA** (R195). -/
def execSerdata (s : State) : Host.Outcome State Fault Refusal :=
  runFrame [.bits] (some .data) serdataBody s

/-- The loop of SERTAB over the pairs still to come, with CTAB as it stands (R198): for each pair
the format limit is checked before the capacity (R199, R241). -/
def sertabLoop (p : Params) : List (Symbol × Bits) → List Byte → Except Stop (List Byte)
  | [], ctab                => .ok ctab
  | (sym, code) :: es, ctab =>
    if sym.len > lenFieldMax ∨ code.length > lenFieldMax then
      .error (.raise .formatLimitExceeded)
    else
      match memAppend p.ctabMax ctab (tableRecord sym code) with
      | .ok ctab' => sertabLoop p es ctab'
      | .error e  => .error e

/-- SERTAB's pseudocode (R198). -/
def sertabBody (s : State) : Except Stop State :=
  match sertabLoop s.params s.mem.code [] with
  | .ok ctab => .ok { s with mem := { s.mem with ctab := ctab } }
  | .error e => .error e

/-- **SERTAB** (R198). -/
def execSertab (s : State) : Host.Outcome State Fault Refusal :=
  runFrame [.code] (some .ctab) sertabBody s

/-- DESDATA's pseudocode (R202), with the three corrupt cases of R203 in order. The last P bits
are stripped and not looked at. -/
def desdataBody (s : State) : Except Stop State :=
  match s.mem.data with
  | []              => .error (.raise .corruptArtifact)
  | padByte :: body =>
    let pad := padByte.toNat
    let u := unpack body
    if pad > 7 then .error (.raise .corruptArtifact)
    else if pad > u.length then .error (.raise .corruptArtifact)
    else if s.params.bitsMax.admits (u.length - pad) then
      .ok { s with mem := { s.mem with bits := u.take (u.length - pad) } }
    else .error (.raise .capacity)

/-- **DESDATA** (R202). -/
def execDesdata (s : State) : Host.Outcome State Fault Refusal :=
  runFrame [.data] (some .bits) desdataBody s

/-- One record at the head of the bytes still to be read (R100, R204), and the bytes after it;
nothing when it is malformed. The checks a to f of R205 are made in the order the bytes are met:
a symbol length of 0 gives no symbol, and a code length of 0 no code. -/
def readRecord (bytes : List Byte) : Option (Symbol × Bits × List Byte) :=
  match bytes with
  | []           => none
  | slen :: rest =>
    match memTake slen.toNat rest with
    | none                   => none
    | some (symBytes, rest') =>
      match Symbol.ofBytes? symBytes, rest' with
      | some sym, clen :: rest'' =>
        if clen.toNat = 0 then none
        else
          match memTake clen.toNat rest'' with
          | none                     => none
          | some (codeBytes, rest''') =>
            match ascBits? codeBytes with
            | none      => none
            | some code => some (sym, code, rest''')
      | _, _ => none

/-- The table with the symbol of `code` replaced, the entry keeping its position; nothing when
`code` has no entry (R206). -/
def replaceSymbol (code : Bits) (sym : Symbol) :
    List (Bits × Symbol) → Option (List (Bits × Symbol))
  | []      => none
  | e :: es =>
    if e.1 = code then some ((code, sym) :: es) else (replaceSymbol code sym es).map (e :: ·)

/-- The loop of DESTAB over the bytes still to be read, with INV as it stands (R204). A record takes
at least 4 bytes (R269), so as many rounds as CLEN are enough, and the last arm is never met with
bytes left over. -/
def destabLoop (p : Params) :
    Nat → List Byte → List (Bits × Symbol) → Except Stop (List (Bits × Symbol))
  | _, [], inv                   => .ok inv
  | 0, _ :: _, _                 => .error (.raise .corruptArtifact)
  | rounds + 1, b :: bs, inv     =>
    match readRecord (b :: bs) with
    | none                   => .error (.raise .corruptArtifact)
    | some (sym, code, rest) =>
      if p.symlenMax.admits sym.len then
        match replaceSymbol code sym inv with
        | some inv' => destabLoop p rounds rest inv'
        | none      =>
          match memAppend p.nsymMax inv [(code, sym)] with
          | .ok inv' => destabLoop p rounds rest inv'
          | .error e => .error e
      else .error (.raise .capacity)

/-- DESTAB's pseudocode (R204). -/
def destabBody (s : State) : Except Stop State :=
  match destabLoop s.params s.mem.ctab.length s.mem.ctab [] with
  | .ok inv  => .ok { s with mem := { s.mem with inv := inv } }
  | .error e => .error e

/-- **DESTAB** (R204). -/
def execDestab (s : State) : Host.Outcome State Fault Refusal :=
  runFrame [.ctab] (some .inv) destabBody s

end Sys2Proof.Machine
end

