-- ==== Sys2Proof/Machine/Dispatch.lean ====
section
/-! DEFINITION. The dispatch of a decoded command to its meaning, one arm per row of
spec/opcode_table.json. -/

namespace Sys2Proof.Machine

def exec (i : Instr) (s : State) : Host.Outcome State Fault Refusal :=
  match i with
  | .hinit n => Sys2Proof.Machine.execHinit n s
  | .hpush k => Sys2Proof.Machine.execHpush k s
  | .hpop => Sys2Proof.Machine.execHpop s
  | .count => Sys2Proof.Machine.execCount s
  | .build => Sys2Proof.Machine.execBuild s
  | .gencodes => Sys2Proof.Machine.execGencodes s
  | .encode => Sys2Proof.Machine.execEncode s
  | .decode => Sys2Proof.Machine.execDecode s
  | .verify => Sys2Proof.Machine.execVerify s
  | .serdata => Sys2Proof.Machine.execSerdata s
  | .sertab => Sys2Proof.Machine.execSertab s
  | .desdata => Sys2Proof.Machine.execDesdata s
  | .destab => Sys2Proof.Machine.execDestab s

end Sys2Proof.Machine
end

