-- ==== Sys2Proof/WellFormed.lean ====
section
/-! DEFINITION. Which commands have an encoding: the operand is a 24-bit unsigned number
(spec/30_encoding.md R86). -/

namespace Sys2Proof

/-- `ARG` is in `[0, 2^24 - 1]` (R86). -/
abbrev ArgFits (a : Nat) : Prop := a < 2 ^ 24

/-- A command that a command word can carry. -/
def Instr.wellFormed : Instr → Bool
  | .hinit n  => decide (ArgFits n)
  | .hpush k  => decide (ArgFits k)
  | .hpop     => true
  | .count    => true
  | .build    => true
  | .gencodes => true
  | .encode   => true
  | .decode   => true
  | .verify   => true
  | .serdata  => true
  | .sertab   => true
  | .desdata  => true
  | .destab   => true

end Sys2Proof
end

