-- ==== Sys2Proof/Decode.lean ====
section
/-! DEFINITION. The command word: fields, opcode map, decoder and encoder
(spec/30_encoding.md R85 to R90). Decoding is total: every word is a legal command or is rejected
by name. -/

namespace Sys2Proof

/-- `OPC = w[7:0]` (R85, R86). -/
def opcOf (w : Word) : BitVec 8 := w.extractLsb' 0 8

/-- `ARG = w[31:8]`, an unsigned natural number, not extended, scaled or shifted (R86). -/
def argOf (w : Word) : Nat := (w.extractLsb' 8 24).toNat

/-- A row of the opcode map (R88). `instr` stands for the row's command; where the command has an
operand its value there is 0 and is replaced by the word's ARG. -/
structure OpcodeRow where
  instr   : Instr
  pattern : Word
  mask    : Word
  deriving DecidableEq, Repr

/-- The opcode map of R88, in the table's order. -/
def opcodeMap : List OpcodeRow :=
  [ ⟨.hinit 0,  0x00000001#32, 0x000000FF#32⟩,
    ⟨.hpush 0,  0x00000002#32, 0x000000FF#32⟩,
    ⟨.hpop,     0x00000003#32, 0xFFFFFFFF#32⟩,
    ⟨.count,    0x00000010#32, 0xFFFFFFFF#32⟩,
    ⟨.build,    0x00000011#32, 0xFFFFFFFF#32⟩,
    ⟨.gencodes, 0x00000020#32, 0xFFFFFFFF#32⟩,
    ⟨.encode,   0x00000030#32, 0xFFFFFFFF#32⟩,
    ⟨.decode,   0x00000031#32, 0xFFFFFFFF#32⟩,
    ⟨.verify,   0x00000032#32, 0xFFFFFFFF#32⟩,
    ⟨.serdata,  0x00000040#32, 0xFFFFFFFF#32⟩,
    ⟨.sertab,   0x00000041#32, 0xFFFFFFFF#32⟩,
    ⟨.desdata,  0x00000042#32, 0xFFFFFFFF#32⟩,
    ⟨.destab,   0x00000043#32, 0xFFFFFFFF#32⟩ ]

/-- The match of a row is `(w AND mask) = match` (R87). -/
def OpcodeRow.accepts (r : OpcodeRow) (w : Word) : Bool := w &&& r.mask == r.pattern

/-- The command with its operand taken from ARG (R86). -/
def Instr.withArg (a : Nat) : Instr → Instr
  | .hinit _  => .hinit a
  | .hpush _  => .hpush a
  | .hpop     => .hpop
  | .count    => .count
  | .build    => .build
  | .gencodes => .gencodes
  | .encode   => .encode
  | .decode   => .decode
  | .verify   => .verify
  | .serdata  => .serdata
  | .sertab   => .sertab
  | .desdata  => .desdata
  | .destab   => .destab

/-- Why a word is no command (R89). -/
inductive IllegalWord where
  /-- its OPC is none of the thirteen values of R88 -/
  | unassignedOpcode (opc : BitVec 8)
  /-- its OPC is that of a command without an operand and its ARG is not 0 -/
  | nonzeroArg (opc : BitVec 8) (arg : Nat)
  deriving DecidableEq, Repr

/-- The reason a word that no row accepts is illegal (R89). -/
def illegalWord (w : Word) : IllegalWord :=
  if opcodeMap.any (fun r => r.pattern.extractLsb' 0 8 == opcOf w) then
    .nonzeroArg (opcOf w) (argOf w)
  else
    .unassignedOpcode (opcOf w)

/-- The decoder (R87): the first row that accepts the word, with the word's ARG. No two rows
accept one word (`Laws/Encoding.lean`, `opcodeMap_disjoint`). -/
def decodeWord (w : Word) : Except IllegalWord Instr :=
  match opcodeMap.find? (·.accepts w) with
  | some r => .ok (r.instr.withArg (argOf w))
  | none   => .error (illegalWord w)

/-- The OPC value of a command (R88). -/
def Instr.opcode : Instr → BitVec 8
  | .hinit _  => 0x01#8
  | .hpush _  => 0x02#8
  | .hpop     => 0x03#8
  | .count    => 0x10#8
  | .build    => 0x11#8
  | .gencodes => 0x20#8
  | .encode   => 0x30#8
  | .decode   => 0x31#8
  | .verify   => 0x32#8
  | .serdata  => 0x40#8
  | .sertab   => 0x41#8
  | .desdata  => 0x42#8
  | .destab   => 0x43#8

/-- The ARG field of a command: its operand, or 0 for a command without one (R85). -/
def Instr.arg : Instr → Nat
  | .hinit n  => n
  | .hpush k  => k
  | .hpop     => 0
  | .count    => 0
  | .build    => 0
  | .gencodes => 0
  | .encode   => 0
  | .decode   => 0
  | .verify   => 0
  | .serdata  => 0
  | .sertab   => 0
  | .desdata  => 0
  | .destab   => 0

/-- The encoder: ARG in bits 31:8, OPC in bits 7:0 (R85). -/
def encodeInstr (i : Instr) : Word := BitVec.ofNat 24 i.arg ++ i.opcode

/-- The word whose bits the opcode table numbers `w`: the table gives its first `nbits` bits, and
the bits above are 0. The command word is one 32-bit value, with no byte order to lay out (R85). -/
def tableWord (nbits w : Nat) : Word := BitVec.ofNat 32 (w % 2 ^ nbits)

/-- What the decoder reads from the table's bits. -/
def decodeTableWord (nbits w : Nat) : Option Instr :=
  match decodeWord (tableWord nbits w) with
  | .ok i    => some i
  | .error _ => none

end Sys2Proof
end

