-- ==== Sys2Proof/Machine/Host.lean ====
section
/-! DEFINITION. The host's actions on HUFF: the four loads and the read (spec/20_memory.md R64 to
R70), writing CMD (spec/10_state.md R36), macros (spec/30_encoding.md R106) and reset
(spec/70_reset_and_hazards.md R260). -/

namespace Sys2Proof.Machine

/-- Every symbol is within `SYMLEN_MAX` bytes. -/
def symbolsFit (p : Params) (l : List Symbol) : Bool := l.all (fun c => p.symlenMax.admits c.len)

/-- LDTEXT's validation (R66). -/
def ldtextCheck (p : Params) (v : List Symbol) : Option ResultCode :=
  if p.textMax.admits v.length && symbolsFit p v then none else some .capacity

/-- A count that the frequency table may hold: not 0, and within `W_FREQ` bits (R23, R67). -/
def countOk (p : Params) (n : Nat) : Bool := decide (n ≠ 0) && p.freqFits n

/-- No two pairs have equal symbols. -/
def distinctSymbols (v : List (Symbol × Nat)) : Bool := decide ((v.map (·.1)).Nodup)

/-- LDFREQ's validation: a legal table (a) before the capacity (b) (R67, R241). -/
def ldfreqCheck (p : Params) (v : List (Symbol × Nat)) : Option ResultCode :=
  if v.all (fun e => countOk p e.2) && distinctSymbols v then
    if p.nsymMax.admits v.length && symbolsFit p (v.map (·.1)) then none else some .capacity
  else some .illegalCommand

/-- LDDATA's validation (R68). -/
def lddataCheck (p : Params) (v : List Byte) : Option ResultCode :=
  if p.dataMax.admits v.length then none else some .capacity

/-- LDCTAB's validation (R69). -/
def ldctabCheck (p : Params) (v : List Byte) : Option ResultCode :=
  if p.ctabMax.admits v.length then none else some .capacity

/-- `LDTEXT(v)` (R66). -/
def loadText (v : List Symbol) (s : State) : State :=
  runLoad .text (ldtextCheck s.params v) (fun t => { t with mem := { t.mem with text := v } }) s

/-- `LDFREQ(v)` (R67). -/
def loadFreq (v : List (Symbol × Nat)) (s : State) : State :=
  runLoad .freq (ldfreqCheck s.params v) (fun t => { t with mem := { t.mem with freq := v } }) s

/-- `LDDATA(v)` (R68); PAD is not written. -/
def loadData (v : List Byte) (s : State) : State :=
  runLoad .data (lddataCheck s.params v) (fun t => { t with mem := { t.mem with data := v } }) s

/-- `LDCTAB(v)` (R69). -/
def loadCtab (v : List Byte) (s : State) : State :=
  runLoad .ctab (ldctabCheck s.params v) (fun t => { t with mem := { t.mem with ctab := v } }) s

/-- The length register of a space (R22 to R33). -/
def lengthOf (x : Space) (s : State) : Nat :=
  match x with
  | .text => s.mem.text.length
  | .freq => s.mem.freq.length
  | .node => s.mem.node.length
  | .heap => s.mem.heap.length
  | .code => s.mem.code.length
  | .inv  => s.mem.inv.length
  | .bits => s.mem.bits.length
  | .data => s.mem.data.length
  | .ctab => s.mem.ctab.length
  | .out  => s.mem.out.length

/-- The whole contents of a space. -/
def contentsOf (x : Space) (s : State) : ReadValue :=
  match x with
  | .text => .symbols s.mem.text
  | .freq => .freqTable s.mem.freq
  | .node => .nodes s.mem.node
  | .heap => .indices s.mem.heap
  | .code => .codeTable s.mem.code
  | .inv  => .inverseTable s.mem.inv
  | .bits => .bits s.mem.bits
  | .data => .bytes s.mem.data
  | .ctab => .bytes s.mem.ctab
  | .out  => .symbols s.mem.out

/-- The contents of a space can be read: its flag is 1, and HEAP, which has no flag, only under
`TIEBREAK = REF` (R45, R70). -/
def spaceReadable (x : Space) (s : State) : Bool :=
  match x with
  | .text => s.flag .text
  | .freq => s.flag .freq
  | .node => s.flag .tree
  | .heap => decide (s.params.tiebreak = .ref)
  | .code => s.flag .code
  | .inv  => s.flag .inv
  | .bits => s.flag .bits
  | .data => s.flag .data
  | .ctab => s.flag .ctab
  | .out  => s.flag .out

/-- `v` when the host may read it, and a refusal otherwise (R70). -/
def replyIf (readable : Bool) (v : ReadValue) : Reply := if readable then .value v else .refused

/-- `RD(x)` (R70, R45). A length register can be read in every state (R45; log entry 9); CMD
cannot be read (R36). -/
def hostRead (x : ReadTarget) (s : State) : Reply :=
  match x with
  | .contents x => replyIf (spaceReadable x s) (contentsOf x s)
  | .length x   => .value (.number (lengthOf x s))
  | .root       => replyIf (s.flag .tree) (.number s.regs.root)
  | .hres       => replyIf (s.flag .hres) (.number s.regs.hres)
  | .pad        => replyIf (s.flag .data) (.number s.regs.pad)
  | .valid      => .value (.number s.ctl.valid.toNat)
  | .status     => .value (.number s.ctl.status.toNat)
  | .err        => .value (.number s.ctl.err.word.toNat)
  | .errlog     => .value (.number s.ctl.errlog.toNat)
  | .cmd        => .refused

/-- The host writes a word to CMD (R36, R85). -/
def writeCmd (w : Word) (s : State) : State := { s with ctl := { s.ctl with cmd := some w } }

/-- The host issues the next word of a macro and keeps the rest of it as its next action (R106). -/
def issueNext (ws : List Word) (s : State) : State :=
  match ws with
  | []      => s
  | w :: ws => writeCmd w { s with host := { s.host with pending := .scriptRest ws :: s.host.pending } }

/-- Reset (R260): HUFF is as after reset, whatever it was doing. The host's own actions go on, and
the parameters are those of the machine. -/
def applyReset (s : State) : State :=
  { State.reset with params := s.params, tick := s.tick, host := s.host }

/-- One action of the host, HUFF being idle (R64). A macro stops at the first result code that is
not 0 (R106). -/
def hostAct (a : HostAction) (s : State) : State :=
  match a with
  | .ldtext v      => loadText v s
  | .ldfreq v      => loadFreq v s
  | .lddata v      => loadData v s
  | .ldctab v      => loadCtab v s
  | .rd x          => { s with host := { s.host with replies := s.host.replies ++ [hostRead x s] } }
  | .command w     => writeCmd w s
  | .script ws     => issueNext ws s
  | .scriptRest ws => if s.ctl.err = .ok then issueNext ws s else s
  | .reset         => applyReset s

/-- The macro `COMPRESS` (R106). -/
def compressScript : List Word :=
  [.count, .build, .gencodes, .encode, .serdata, .sertab].map encodeInstr

/-- The macro `DESER` (R106). -/
def deserScript : List Word := [.desdata, .destab].map encodeInstr

/-- The macro `DECOMPRESS` (R106). -/
def decompressScript : List Word := [.desdata, .destab, .decode].map encodeInstr

/-- The macro `ROUNDTRIP` (R106). -/
def roundtripScript : List Word := compressScript ++ decompressScript ++ [encodeInstr .verify]

end Sys2Proof.Machine
end

