-- ==== Sys2Proof/Machine/Run.lean ====
section
/-! DEFINITION. What one step does: the host performs its next action, and a word that then stands
in CMD is taken and executed (spec/00_scope.md R5, spec/30_encoding.md R85,
spec/60_exceptions.md R237). -/

namespace Sys2Proof.Machine

/-- HUFF executes a command word (R237): an illegal word ends with code 8 and changes nothing else
(R89), a legal one is executed. -/
def runWord (w : Word) (s : State) : Host.Outcome State Fault Refusal :=
  match decodeWord w with
  | .error _ => .next (s.endWith .illegalCommand)
  | .ok i    => exec i s

/-- HUFF takes the word that stands in CMD, if there is one, and executes it. CMD holds nothing
afterwards (R36). -/
def takeCommand (s : State) : Host.Outcome State Fault Refusal :=
  match s.ctl.cmd with
  | some w => runWord w { s with ctl := { s.ctl with cmd := none } }
  | none   => .next s

/-- One step (R5, R64). With a word in CMD, HUFF executes it. Otherwise the host performs its next
action, which HUFF accepts only when it is not busy, reset excepted (R64, R260); with no action
left HUFF is idle and nothing changes (R261). -/
def advance (s : State) : Host.Outcome State Fault Refusal :=
  match s.ctl.cmd, s.host.pending with
  | some _, _    => takeCommand s
  | none, []     => .next s
  | none, a :: rest =>
    if s.busy && decide (a ≠ .reset) then .refused .hostActionWhileBusy
    else takeCommand (hostAct a { s with host := { s.host with pending := rest } })

/-- The machine with a word written to CMD: the next step executes it. -/
def withWordInCmd (s : State) (w : Word) : State := writeCmd w s

end Sys2Proof.Machine
end

