-- ==== Sys2Proof/Machine/Step.lean ====
section
/-! DEFINITION. The step, and the placing of a command word where the step takes its next one. -/

namespace Sys2Proof.Machine

/-- One step of the machine. -/
def step (s : State) : Host.Outcome State Fault Refusal := advance s

/-- The command whose bits the opcode table numbers `w`, written to CMD. HUFF fetches nothing from
any memory (spec/10_state.md R40): CMD is where the step takes its next command. -/
def State.withFetchWord (s : State) (nbits w : Nat) : State := withWordInCmd s (tableWord nbits w)

end Sys2Proof.Machine
end

