-- ==== Sys2Proof/Safety.lean ====
section
/-! DEFINITION. The terms in which claims about HUFF are made: what the control registers hold after
an action, which flags a command needs and which state it may write (spec/60_exceptions.md R234,
spec/20_memory.md R61), and the invariants of spec/10_state.md R23 to R28, R37 to R39 and R43. -/

namespace Sys2Proof.Machine

/-! ### The end of an action -/

/-- The control registers after an action that ended with code 0 and made the buffer of `out` valid
(R237 step 5): its flag is 1, ERR and STATUS.ERRF are 0, everything else is as it was. -/
def okControl (out : Option Flag) (c : Control) : Control :=
  { c with
    valid  := match out with
      | some f => c.valid ||| (1#10 <<< f.bit)
      | none   => c.valid
    status := c.status &&& 1#2
    err    := .ok }

/-- The control registers after an action that ended with the non-zero `code` and left the buffer
of `out` invalid (R237, R238): its flag is 0, ERR is `code`, STATUS.ERRF is 1, bit `code` of
ERRLOG is 1, everything else is as it was. -/
def errControl (out : Option Flag) (code : ResultCode) (c : Control) : Control :=
  { c with
    valid  := match out with
      | some f => c.valid &&& ~~~(1#10 <<< f.bit)
      | none   => c.valid
    status := (c.status &&& 1#2) ||| 2#2
    err    := code
    errlog := c.errlog ||| (1#16 <<< code.toNat) }

/-- The flags a command needs (the table of R234). -/
def neededFlags : Instr → List Flag
  | .hinit _  => []
  | .hpush _  => []
  | .hpop     => []
  | .count    => [.text]
  | .build    => [.freq]
  | .gencodes => [.tree]
  | .encode   => [.text, .code]
  | .decode   => [.bits, .inv]
  | .verify   => [.text, .out]
  | .serdata  => [.bits]
  | .sertab   => [.code]
  | .desdata  => [.data]
  | .destab   => [.ctab]

/-- The flag of a command's output (the table of R35). -/
def outputFlag : Instr → Option Flag
  | .hinit _  => none
  | .hpush _  => none
  | .hpop     => some .hres
  | .count    => some .freq
  | .build    => some .tree
  | .gencodes => some .code
  | .encode   => some .bits
  | .decode   => some .out
  | .verify   => none
  | .serdata  => some .data
  | .sertab   => some .ctab
  | .desdata  => some .bits
  | .destab   => some .inv

/-- The spaces a command writes (the table of R61). -/
def writtenSpaces : Instr → List Space
  | .hinit _  => [.heap]
  | .hpush _  => [.heap]
  | .hpop     => [.heap]
  | .count    => [.freq]
  | .build    => [.node, .heap]
  | .gencodes => [.code]
  | .encode   => [.bits]
  | .decode   => [.out]
  | .verify   => []
  | .serdata  => [.data]
  | .sertab   => [.ctab]
  | .desdata  => [.bits]
  | .destab   => [.inv]

/-- The result codes a command can end with when its word is legal (the table of R236). -/
def possibleCodes : Instr → List ResultCode
  | .hinit _  => [.ok, .illegalCommand]
  | .hpush _  => [.ok, .illegalCommand, .capacity]
  | .hpop     => [.ok, .emptyQueue]
  | .count    => [.ok, .notReady, .capacity]
  | .build    => [.ok, .emptyInput, .notReady, .capacity]
  | .gencodes => [.ok, .notReady]
  | .encode   => [.ok, .unknownSymbol, .notReady, .capacity]
  | .decode   => [.ok, .undecodableStream, .notReady, .capacity]
  | .verify   => [.ok, .roundTripMismatch, .notReady]
  | .serdata  => [.ok, .notReady, .capacity]
  | .sertab   => [.ok, .formatLimitExceeded, .notReady, .capacity]
  | .desdata  => [.ok, .corruptArtifact, .notReady, .capacity]
  | .destab   => [.ok, .corruptArtifact, .notReady, .capacity]

/-! ### Trees and code tables -/

/-- The symbol of a leaf. -/
def Node.sym? : Node → Option Symbol
  | .leaf c _       => some c
  | .internal _ _ _ => none

/-- The children of a node. -/
def Node.children : Node → List Nat
  | .leaf _ _       => []
  | .internal l r _ => [l, r]

/-- The symbols of the leaves of an arena, in index order. -/
def leafSymbols (nodes : List Node) : List Symbol := nodes.filterMap Node.sym?

/-- The indices that occur as children in an arena, with repetition. -/
def childIndices (nodes : List Node) : List Nat := nodes.flatMap Node.children

/-- Node `k` is a leaf. -/
def isLeafAt (nodes : List Node) (k : Nat) : Bool :=
  match nodeAt nodes k with
  | some (.leaf _ _) => true
  | _                => false

/-- Node `k` is internal, its children are two different nodes made before it, and its frequency is
the sum of theirs (R24 item 1). -/
def isMergeAt (nodes : List Node) (k : Nat) : Bool :=
  match nodeAt nodes k with
  | some (.internal l r f) =>
    decide (l < k ∧ r < k ∧ l ≠ r ∧ f = freqOf nodes l + freqOf nodes r)
  | _ => false

/-- The arena is a strict binary tree with root `root` (R24 items 1 to 3): with N leaves it has
2N - 1 nodes, the leaves first, then the merges, the root last; every node but the root is a
child exactly once, and the root never. -/
abbrev IsTree (nodes : List Node) (root : Nat) : Prop :=
  1 ≤ (leafSymbols nodes).length ∧
  nodes.length = 2 * (leafSymbols nodes).length - 1 ∧
  root + 1 = nodes.length ∧
  (∀ k < nodes.length, if k < (leafSymbols nodes).length then isLeafAt nodes k = true
    else isMergeAt nodes k = true) ∧
  (∀ k < nodes.length, (childIndices nodes).count k = if k = root then 0 else 1)

/-- The node reached from `k` along a bit string, bit 0 to the left child and bit 1 to the right
(R156, R265). -/
def follow (nodes : List Node) : Nat → Bits → Option Node
  | k, []      => nodeAt nodes k
  | k, b :: bs =>
    match nodeAt nodes k with
    | some (.internal l r _) => follow nodes (if b then r else l) bs
    | _                      => none

/-- No code of the table is empty, and none is a prefix of another (R27). -/
abbrev IsPrefixCode (table : List (Symbol × Bits)) : Prop :=
  (∀ e ∈ table, e.2 ≠ []) ∧ table.Pairwise (fun a b => ¬ a.2 <+: b.2 ∧ ¬ b.2 <+: a.2)

/-- The inverse of a code table, in the same order (R208). -/
def inverseTable (table : List (Symbol × Bits)) : List (Bits × Symbol) :=
  table.map (fun e => (e.2, e.1))

/-- The code-table artifact of a table: the records in table order (R98). -/
def tableArtifact (table : List (Symbol × Bits)) : List Byte :=
  table.flatMap (fun e => tableRecord e.1 e.2)

/-- The bitstream of a text: the codes of its symbols, in order (R170). -/
def bitstreamOf (table : List (Symbol × Bits)) (text : List Symbol) : Bits :=
  text.flatMap (fun c => (codeOf? table c).getD [])

/-- The total length that a code table gives a text with these symbol counts: the sum of
count times code length (R146 item 3, R160 item 6). -/
def weightedLength (freq : List (Symbol × Nat)) (table : List (Symbol × Bits)) : Nat :=
  (freq.map (fun e => e.2 * ((codeOf? table e.1).getD []).length)).sum

/-- The Kraft sum of code lengths, the sum of `2^(-n)` (R160 item 7). -/
def kraft (lens : List Nat) : ℚ := (lens.map (fun n => (1 / 2 : ℚ) ^ n)).sum

/-- `buf` is a code of the table, and no shorter non-empty start of it is (R173, R175). -/
abbrev IsGreedyMatch (table : List (Bits × Symbol)) (buf : Bits) : Prop :=
  buf ≠ [] ∧ (symbolOf? table buf).isSome = true ∧
  ∀ n < buf.length, 0 < n → symbolOf? table (buf.take n) = none

/-- No non-empty start of `buf` is a code of the table. -/
abbrev HasNoMatch (table : List (Bits × Symbol)) (buf : Bits) : Prop :=
  ∀ n < buf.length + 1, 0 < n → symbolOf? table (buf.take n) = none

/-- The way the bytes at a record boundary are malformed (R205, cases a to f). -/
inductive BadRecord : List Byte → Prop where
  | symbolLengthZero (r : List Byte) : BadRecord (0#8 :: r)
  | symbolTruncated (n : Byte) (r : List Byte) (h : r.length < n.toNat) : BadRecord (n :: r)
  | noCodeLength (n : Byte) (c : List Byte) (h0 : 0 < n.toNat) (h : c.length = n.toNat) :
      BadRecord (n :: c)
  | codeLengthZero (n : Byte) (c r : List Byte) (h0 : 0 < n.toNat) (h : c.length = n.toNat) :
      BadRecord (n :: (c ++ 0#8 :: r))
  | codeTruncated (n : Byte) (c : List Byte) (m : Byte) (r : List Byte) (h0 : 0 < n.toNat)
      (h : c.length = n.toNat) (hr : r.length < m.toNat) : BadRecord (n :: (c ++ m :: r))
  | codeByte (n : Byte) (c : List Byte) (m : Byte) (b r : List Byte) (h0 : 0 < n.toNat)
      (h : c.length = n.toNat) (hb : b.length = m.toNat)
      (hx : ∃ y ∈ b, y ≠ 0x30#8 ∧ y ≠ 0x31#8) : BadRecord (n :: (c ++ m :: (b ++ r)))

/-- A pair that SERTAB can write: both lengths are at most 255 (R199). -/
abbrev FitsFormat (e : Symbol × Bits) : Prop := e.1.len ≤ 255 ∧ e.2.length ≤ 255

/-- `WellFormedData(d)` (R103). -/
def wellFormedData : List Byte → Bool
  | []        => false
  | p :: body => decide (p.toNat ≤ 7 ∧ p.toNat ≤ 8 * body.length)

/-- `WellFormedCtab(t)` (R103): whole records, neither length 0, every code byte '0' or '1'. -/
abbrev WellFormedCtab (t : List Byte) : Prop :=
  ∃ records : List (Symbol × Bits),
    t = tableArtifact records ∧ ∀ e ∈ records, FitsFormat e ∧ e.2 ≠ []

/-- The inverse table a reader rebuilds from records: one entry for each code, in order of first
occurrence, with the symbol of the last record that carries the code (R204, R206). -/
def rebuiltTable (records : List (Symbol × Bits)) : List (Bits × Symbol) :=
  (records.map (·.2)).eraseDups.filterMap
    (fun b => (records.reverse.find? (fun e => e.2 == b)).map (fun e => (b, e.1)))

/-! ### Running commands -/

/-- The result codes and the last state of commands run one after another; nothing when one of them
does not answer a next state. -/
def runCommands : List Instr → State → Option (List ResultCode × State)
  | [], s      => some ([], s)
  | i :: is, s =>
    match exec i s with
    | .next t =>
      match runCommands is t with
      | some (codes, u) => some (t.ctl.err :: codes, u)
      | none            => none
    | .fault _   => none
    | .refused _ => none

/-- The commands of the macro ROUNDTRIP (R106, R209). -/
def pipeline : List Instr :=
  [.count, .build, .gencodes, .encode, .serdata, .sertab, .desdata, .destab, .decode, .verify]

/-! ### The invariants -/

/-- The parameter is `INF` or at least 1. -/
def atLeastOne : Bound → Bool
  | .fin n => decide (1 ≤ n)
  | .inf   => true

/-- Every node index fits the ARG field: `2*NSYM_MAX - 1 <= 2^24` (R6). -/
def nodeIndicesFit : Bound → Bool
  | .fin n => decide (2 * n - 1 ≤ 2 ^ 24)
  | .inf   => true

/-- `TEXT_MAX < 2^W_FREQ` (R6, D3), of `W_FREQ` and `TEXT_MAX`. -/
def textCountsFit : Bound → Bound → Bool
  | .inf, _        => true
  | .fin _, .inf   => false
  | .fin w, .fin n => decide (n < 2 ^ w)

/-- The constraints of R6, D2 and D3 on the parameters. -/
def paramsLegal (p : Params) : Bool :=
  atLeastOne p.symlenMax && atLeastOne p.textMax && atLeastOne p.nsymMax &&
  atLeastOne p.bitsMax && atLeastOne p.dataMax && atLeastOne p.ctabMax && atLeastOne p.wFreq &&
  nodeIndicesFit p.nsymMax && textCountsFit p.wFreq p.textMax

/-- Every address space is within its capacity (R61, R62). -/
def Memory.wf (p : Params) (m : Memory) : Bool :=
  p.textMax.admits m.text.length && p.nsymMax.admits m.freq.length &&
  p.nnodeMax.admits m.node.length && p.nnodeMax.admits m.heap.length &&
  p.nsymMax.admits m.code.length && p.nsymMax.admits m.inv.length &&
  p.bitsMax.admits m.bits.length && p.dataMax.admits m.data.length &&
  p.ctabMax.admits m.ctab.length && p.textMax.admits m.out.length

/-- STATUS, ERR and ERRLOG agree (R37 to R39, R43 items 1 and 2): BUSY is 0, ERRF is 1 exactly when
ERR is not 0, the bit of ERR is set in ERRLOG, and bits 0 and 11 to 15 of ERRLOG are 0. -/
abbrev StatusOk (c : Control) : Prop :=
  c.status = (if c.err = .ok then 0#2 else 2#2) ∧
  (c.err ≠ .ok → c.errlog.getLsbD c.err.toNat = true) ∧
  c.errlog &&& 0xF801#16 = 0#16

/-- FREQ, when valid (R23): distinct symbols, every count at least 1 and below `2^W_FREQ`. -/
abbrev FreqOk (s : State) : Prop :=
  s.flag .freq = true →
    (s.mem.freq.map (·.1)).Nodup ∧ ∀ e ∈ s.mem.freq, countOk s.params e.2 = true

/-- INV, when valid (R28): distinct codes, each of 1 to 255 bits. -/
abbrev InvTableOk (s : State) : Prop :=
  s.flag .inv = true →
    (s.mem.inv.map (·.1)).Nodup ∧
    ∀ e ∈ s.mem.inv, 1 ≤ e.1.length ∧ e.1.length ≤ 255

/-- NODE, NNODE and ROOT (R24, R43 item 3): V.TREE is 1 exactly when NNODE is not 0, and then NODE
is a tree whose leaves hold distinct symbols and whose frequencies are below `2^W_FREQ`. -/
abbrev TreeOk (s : State) : Prop :=
  (s.flag .tree = true ↔ s.mem.node ≠ []) ∧
  (s.flag .tree = true → IsTree s.mem.node s.regs.root ∧ (leafSymbols s.mem.node).Nodup ∧
    ∀ n ∈ s.mem.node, s.params.freqFits n.freq = true)

/-- HEAP and HN (R25): every element is an index of NODE, and the array has the heap order. -/
abbrev HeapOk (s : State) : Prop :=
  heapInRange s = true ∧ heapOrdered (freqOf s.mem.node) s.mem.heap = true

/-- Every symbol in a valid buffer has at most `SYMLEN_MAX` bytes (R21). -/
abbrev SymbolsOk (s : State) : Prop :=
  (s.flag .text = true → symbolsFit s.params s.mem.text = true) ∧
  (s.flag .freq = true → symbolsFit s.params (s.mem.freq.map (·.1)) = true) ∧
  (s.flag .tree = true → symbolsFit s.params (leafSymbols s.mem.node) = true) ∧
  (s.flag .code = true → symbolsFit s.params (s.mem.code.map (·.1)) = true) ∧
  (s.flag .inv = true → symbolsFit s.params (s.mem.inv.map (·.2)) = true) ∧
  (s.flag .out = true → symbolsFit s.params s.mem.out = true)

/-- CODE, when valid (R27): at least one pair, distinct symbols, and a prefix code. -/
abbrev CodeOk (s : State) : Prop :=
  s.flag .code = true →
    s.mem.code ≠ [] ∧ (s.mem.code.map (·.1)).Nodup ∧ IsPrefixCode s.mem.code

/-- The invariants of HUFF at every command boundary (R43 and the per-buffer invariants it
names). -/
abbrev MachineInv (s : State) : Prop :=
  paramsLegal s.params = true ∧ s.mem.wf s.params = true ∧ StatusOk s.ctl ∧ FreqOk s ∧
  InvTableOk s ∧ TreeOk s ∧ HeapOk s ∧ CodeOk s

end Sys2Proof.Machine
end

