-- ==== Sys2Proof/Certificates/Slice0/Obligations.lean ====
section
/-! DEFINITION. The statements for the provers. Each is about every state, unless it says otherwise;
OBLIGATIONS.json names the rule of spec/ each one formalises. -/

open Sys2Proof Sys2Proof.Machine

/-! ### Encoding (spec/30_encoding.md) -/

/-- Words written out from R88 and the vectors V15 to V26 decode as the spec says. -/
def Obligations.SampleWordsDecodeAsListed : Prop :=
  decodeWord 0x00000001#32 = .ok (.hinit 0) ∧ decodeWord 0x00000501#32 = .ok (.hinit 5) ∧
  decodeWord 0x00000702#32 = .ok (.hpush 7) ∧ decodeWord 0xFFFFFF02#32 = .ok (.hpush 16777215) ∧
  decodeWord 0x00000003#32 = .ok .hpop ∧ decodeWord 0x00000010#32 = .ok .count ∧
  decodeWord 0x00000011#32 = .ok .build ∧ decodeWord 0x00000020#32 = .ok .gencodes ∧
  decodeWord 0x00000030#32 = .ok .encode ∧ decodeWord 0x00000031#32 = .ok .decode ∧
  decodeWord 0x00000032#32 = .ok .verify ∧ decodeWord 0x00000040#32 = .ok .serdata ∧
  decodeWord 0x00000041#32 = .ok .sertab ∧ decodeWord 0x00000042#32 = .ok .desdata ∧
  decodeWord 0x00000043#32 = .ok .destab ∧
  decodeWord 0x00000110#32 = .error (.nonzeroArg 0x10#8 1) ∧
  decodeWord 0x00000103#32 = .error (.nonzeroArg 0x03#8 1) ∧
  decodeWord 0x00000000#32 = .error (.unassignedOpcode 0x00#8) ∧
  decodeWord 0xFFFFFFFF#32 = .error (.unassignedOpcode 0xFF#8)

/-- R85 to R88: decoding the encoding of a command gives the command, with every value of its
operand. -/
def Obligations.DecodeOfEncodeIsTheCommand : Prop :=
  ∀ i : Instr, i.wellFormed = true → decodeWord (encodeInstr i) = .ok i

/-- R85 to R88: a word that decodes is the encoding of what it decodes to. -/
def Obligations.EncodeOfDecodeIsTheWord : Prop :=
  ∀ (w : Word) (i : Instr), decodeWord w = .ok i → i.wellFormed = true ∧ encodeInstr i = w

/-- R87: every word matches exactly one row of the opcode map and decodes to it, or is illegal. -/
def Obligations.EveryWordIsOneRowOrIllegal : Prop :=
  ∀ w : Word,
    (∃ r ∈ opcodeMap, w &&& r.mask = r.pattern ∧
      (∀ q ∈ opcodeMap, w &&& q.mask = q.pattern → q = r) ∧
      decodeWord w = .ok (r.instr.withArg (argOf w))) ∨
    ((∀ r ∈ opcodeMap, w &&& r.mask ≠ r.pattern) ∧ ∃ e, decodeWord w = .error e)

/-- R89: which words are illegal, that an illegal word ends with code 8 and changes nothing but ERR,
STATUS.ERRF and ERRLOG, and that operands out of range are refused with the same code. -/
def Obligations.IllegalWordsAndOperands : Prop :=
  (∀ w : Word, (∃ e, decodeWord w = .error e) ↔
    opcOf w ∉ [0x01#8, 0x02#8, 0x03#8, 0x10#8, 0x11#8, 0x20#8, 0x30#8, 0x31#8, 0x32#8, 0x40#8,
      0x41#8, 0x42#8, 0x43#8] ∨
    (opcOf w ∈ [0x03#8, 0x10#8, 0x11#8, 0x20#8, 0x30#8, 0x31#8, 0x32#8, 0x40#8, 0x41#8, 0x42#8,
      0x43#8] ∧ argOf w ≠ 0)) ∧
  (∃ e, decodeWord 0x00000000#32 = .error e) ∧ (∃ e, decodeWord 0xFFFFFFFF#32 = .error e) ∧
  (∀ (w : Word) (e : IllegalWord) (s : State), decodeWord w = .error e →
    runWord w s = .next { s with ctl := errControl none .illegalCommand s.ctl }) ∧
  (∀ w : Word, opcOf w = 0x01#8 → decodeWord w = .ok (.hinit (argOf w))) ∧
  (∀ w : Word, opcOf w = 0x02#8 → decodeWord w = .ok (.hpush (argOf w))) ∧
  (∀ (n : Nat) (s : State), s.mem.node.length < n →
    exec (.hinit n) s = .next { s with ctl := errControl none .illegalCommand s.ctl }) ∧
  (∀ (k : Nat) (s : State), s.mem.node.length ≤ k →
    exec (.hpush k) s = .next { s with ctl := errControl none .illegalCommand s.ctl })

/-! ### The step and CMD (spec/10_state.md R36, spec/30_encoding.md R85) -/

/-- With a word in CMD that decodes to `i`, the step is `exec i` on the state with CMD emptied,
whatever BUSY holds. That a word can stand in CMD at the start of a step, and that it is executed
there also while BUSY is 1, is the model's choice (log entry 10); by R36 CMD holds nothing between
commands, and by R85 a command is issued while BUSY is 0. -/
def Obligations.StepExecutesTheWordInCmd : Prop :=
  ∀ (s : State) (w : Word) (i : Instr), s.ctl.cmd = some w → decodeWord w = .ok i →
    step s = exec i { s with ctl := { s.ctl with cmd := none } }

/-- R36: writing a word to CMD issues it, in that same step; CMD holds nothing after any step; CMD
cannot be read. -/
def Obligations.CmdIssuesAndHoldsNothing : Prop :=
  (∀ (s : State) (w : Word) (rest : List HostAction), s.ctl.cmd = none → s.busy = false →
    s.host.pending = .command w :: rest →
    step s = runWord w { s with host := { s.host with pending := rest } }) ∧
  (∀ s t : State, step s = .next t → t.ctl.cmd = none) ∧
  (∀ s : State, hostRead .cmd s = .refused)

/-- R64, R261: with nothing pending HUFF is idle; while BUSY is 1 no action but reset is accepted:
the refusal by name is the model's choice (log entries 1 and 10). -/
def Obligations.HostActsOnlyWhenHuffIsIdle : Prop :=
  (∀ s : State, s.ctl.cmd = none → s.host.pending = [] → step s = .next s) ∧
  (∀ (s : State) (a : HostAction) (rest : List HostAction), s.ctl.cmd = none → s.busy = true →
    s.host.pending = a :: rest → a ≠ .reset → step s = .refused .hostActionWhileBusy)

/-! ### The execution frame (spec/60_exceptions.md R234 to R239) -/

/-- R234: a command needs exactly the flags of the table; if one is 0 it ends with code 9 and
nothing else changes, and it ends with code 9 in no other case. -/
def Obligations.NotReadyExactlyWhenAnInputIsInvalid : Prop :=
  ∀ (i : Instr) (s : State),
    ((neededFlags i).all s.flag = false →
      exec i s = .next { s with ctl := errControl none .notReady s.ctl }) ∧
    (∀ t, exec i s = .next t → t.ctl.err = .notReady → (neededFlags i).all s.flag = false)

/-- R237, R238: every command ends with code 0, its output flag set, or with a non-zero code, its
output flag cleared once its inputs were valid; ERR, STATUS and ERRLOG say which. -/
def Obligations.EndOfCommandSetsTheControlRegisters : Prop :=
  ∀ (i : Instr) (s t : State), exec i s = .next t →
    (t.ctl.err = .ok ∧ t.ctl = okControl (outputFlag i) s.ctl) ∨
    (t.ctl.err ≠ .ok ∧
      t.ctl = errControl (if (neededFlags i).all s.flag then outputFlag i else none) t.ctl.err s.ctl)

/-- The frame of every command, however it ends (R61, R35, R239): the spaces, registers and flags
it is not said to write are as before. -/
def Obligations.CommandsWriteOnlyTheirOutputs : Prop :=
  ∀ (i : Instr) (s t : State), exec i s = .next t →
    (∀ x : Space, x ∉ writtenSpaces i → contentsOf x t = contentsOf x s) ∧
    (i ≠ .build → t.regs.root = s.regs.root) ∧
    (i ≠ .hpop → t.regs.hres = s.regs.hres) ∧
    (i ≠ .serdata → t.regs.pad = s.regs.pad) ∧
    (∀ f : Machine.Flag, outputFlag i ≠ some f → t.flag f = s.flag f) ∧
    t.busy = s.busy ∧ t.ctl.cmd = s.ctl.cmd ∧ t.params = s.params ∧ t.host = s.host

/-- R238, R239: a command that ends with a non-zero code leaves HEAP and HN as they were, but for
BUILD, which leaves NODE and HEAP empty once its input was valid; a command refused for its
inputs changes no buffer and no register at all. -/
def Obligations.FailedCommandIsPrecise : Prop :=
  ∀ (i : Instr) (s t : State), exec i s = .next t → t.ctl.err ≠ .ok →
    ((neededFlags i).all s.flag = false → t.mem = s.mem ∧ t.regs = s.regs) ∧
    ((neededFlags i).all s.flag = true →
      (i = .build → t.mem.node = [] ∧ t.mem.heap = []) ∧
      (i ≠ .build → t.mem.node = s.mem.node ∧ t.mem.heap = s.mem.heap) ∧
      (∀ f : Machine.Flag, outputFlag i = some f → t.flag f = false))

/-- R236: the codes each command and load can end with, in every state that meets the invariants. -/
def Obligations.ResultCodesAreThoseOfTheTable : Prop :=
  (∀ (i : Instr) (s t : State), MachineInv s → exec i s = .next t → t.ctl.err ∈ possibleCodes i) ∧
  (∀ (v : List Sys2Proof.Symbol) (s : State), (loadText v s).ctl.err ∈ [.ok, .capacity]) ∧
  (∀ (v : List (Sys2Proof.Symbol × Nat)) (s : State),
    (loadFreq v s).ctl.err ∈ [.ok, .illegalCommand, .capacity]) ∧
  (∀ (v : List Byte) (s : State), (loadData v s).ctl.err ∈ [.ok, .capacity]) ∧
  (∀ (v : List Byte) (s : State), (loadCtab v s).ctl.err ∈ [.ok, .capacity])

/-! ### Reset (spec/10_state.md R44, spec/70_reset_and_hazards.md R260, R261) -/

/-- R44, R260: what reset leaves, from any state, and in `State.reset`. -/
def Obligations.ResetLeavesTheStatedValues : Prop :=
  (∀ (s : State) (rest : List HostAction), s.ctl.cmd = none → s.host.pending = .reset :: rest →
    ∃ t, step s = .next t ∧ t.ctl.valid = 0#10 ∧ (∀ x : Space, lengthOf x t = 0) ∧
      t.ctl.err = .ok ∧ t.ctl.errlog = 0#16 ∧ t.ctl.status = 0#2 ∧ t.ctl.cmd = none ∧
      (∀ x : Space, x ≠ .heap → hostRead (.contents x) t = .refused) ∧
      hostRead .root t = .refused ∧ hostRead .hres t = .refused ∧ hostRead .pad t = .refused ∧
      t.params = s.params ∧ t.host = { s.host with pending := rest }) ∧
  State.reset.ctl.valid = 0#10 ∧ (∀ x : Space, lengthOf x State.reset = 0) ∧
  State.reset.ctl.err = .ok ∧ State.reset.ctl.errlog = 0#16 ∧ State.reset.ctl.status = 0#2 ∧
  State.reset.ctl.cmd = none

/-- R261: what every command does straight after reset. -/
def Obligations.CommandsStraightAfterReset : Prop :=
  ∀ s : State,
    (∃ k, exec (.hinit 0) (applyReset s) = .next { applyReset s with tick := k }) ∧
    (∀ n, 1 ≤ n → exec (.hinit n) (applyReset s) = .next { applyReset s with
      ctl := errControl none .illegalCommand (applyReset s).ctl }) ∧
    (∀ k, exec (.hpush k) (applyReset s) = .next { applyReset s with
      ctl := errControl none .illegalCommand (applyReset s).ctl }) ∧
    (∃ t, exec .hpop (applyReset s) = .next t ∧ t.ctl.err = .emptyQueue) ∧
    (∀ i ∈ [Instr.count, .build, .gencodes, .encode, .decode, .verify, .serdata, .sertab, .desdata,
      .destab], exec i (applyReset s) = .next { applyReset s with
        ctl := errControl none .notReady (applyReset s).ctl })

/-! ### The priority queue (spec/40_heap.md) -/

/-- R115, R120: HINIT n, n at most NNODE, makes HEAP an arrangement of 0 .. n-1 with the heap order,
under both settings of TIEBREAK, and changes nothing else. -/
def Obligations.HinitBuildsAnOrderedHeap : Prop :=
  ∀ (n : Nat) (s : State), n ≤ s.mem.node.length →
    ∃ h k, exec (.hinit n) s = .next { s with
        mem := { s.mem with heap := h }, ctl := okControl none s.ctl, tick := k } ∧
      h.Perm (List.range n) ∧ heapOrdered (freqOf s.mem.node) h = true

/-- R115, R121: HPUSH k on an ordered heap that is not full adds one occurrence of k, keeps the heap
order and changes nothing else; on a full heap it ends with CapacityError and HEAP unchanged. -/
def Obligations.HpushAddsOneOccurrence : Prop :=
  ∀ (k : Nat) (s : State), k < s.mem.node.length → HeapOk s →
    (s.params.nnodeMax.admits (s.mem.heap.length + 1) = true →
      ∃ h j, exec (.hpush k) s = .next { s with
          mem := { s.mem with heap := h }, ctl := okControl none s.ctl, tick := j } ∧
        h.Perm (k :: s.mem.heap) ∧ heapOrdered (freqOf s.mem.node) h = true) ∧
    (s.params.nnodeMax.admits (s.mem.heap.length + 1) = false →
      exec (.hpush k) s = .next { s with ctl := errControl none .capacity s.ctl })

/-- R115, R122: HPOP on an ordered heap that is not empty moves a member of smallest frequency to
HRES, keeps the heap order and changes nothing else. -/
def Obligations.HpopRemovesAMinimum : Prop :=
  ∀ s : State, s.mem.heap ≠ [] → HeapOk s →
    ∃ v h j, exec .hpop s = .next { s with
        mem := { s.mem with heap := h }, regs := { s.regs with hres := v },
        ctl := okControl (some .hres) s.ctl, tick := j } ∧
      v ∈ s.mem.heap ∧ (∀ x ∈ s.mem.heap, freqOf s.mem.node v ≤ freqOf s.mem.node x) ∧
      s.mem.heap.Perm (v :: h) ∧ heapOrdered (freqOf s.mem.node) h = true

/-- R227: EmptyQueueError is raised by HPOP, exactly when HN is 0, and by no other command. -/
def Obligations.EmptyQueueErrorExactlyOnAnEmptyHeap : Prop :=
  (∀ s : State, s.mem.heap = [] → ∃ t, exec .hpop s = .next t ∧ t.ctl.err = .emptyQueue ∧
    t.mem = s.mem ∧ t.flag .hres = false) ∧
  (∀ (i : Instr) (s t : State), exec i s = .next t → t.ctl.err = .emptyQueue →
    i = .hpop ∧ s.mem.heap = [])

/-- R117, I2: under ANY the arrangement taken always has the heap order and the required members,
and every arrangement that does is taken for some free value; the same for the minimal member. How
the free value is used is the model's choice (log entry 4). -/
def Obligations.AnyTieOrderIsReached : Prop :=
  (∀ (f : Nat → Nat) (wish members : List Nat),
    (anyArrangement f wish members).Perm members ∧
    heapOrdered f (anyArrangement f wish members) = true ∧
    (wish.Perm members → heapOrdered f wish = true → anyArrangement f wish members = wish)) ∧
  (∀ (f : Nat → Nat) (wish : Nat) (h : List Nat), h ≠ [] →
    anyMinimal f wish h ∈ h ∧ (∀ x ∈ h, f (anyMinimal f wish h) ≤ f x) ∧
    (wish ∈ h → (∀ x ∈ h, f wish ≤ f x) → anyMinimal f wish h = wish))

/-- The model's choice (log entry 11): on a HEAP that holds an entry that is no index of NODE, HPUSH
of a node with room in the heap, and HPOP, stop with a fault; R62 makes such an access inexpressible. -/
def Obligations.HeapCommandsStopOnADanglingEntry : Prop :=
  (∀ (k : Nat) (s : State), k < s.mem.node.length →
    s.params.nnodeMax.admits (s.mem.heap.length + 1) = true → heapInRange s = false →
    exec (.hpush k) s = .fault .danglingHeapEntry) ∧
  (∀ s : State, heapInRange s = false → exec .hpop s = .fault .danglingHeapEntry)

/-! ### Frequency count and tree builder (spec/41_tree_builder.md) -/

/-- R135, R136: COUNT makes FREQ the symbols of TEXT in order of first occurrence, each with the
number of its occurrences, and changes nothing else; it ends with CapacityError when TEXT has more
than NSYM_MAX distinct symbols. -/
def Obligations.CountGivesTheFrequencyTable : Prop :=
  ∀ s : State, s.flag .text = true →
    (s.params.nsymMax.admits s.mem.text.eraseDups.length = true →
      exec .count s = .next { s with
        mem := { s.mem with freq := s.mem.text.eraseDups.map (fun c => (c, s.mem.text.count c)) },
        ctl := okControl (some .freq) s.ctl }) ∧
    (s.params.nsymMax.admits s.mem.text.eraseDups.length = false →
      ∃ l k, exec .count s = .next { s with
        mem := { s.mem with freq := l },
        ctl := errControl (some .freq) .capacity s.ctl, tick := k })

/-- R143, R226: BUILD on the empty table ends with EmptyInputError, NNODE and HN 0; no other command
and no other table raises it. -/
def Obligations.EmptyInputErrorExactlyOnAnEmptyTable : Prop :=
  (∀ s : State, s.flag .freq = true → s.mem.freq = [] →
    ∃ r k, exec .build s = .next { s with
      mem := { s.mem with node := [], heap := [] }, regs := { s.regs with root := r },
      ctl := errControl (some .tree) .emptyInput s.ctl, tick := k }) ∧
  (∀ (i : Instr) (s t : State), exec i s = .next t → t.ctl.err = .emptyInput →
    i = .build ∧ s.flag .freq = true ∧ s.mem.freq = [])

/-- R137, R145: BUILD on a table whose total does not fit `W_FREQ` bits ends with CapacityError,
NNODE and HN 0. -/
def Obligations.BuildOverTotal : Prop :=
  ∀ s : State, s.flag .freq = true → s.mem.freq ≠ [] →
    s.params.freqFits (totalCount s.mem.freq) = false →
    ∃ r k, exec .build s = .next { s with
      mem := { s.mem with node := [], heap := [] }, regs := { s.regs with root := r },
      ctl := errControl (some .tree) .capacity s.ctl, tick := k }

/-- R142: BUILD on a table of one symbol makes a single leaf, without a merge. -/
def Obligations.BuildOfOneSymbolIsALeaf : Prop :=
  ∀ (s : State) (c : Sys2Proof.Symbol) (n : Nat), s.flag .freq = true → s.mem.freq = [(c, n)] →
    s.params.freqFits n = true → s.params.nnodeMax.admits 1 = true →
    ∃ k, exec .build s = .next { s with
      mem := { s.mem with node := [.leaf c n], heap := [] }, regs := { s.regs with root := 0 },
      ctl := okControl (some .tree) s.ctl, tick := k }

/-- R24, R137 to R145: BUILD on a table within the capacities completes, for every tie choice: NODE
is a strict binary tree whose first N nodes are the leaves in table order, with 2N - 1 nodes, the
last of them the root, whose frequency is the total; HEAP is empty; nothing else changes. -/
def Obligations.BuildMakesAStrictBinaryTree : Prop :=
  ∀ s : State, s.flag .freq = true → s.mem.freq ≠ [] →
    s.params.freqFits (totalCount s.mem.freq) = true →
    s.params.nsymMax.admits s.mem.freq.length = true →
    ∃ nodes k, exec .build s = .next { s with
        mem := { s.mem with node := nodes, heap := [] },
        regs := { s.regs with root := 2 * s.mem.freq.length - 2 },
        ctl := okControl (some .tree) s.ctl, tick := k } ∧
      IsTree nodes (2 * s.mem.freq.length - 2) ∧
      nodes.length = 2 * s.mem.freq.length - 1 ∧
      nodes.take s.mem.freq.length = leavesOf s.mem.freq ∧
      leafSymbols nodes = s.mem.freq.map (·.1) ∧
      freqOf nodes (2 * s.mem.freq.length - 2) = totalCount s.mem.freq

/-- R139, R140, R145: one round of the merge loop pops two members of smallest frequency, the first
becomes the left child and the second the right child of a new node whose frequency is their exact
sum, and pushes that node. -/
def Obligations.MergeJoinsTheTwoSmallest : Prop :=
  ∀ (p : Params) (w : Forest), 2 ≤ w.heap.length → (∀ k ∈ w.heap, k < w.nodes.length) →
    heapOrdered (freqOf w.nodes) w.heap = true →
    p.nnodeMax.admits (w.nodes.length + 1) = true → p.nnodeMax.admits w.heap.length = true →
    ∃ l r w', mergeOnce p w = .ok w' ∧
      w'.nodes = w.nodes ++ [.internal l r (freqOf w.nodes l + freqOf w.nodes r)] ∧
      l ∈ w.heap ∧ (∀ x ∈ w.heap, freqOf w.nodes l ≤ freqOf w.nodes x) ∧
      r ∈ w.heap.erase l ∧ (∀ x ∈ w.heap.erase l, freqOf w.nodes r ≤ freqOf w.nodes x) ∧
      w'.heap.Perm (w.nodes.length :: (w.heap.erase l).erase r) ∧
      heapOrdered (freqOf w'.nodes) w'.heap = true

/-! ### Code generator (spec/42_code_generator.md) -/

/-- R158: GENCODES gives the symbol of a root leaf the code "0". -/
def Obligations.GencodesOnARootLeaf : Prop :=
  ∀ (s : State) (c : Sys2Proof.Symbol) (f : Nat), s.flag .tree = true →
    nodeAt s.mem.node s.regs.root = some (.leaf c f) → s.params.nsymMax.admits 1 = true →
    exec .gencodes s = .next { s with
      mem := { s.mem with code := [(c, [false])] }, ctl := okControl (some .code) s.ctl }

/-- R155, R156, R160 items 1 to 4: GENCODES on a tree completes; every symbol of a leaf gets exactly
one code, no code is empty and none is a prefix of another, and with two or more leaves the code
of a symbol is the path from the root to its leaf. Nothing else changes. -/
def Obligations.GencodesGivesAPrefixCode : Prop :=
  ∀ s : State, s.flag .tree = true → IsTree s.mem.node s.regs.root →
    s.params.nsymMax.admits (leafSymbols s.mem.node).length = true →
    ∃ table, exec .gencodes s = .next { s with
        mem := { s.mem with code := table }, ctl := okControl (some .code) s.ctl } ∧
      (table.map (·.1)).Perm (leafSymbols s.mem.node) ∧
      IsPrefixCode table ∧
      (2 ≤ (leafSymbols s.mem.node).length →
        ∀ e ∈ table, ∃ f, follow s.mem.node s.regs.root e.2 = some (.leaf e.1 f))

/-- R157: GENCODES emits the codes in increasing lexicographic order. -/
def Obligations.GencodesEmitsInLexicographicOrder : Prop :=
  ∀ s t : State, exec .gencodes s = .next t → t.ctl.err = .ok →
    (t.mem.code.map (·.2)).Pairwise (· < ·)

/-- R160 items 5 and 7: after GENCODES on a tree with N leaves, two or more, no code is longer than
N - 1 and the code set is complete: its Kraft sum is 1. -/
def Obligations.CodeLengthsAndCompleteness : Prop :=
  ∀ s t : State, s.flag .tree = true → IsTree s.mem.node s.regs.root →
    2 ≤ (leafSymbols s.mem.node).length → exec .gencodes s = .next t → t.ctl.err = .ok →
    (∀ e ∈ t.mem.code, e.2.length ≤ (leafSymbols s.mem.node).length - 1) ∧
    kraft (t.mem.code.map (fun e => e.2.length)) = 1

/-- R146 item 3, R160 item 6: for every tie choice, the codes that BUILD and GENCODES make of a
frequency table have the smallest total length of all prefix codes for its symbols, each code
weighted with its symbol's count; that total of a text's own counts is the length of its
bitstream. -/
def Obligations.CodesHaveMinimalTotalLength : Prop :=
  (∀ s : State, s.flag .freq = true → s.mem.freq ≠ [] → (s.mem.freq.map (·.1)).Nodup →
    s.params.freqFits (totalCount s.mem.freq) = true →
    s.params.nsymMax.admits s.mem.freq.length = true →
    ∃ t u, exec .build s = .next t ∧ t.ctl.err = .ok ∧
      exec .gencodes t = .next u ∧ u.ctl.err = .ok ∧
      ∀ other : List (Sys2Proof.Symbol × Bits), IsPrefixCode other →
        (∀ e ∈ s.mem.freq, (codeOf? other e.1).isSome = true) →
        weightedLength s.mem.freq u.mem.code ≤ weightedLength s.mem.freq other) ∧
  (∀ (text : List Sys2Proof.Symbol) (table : List (Sys2Proof.Symbol × Bits)),
    (bitstreamOf table text).length =
      weightedLength (text.eraseDups.map (fun c => (c, text.count c))) table)

/-! ### Codec (spec/43_codec.md) -/

/-- R170: ENCODE concatenates the codes of the symbols of TEXT, in order, and changes nothing
else. -/
def Obligations.EncodeConcatenatesTheCodes : Prop :=
  ∀ s : State, s.flag .text = true → s.flag .code = true →
    (∀ c ∈ s.mem.text, (codeOf? s.mem.code c).isSome = true) →
    s.params.bitsMax.admits (bitstreamOf s.mem.code s.mem.text).length = true →
    exec .encode s = .next { s with
      mem := { s.mem with bits := bitstreamOf s.mem.code s.mem.text },
      ctl := okControl (some .bits) s.ctl }

/-- R170, R241: ENCODE stops at the first symbol that has no code, with UnknownSymbolError, or whose
code no longer fits, with CapacityError. -/
def Obligations.EncodeStopsAtTheFirstBadSymbol : Prop :=
  ∀ (s : State) (pre post : List Sys2Proof.Symbol) (c : Sys2Proof.Symbol), s.flag .text = true → s.flag .code = true →
    s.mem.text = pre ++ c :: post →
    (∀ x ∈ pre, (codeOf? s.mem.code x).isSome = true) →
    s.params.bitsMax.admits (bitstreamOf s.mem.code pre).length = true →
    (codeOf? s.mem.code c = none →
      ∃ l k, exec .encode s = .next { s with
        mem := { s.mem with bits := l },
        ctl := errControl (some .bits) .unknownSymbol s.ctl, tick := k }) ∧
    (∀ code, codeOf? s.mem.code c = some code →
      s.params.bitsMax.admits ((bitstreamOf s.mem.code pre).length + code.length) = false →
      ∃ l k, exec .encode s = .next { s with
        mem := { s.mem with bits := l },
        ctl := errControl (some .bits) .capacity s.ctl, tick := k })

/-- R173: DECODE on a stream that splits into greedy matches gives their symbols, in order, and
changes nothing else. -/
def Obligations.DecodeMatchesGreedily : Prop :=
  ∀ (s : State) (chunks : List Bits), s.flag .bits = true → s.flag .inv = true →
    (∀ b ∈ chunks, IsGreedyMatch s.mem.inv b) → s.mem.bits = chunks.flatten →
    s.params.textMax.admits chunks.length = true →
    exec .decode s = .next { s with
      mem := { s.mem with out := chunks.filterMap (symbolOf? s.mem.inv) },
      ctl := okControl (some .out) s.ctl }

/-- R173, R229, R175: DECODE of greedy matches followed by bits none of whose starts is a code ends
with UndecodableStreamError, and with CapacityError when a match no longer fits OUT. -/
def Obligations.DecodeStopsOnLeftoverBitsOrFullOutput : Prop :=
  ∀ (s : State) (chunks : List Bits) (rest : Bits), s.flag .bits = true → s.flag .inv = true →
    (∀ b ∈ chunks, IsGreedyMatch s.mem.inv b) →
    (s.mem.bits = chunks.flatten ++ rest → rest ≠ [] → HasNoMatch s.mem.inv rest →
      s.params.textMax.admits chunks.length = true →
      ∃ l k, exec .decode s = .next { s with
        mem := { s.mem with out := l },
        ctl := errControl (some .out) .undecodableStream s.ctl, tick := k }) ∧
    (∀ b, IsGreedyMatch s.mem.inv b → s.mem.bits = chunks.flatten ++ b ++ rest →
      s.params.textMax.admits chunks.length = true →
      s.params.textMax.admits (chunks.length + 1) = false →
      ∃ l k, exec .decode s = .next { s with
        mem := { s.mem with out := l },
        ctl := errControl (some .out) .capacity s.ctl, tick := k })

/-- R178: with a prefix code that covers TEXT and its inverse in INV, ENCODE and then DECODE gives
OUT = TEXT. -/
def Obligations.DecodeUndoesEncode : Prop :=
  ∀ s : State, s.flag .text = true → s.flag .code = true → s.flag .inv = true →
    IsPrefixCode s.mem.code → s.mem.inv = inverseTable s.mem.code →
    (∀ c ∈ s.mem.text, (codeOf? s.mem.code c).isSome = true) →
    s.params.bitsMax.admits (bitstreamOf s.mem.code s.mem.text).length = true →
    s.params.textMax.admits s.mem.text.length = true →
    ∃ t u, exec .encode s = .next t ∧ t.ctl.err = .ok ∧
      exec .decode t = .next u ∧ u.ctl.err = .ok ∧ u.mem.out = s.mem.text

/-- R177, R232: VERIFY ends with code 0 when OUT equals TEXT and with RoundTripMismatchError when
they differ, and changes nothing else. -/
def Obligations.VerifyComparesOutWithText : Prop :=
  ∀ s : State, s.flag .text = true → s.flag .out = true →
    (s.mem.out = s.mem.text → exec .verify s = .next { s with ctl := okControl none s.ctl }) ∧
    (s.mem.out ≠ s.mem.text →
      exec .verify s = .next { s with ctl := errControl none .roundTripMismatch s.ctl })

/-! ### Serializer (spec/44_serializer.md) -/

/-- R195, R196: SERDATA writes the padding length and the padded bits packed, and changes nothing
else; the artifact unpacks to the bits followed by PAD zeros. It ends with CapacityError when the
artifact would exceed DATA_MAX. -/
def Obligations.SerdataWritesThePaddedArtifact : Prop :=
  ∀ s : State, s.flag .bits = true →
    (s.params.dataMax.admits (1 + (s.mem.bits.length + (8 - s.mem.bits.length % 8) % 8) / 8)
        = true →
      ∃ (pad : Fin 8) (body : List Byte), exec .serdata s = .next { s with
          mem := { s.mem with data := BitVec.ofNat 8 pad :: body },
          regs := { s.regs with pad := pad },
          ctl := okControl (some .data) s.ctl } ∧
        (pad : Nat) = (8 - s.mem.bits.length % 8) % 8 ∧
        (s.mem.bits.length + pad) % 8 = 0 ∧
        1 + body.length = 1 + (s.mem.bits.length + pad) / 8 ∧
        unpack body = s.mem.bits ++ List.replicate pad false) ∧
    (s.params.dataMax.admits (1 + (s.mem.bits.length + (8 - s.mem.bits.length % 8) % 8) / 8)
        = false →
      ∃ l q k, exec .serdata s = .next { s with
        mem := { s.mem with data := l },
        regs := { s.regs with pad := q },
        ctl := errControl (some .data) .capacity s.ctl, tick := k })

/-- R202: DESDATA unpacks the bytes after the first, strips as many bits as the first says, and
changes nothing else; or ends with CapacityError when the bits exceed BITS_MAX. -/
def Obligations.DesdataUnpacksAndStrips : Prop :=
  ∀ (s : State) (p : Byte) (body : List Byte), s.flag .data = true → s.mem.data = p :: body →
    p.toNat ≤ 7 → p.toNat ≤ 8 * body.length →
    (s.params.bitsMax.admits (8 * body.length - p.toNat) = true →
      exec .desdata s = .next { s with
        mem := { s.mem with bits := (unpack body).take (8 * body.length - p.toNat) },
        ctl := okControl (some .bits) s.ctl }) ∧
    (s.params.bitsMax.admits (8 * body.length - p.toNat) = false →
      ∃ l k, exec .desdata s = .next { s with
        mem := { s.mem with bits := l },
        ctl := errControl (some .bits) .capacity s.ctl, tick := k })

/-- R203: DESDATA calls the artifact corrupt exactly in the three cases. -/
def Obligations.DesdataCorruptCases : Prop :=
  ∀ s : State, s.flag .data = true →
    ((∃ l k, exec .desdata s = .next { s with
        mem := { s.mem with bits := l },
        ctl := errControl (some .bits) .corruptArtifact s.ctl, tick := k }) ↔
      s.mem.data = [] ∨
      ∃ p body, s.mem.data = p :: body ∧ (7 < p.toNat ∨ 8 * body.length < p.toNat))

/-- R208 item 1: DESDATA after SERDATA gives back the bits. -/
def Obligations.DesdataUndoesSerdata : Prop :=
  ∀ s : State, s.flag .bits = true →
    s.params.dataMax.admits (1 + (s.mem.bits.length + (8 - s.mem.bits.length % 8) % 8) / 8) = true →
    s.params.bitsMax.admits s.mem.bits.length = true →
    ∃ t u, exec .serdata s = .next t ∧ t.ctl.err = .ok ∧
      exec .desdata t = .next u ∧ u.ctl.err = .ok ∧ u.mem.bits = s.mem.bits

/-- R198: SERTAB writes the records of CODE in table order, and changes nothing else. -/
def Obligations.SertabWritesTheRecords : Prop :=
  ∀ s : State, s.flag .code = true → (∀ e ∈ s.mem.code, FitsFormat e) →
    s.params.ctabMax.admits (tableArtifact s.mem.code).length = true →
    exec .sertab s = .next { s with
      mem := { s.mem with ctab := tableArtifact s.mem.code }, ctl := okControl (some .ctab) s.ctl }

/-- R198, R199, R241: SERTAB stops at the first pair with a length over 255, with
FormatLimitExceededError, or whose record no longer fits, with CapacityError. -/
def Obligations.SertabStopsAtTheFirstBadPair : Prop :=
  ∀ (s : State) (pre post : List (Sys2Proof.Symbol × Bits)) (e : Sys2Proof.Symbol × Bits), s.flag .code = true →
    s.mem.code = pre ++ e :: post → (∀ x ∈ pre, FitsFormat x) →
    s.params.ctabMax.admits (tableArtifact pre).length = true →
    (¬ FitsFormat e →
      ∃ l k, exec .sertab s = .next { s with
        mem := { s.mem with ctab := l },
        ctl := errControl (some .ctab) .formatLimitExceeded s.ctl, tick := k }) ∧
    (FitsFormat e →
      s.params.ctabMax.admits ((tableArtifact pre).length + (tableRecord e.1 e.2).length) = false →
      ∃ l k, exec .sertab s = .next { s with
        mem := { s.mem with ctab := l },
        ctl := errControl (some .ctab) .capacity s.ctl, tick := k })

/-- R204, R206: DESTAB on an artifact of whole records rebuilds the inverse table, a later record
with a repeated code replacing the symbol, and changes nothing else. -/
def Obligations.DestabRebuildsTheInverseTable : Prop :=
  ∀ (s : State) (records : List (Sys2Proof.Symbol × Bits)), s.flag .ctab = true →
    s.mem.ctab = tableArtifact records → (∀ e ∈ records, FitsFormat e ∧ e.2 ≠ []) →
    symbolsFit s.params (records.map (·.1)) = true →
    s.params.nsymMax.admits (records.map (·.2)).eraseDups.length = true →
    exec .destab s = .next { s with
      mem := { s.mem with inv := rebuiltTable records }, ctl := okControl (some .inv) s.ctl }

/-- R205, R204, R241: DESTAB on whole records that fit, followed by a malformed one, cases a to f,
ends with CorruptArtifactError; followed by one whose symbol is longer than SYMLEN_MAX, or whose
new code makes more than NSYM_MAX entries, it ends with CapacityError. -/
def Obligations.DestabStopsAtTheFirstBadRecord : Prop :=
  ∀ (s : State) (records : List (Sys2Proof.Symbol × Bits)), s.flag .ctab = true →
    (∀ e ∈ records, FitsFormat e ∧ e.2 ≠ []) →
    symbolsFit s.params (records.map (·.1)) = true →
    s.params.nsymMax.admits (records.map (·.2)).eraseDups.length = true →
    (∀ bad : List Byte, s.mem.ctab = tableArtifact records ++ bad → BadRecord bad →
      ∃ l k, exec .destab s = .next { s with
        mem := { s.mem with inv := l },
        ctl := errControl (some .inv) .corruptArtifact s.ctl, tick := k }) ∧
    (∀ (e : Sys2Proof.Symbol × Bits) (rest : List Byte), FitsFormat e → e.2 ≠ [] →
      s.mem.ctab = tableArtifact records ++ tableRecord e.1 e.2 ++ rest →
      s.params.symlenMax.admits e.1.len = false ∨
        (e.2 ∉ records.map (·.2) ∧
          s.params.nsymMax.admits ((records.map (·.2)).eraseDups.length + 1) = false) →
      ∃ l k, exec .destab s = .next { s with
        mem := { s.mem with inv := l },
        ctl := errControl (some .inv) .capacity s.ctl, tick := k })

/-- R208 item 2: DESTAB after SERTAB gives the inverse of CODE, in the same order. -/
def Obligations.DestabUndoesSertab : Prop :=
  ∀ s : State, s.flag .code = true → (∀ e ∈ s.mem.code, FitsFormat e) → IsPrefixCode s.mem.code →
    s.params.ctabMax.admits (tableArtifact s.mem.code).length = true →
    symbolsFit s.params (s.mem.code.map (·.1)) = true →
    s.params.nsymMax.admits s.mem.code.length = true →
    ∃ t u, exec .sertab s = .next t ∧ t.ctl.err = .ok ∧
      exec .destab t = .next u ∧ u.ctl.err = .ok ∧ u.mem.inv = inverseTable s.mem.code

/-! ### The host (spec/20_memory.md R65 to R70, spec/30_encoding.md R106) -/

/-- R66, R65: LDTEXT. -/
def Obligations.LoadOfText : Prop :=
  ∀ (s : State) (v : List Sys2Proof.Symbol),
    (s.params.textMax.admits v.length = true → (∀ c ∈ v, s.params.symlenMax.admits c.len = true) →
      loadText v s = { s with mem := { s.mem with text := v }, ctl := okControl (some .text) s.ctl }) ∧
    ((s.params.textMax.admits v.length = false ∨ ∃ c ∈ v, s.params.symlenMax.admits c.len = false) →
      ∃ l k, loadText v s = { s with
        mem := { s.mem with text := l },
        ctl := errControl (some .text) .capacity s.ctl, tick := k })

/-- R67, R65: LDFREQ; a table that is not legal is found before the capacity. -/
def Obligations.LoadOfFrequencyTable : Prop :=
  ∀ (s : State) (v : List (Sys2Proof.Symbol × Nat)),
    ((∃ e ∈ v, e.2 = 0 ∨ s.params.freqFits e.2 = false) ∨ ¬ (v.map (·.1)).Nodup →
      ∃ l k, loadFreq v s = { s with
        mem := { s.mem with freq := l },
        ctl := errControl (some .freq) .illegalCommand s.ctl, tick := k }) ∧
    ((∀ e ∈ v, e.2 ≠ 0 ∧ s.params.freqFits e.2 = true) → (v.map (·.1)).Nodup →
      (s.params.nsymMax.admits v.length = true →
        (∀ e ∈ v, s.params.symlenMax.admits e.1.len = true) →
        loadFreq v s = { s with
          mem := { s.mem with freq := v }, ctl := okControl (some .freq) s.ctl }) ∧
      ((s.params.nsymMax.admits v.length = false ∨
          ∃ e ∈ v, s.params.symlenMax.admits e.1.len = false) →
        ∃ l k, loadFreq v s = { s with
          mem := { s.mem with freq := l },
          ctl := errControl (some .freq) .capacity s.ctl, tick := k }))

/-- R68, R69, R65: LDDATA, which does not write PAD, and LDCTAB. -/
def Obligations.LoadOfArtifacts : Prop :=
  ∀ (s : State) (v : List Byte),
    (s.params.dataMax.admits v.length = true →
      loadData v s = { s with mem := { s.mem with data := v }, ctl := okControl (some .data) s.ctl }) ∧
    (s.params.dataMax.admits v.length = false →
      ∃ l k, loadData v s = { s with
        mem := { s.mem with data := l },
        ctl := errControl (some .data) .capacity s.ctl, tick := k }) ∧
    (s.params.ctabMax.admits v.length = true →
      loadCtab v s = { s with mem := { s.mem with ctab := v }, ctl := okControl (some .ctab) s.ctl }) ∧
    (s.params.ctabMax.admits v.length = false →
      ∃ l k, loadCtab v s = { s with
        mem := { s.mem with ctab := l },
        ctl := errControl (some .ctab) .capacity s.ctl, tick := k })

/-- R64, R70: the step performs a pending load, and a read changes nothing of HUFF and appends the
answer to what the host has read (the host's lists are the model's own, log entry 10). -/
def Obligations.StepPerformsHostTransactions : Prop :=
  ∀ (s : State) (rest : List HostAction), s.ctl.cmd = none → s.busy = false →
    (∀ v, s.host.pending = .ldtext v :: rest →
      step s = .next (loadText v { s with host := { s.host with pending := rest } })) ∧
    (∀ v, s.host.pending = .ldfreq v :: rest →
      step s = .next (loadFreq v { s with host := { s.host with pending := rest } })) ∧
    (∀ v, s.host.pending = .lddata v :: rest →
      step s = .next (loadData v { s with host := { s.host with pending := rest } })) ∧
    (∀ v, s.host.pending = .ldctab v :: rest →
      step s = .next (loadCtab v { s with host := { s.host with pending := rest } })) ∧
    (∀ x, s.host.pending = .rd x :: rest →
      step s = .next { s with host := ⟨rest, s.host.replies ++ [hostRead x s]⟩ })

/-- R70, R45, and for the length registers log entry 9: a buffer or register with a valid flag is read whole when the flag is 1 and refused
when it is 0; HEAP is read only under REF; V, STATUS, ERR, ERRLOG and the length registers, HN
among them, are always read. -/
def Obligations.HostReadsValidBuffersOnly : Prop :=
  ∀ s : State,
    hostRead (.contents .text) s = (if s.flag .text then .value (.symbols s.mem.text) else .refused) ∧
    hostRead (.contents .freq) s = (if s.flag .freq then .value (.freqTable s.mem.freq) else .refused) ∧
    hostRead (.contents .node) s = (if s.flag .tree then .value (.nodes s.mem.node) else .refused) ∧
    hostRead (.contents .code) s = (if s.flag .code then .value (.codeTable s.mem.code) else .refused) ∧
    hostRead (.contents .inv) s = (if s.flag .inv then .value (.inverseTable s.mem.inv) else .refused) ∧
    hostRead (.contents .bits) s = (if s.flag .bits then .value (.bits s.mem.bits) else .refused) ∧
    hostRead (.contents .data) s = (if s.flag .data then .value (.bytes s.mem.data) else .refused) ∧
    hostRead (.contents .ctab) s = (if s.flag .ctab then .value (.bytes s.mem.ctab) else .refused) ∧
    hostRead (.contents .out) s = (if s.flag .out then .value (.symbols s.mem.out) else .refused) ∧
    hostRead (.contents .heap) s =
      (if s.params.tiebreak = .ref then .value (.indices s.mem.heap) else .refused) ∧
    hostRead .root s = (if s.flag .tree then .value (.number s.regs.root) else .refused) ∧
    hostRead .hres s = (if s.flag .hres then .value (.number s.regs.hres) else .refused) ∧
    hostRead .pad s = (if s.flag .data then .value (.number s.regs.pad) else .refused) ∧
    (∀ x : Space, hostRead (.length x) s = .value (.number (lengthOf x s))) ∧
    lengthOf .heap s = s.mem.heap.length ∧
    hostRead .valid s = .value (.number s.ctl.valid.toNat) ∧
    hostRead .status s = .value (.number s.ctl.status.toNat) ∧
    hostRead .err s = .value (.number s.ctl.err.toNat) ∧
    hostRead .errlog s = .value (.number s.ctl.errlog.toNat)

/-- R105, R106: the macros are the sequences of command words listed; the host issues the first word
of one whatever ERR holds, and each later word only while the last result code is 0. How the host
keeps the rest of a macro is the model's choice (log entry 10). -/
def Obligations.MacrosStopAtTheFirstError : Prop :=
  compressScript = [0x10#32, 0x11#32, 0x20#32, 0x30#32, 0x40#32, 0x41#32] ∧
  deserScript = [0x42#32, 0x43#32] ∧ decompressScript = [0x42#32, 0x43#32, 0x31#32] ∧
  roundtripScript = [0x10#32, 0x11#32, 0x20#32, 0x30#32, 0x40#32, 0x41#32, 0x42#32, 0x43#32,
    0x31#32, 0x32#32] ∧
  ∀ (s : State) (w : Word) (ws : List Word) (rest : List HostAction),
    s.ctl.cmd = none → s.busy = false →
    (s.host.pending = .script (w :: ws) :: rest →
      step s = runWord w { s with host := { s.host with pending := .scriptRest ws :: rest } }) ∧
    (s.host.pending = .scriptRest (w :: ws) :: rest → s.ctl.err = .ok →
      step s = runWord w { s with host := { s.host with pending := .scriptRest ws :: rest } }) ∧
    (s.host.pending = .scriptRest (w :: ws) :: rest → s.ctl.err ≠ .ok →
      step s = .next { s with host := { s.host with pending := rest } })

/-! ### Invariants (spec/10_state.md R43) -/

/-- The state right after reset meets the invariants. -/
def Obligations.ResetMeetsTheInvariants : Prop := MachineInv State.reset ∧ SymbolsOk State.reset

/-- R37 to R39, R43 items 1 and 2: STATUS, ERR and ERRLOG agree after every step. -/
def Obligations.EveryStepKeepsStatusConsistent : Prop :=
  ∀ s t : State, StatusOk s.ctl → step s = .next t → StatusOk t.ctl

/-- R61, R62: every address space stays within its capacity; no step changes the parameters
(log entry 3). -/
def Obligations.EveryStepKeepsMemoryWellFormed : Prop :=
  (∀ s t : State, step s = .next t → t.params = s.params) ∧
  (∀ s t : State, s.mem.wf s.params = true → step s = .next t → t.mem.wf t.params = true)

/-- R21: every symbol in a valid buffer stays within SYMLEN_MAX. -/
def Obligations.EveryStepKeepsSymbolsWithinTheirLength : Prop :=
  ∀ s t : State, SymbolsOk s → step s = .next t → SymbolsOk t

/-- R43 and the per-buffer invariants of R23, R24, R25, R27, R28: every step keeps them all. -/
def Obligations.EveryStepKeepsTheInvariants : Prop :=
  ∀ s t : State, MachineInv s → step s = .next t → MachineInv t

/-- R269: from a state that meets the invariants the step answers a next state: no fault, no
refusal. -/
def Obligations.StepNeverStopsFromAnInvariantState : Prop :=
  ∀ s : State, MachineInv s → ∃ t, step s = .next t

/-! ### The whole pipeline (spec/44_serializer.md R209) -/

/-- R209: for every non-empty TEXT, the ten commands of ROUNDTRIP, none of which meets a capacity or
the format limit, all end with code 0 and OUT = TEXT, for every tie choice. -/
def Obligations.RoundTripGivesBackTheText : Prop :=
  ∀ s : State, MachineInv s → s.flag .text = true → s.mem.text ≠ [] →
    ∃ codes t, runCommands pipeline s = some (codes, t) ∧
      (.capacity ∉ codes → .formatLimitExceeded ∉ codes →
        (∀ c ∈ codes, c = .ok) ∧ t.mem.out = s.mem.text)
end

