-- ==== Sys2Proof/Laws/State.lean ====
section
/-! SUPPORT. One lemma per field for each named update of the state, so that no proof unfolds a
record update, and the laws of the valid flags. -/

namespace Sys2Proof.Machine

/-! ### Ending with a result code -/

section endWith
variable (c : ResultCode) (s : State)
@[simp] theorem State.endWith_mem : (s.endWith c).mem = s.mem := rfl
@[simp] theorem State.endWith_regs : (s.endWith c).regs = s.regs := rfl
@[simp] theorem State.endWith_params : (s.endWith c).params = s.params := rfl
@[simp] theorem State.endWith_tick : (s.endWith c).tick = s.tick := rfl
@[simp] theorem State.endWith_host : (s.endWith c).host = s.host := rfl
@[simp] theorem State.endWith_valid : (s.endWith c).ctl.valid = s.ctl.valid := rfl
@[simp] theorem State.endWith_cmd : (s.endWith c).ctl.cmd = s.ctl.cmd := rfl
@[simp] theorem State.endWith_err : (s.endWith c).ctl.err = c := rfl
@[simp] theorem State.endWith_errlog : (s.endWith c).ctl.errlog = logCode s.ctl.errlog c := rfl
@[simp] theorem State.endWith_status :
    (s.endWith c).ctl.status = statusWithErrf s.ctl.status (decide (c ≠ .ok)) := rfl
@[simp] theorem State.endWith_flag (f : Flag) : (s.endWith c).flag f = s.flag f := rfl
end endWith

/-! ### Setting and clearing a valid flag -/

section setFlag
variable (f : Flag) (s : State)
@[simp] theorem State.setFlag_mem : (s.setFlag f).mem = s.mem := rfl
@[simp] theorem State.setFlag_regs : (s.setFlag f).regs = s.regs := rfl
@[simp] theorem State.setFlag_params : (s.setFlag f).params = s.params := rfl
@[simp] theorem State.setFlag_tick : (s.setFlag f).tick = s.tick := rfl
@[simp] theorem State.setFlag_host : (s.setFlag f).host = s.host := rfl
@[simp] theorem State.setFlag_status : (s.setFlag f).ctl.status = s.ctl.status := rfl
@[simp] theorem State.setFlag_err : (s.setFlag f).ctl.err = s.ctl.err := rfl
@[simp] theorem State.setFlag_errlog : (s.setFlag f).ctl.errlog = s.ctl.errlog := rfl
@[simp] theorem State.setFlag_cmd : (s.setFlag f).ctl.cmd = s.ctl.cmd := rfl
@[simp] theorem State.setFlag_valid :
    (s.setFlag f).ctl.valid = s.ctl.valid ||| (1#10 <<< f.bit) := rfl
@[simp] theorem State.clearFlag_mem : (s.clearFlag f).mem = s.mem := rfl
@[simp] theorem State.clearFlag_regs : (s.clearFlag f).regs = s.regs := rfl
@[simp] theorem State.clearFlag_params : (s.clearFlag f).params = s.params := rfl
@[simp] theorem State.clearFlag_tick : (s.clearFlag f).tick = s.tick := rfl
@[simp] theorem State.clearFlag_host : (s.clearFlag f).host = s.host := rfl
@[simp] theorem State.clearFlag_status : (s.clearFlag f).ctl.status = s.ctl.status := rfl
@[simp] theorem State.clearFlag_err : (s.clearFlag f).ctl.err = s.ctl.err := rfl
@[simp] theorem State.clearFlag_errlog : (s.clearFlag f).ctl.errlog = s.ctl.errlog := rfl
@[simp] theorem State.clearFlag_cmd : (s.clearFlag f).ctl.cmd = s.ctl.cmd := rfl
@[simp] theorem State.clearFlag_valid :
    (s.clearFlag f).ctl.valid = s.ctl.valid &&& ~~~(1#10 <<< f.bit) := rfl
end setFlag

theorem Flag.bit_lt (f : Flag) : f.bit < 10 := by cases f <;> decide

theorem Flag.bit_injective {f g : Flag} (h : f.bit = g.bit) : f = g := by
  cases f <;> cases g <;> simp_all [Flag.bit]

/-- The bit of V at a flag's place is 1 in the mask of that flag alone. -/
theorem Flag.mask_bit (f g : Flag) : (1#10 <<< f.bit).getLsbD g.bit = decide (f = g) := by
  cases f <;> cases g <;> decide

@[simp] theorem State.flag_setFlag (s : State) (f g : Flag) :
    (s.setFlag f).flag g = (s.flag g || decide (f = g)) := by
  simp only [State.flag, State.setFlag_valid, BitVec.getLsbD_or, Flag.mask_bit]

@[simp] theorem State.flag_clearFlag (s : State) (f g : Flag) :
    (s.clearFlag f).flag g = (s.flag g && !decide (f = g)) := by
  simp only [State.flag, State.clearFlag_valid, BitVec.getLsbD_and, BitVec.getLsbD_not,
    Flag.mask_bit, decide_eq_true (Flag.bit_lt g), Bool.true_and]

/-- Clearing a flag and setting it is setting it. -/
theorem valid_clear_set (v : BitVec 10) (f : Flag) :
    v &&& ~~~(1#10 <<< f.bit) ||| (1#10 <<< f.bit) = v ||| (1#10 <<< f.bit) := by
  apply BitVec.eq_of_getLsbD_eq
  intro i hi
  simp only [BitVec.getLsbD_or, BitVec.getLsbD_and, BitVec.getLsbD_not, hi, decide_true,
    Bool.true_and]
  cases v.getLsbD i <;> cases (1#10 <<< f.bit).getLsbD i <;> rfl

/-! ### STATUS and ERRLOG -/

@[simp] theorem statusWithErrf_busy (st : BitVec 2) (b : Bool) :
    (statusWithErrf st b).getLsbD 0 = st.getLsbD 0 := by
  cases b <;> simp [statusWithErrf]

@[simp] theorem statusWithErrf_errf (st : BitVec 2) (b : Bool) :
    (statusWithErrf st b).getLsbD 1 = b := by
  cases b <;> simp [statusWithErrf]

@[simp] theorem State.endWith_busy (c : ResultCode) (s : State) : (s.endWith c).busy = s.busy :=
  statusWithErrf_busy _ _

@[simp] theorem State.endWith_errf (c : ResultCode) (s : State) :
    (s.endWith c).errf = decide (c ≠ .ok) :=
  statusWithErrf_errf _ _

theorem ResultCode.toNat_lt (c : ResultCode) : c.toNat < 11 := by cases c <;> decide

/-- The mask of an ERRLOG bit. -/
theorem logMask_bit {n : Nat} (h : n < 16) (i : Nat) :
    (1#16 <<< n).getLsbD i = decide (i = n) := by
  rw [BitVec.getLsbD_shiftLeft, BitVec.getLsbD_one, Bool.eq_iff_iff]
  simp
  omega

/-- ERRLOG keeps every bit and gains the bit of a non-zero code. -/
theorem logCode_getLsbD (log : BitVec 16) (c : ResultCode) (i : Nat) :
    (logCode log c).getLsbD i = (log.getLsbD i || decide (c ≠ .ok ∧ i = c.toNat)) := by
  unfold logCode
  split
  · next h => simp [h]
  · next h =>
    rw [BitVec.getLsbD_or, logMask_bit (by have := c.toNat_lt; omega)]
    simp [h]

/-! ### The end of an action, by its control registers -/

theorem State.commitOutput_none (s : State) : s.commitOutput none = s := rfl
theorem State.commitOutput_some (s : State) (f : Flag) : s.commitOutput (some f) = s.setFlag f := rfl
theorem State.invalidateOutput_none (s : State) : s.invalidateOutput none = s := rfl
theorem State.invalidateOutput_some (s : State) (f : Flag) :
    s.invalidateOutput (some f) = s.invalidate f := rfl

section outputs
variable (out : Option Flag) (s : State)
@[simp] theorem State.commitOutput_mem : (s.commitOutput out).mem = s.mem := by cases out <;> rfl
@[simp] theorem State.commitOutput_regs : (s.commitOutput out).regs = s.regs := by cases out <;> rfl
@[simp] theorem State.commitOutput_params : (s.commitOutput out).params = s.params := by
  cases out <;> rfl
@[simp] theorem State.commitOutput_tick : (s.commitOutput out).tick = s.tick := by cases out <;> rfl
@[simp] theorem State.commitOutput_host : (s.commitOutput out).host = s.host := by cases out <;> rfl
@[simp] theorem State.commitOutput_status : (s.commitOutput out).ctl.status = s.ctl.status := by
  cases out <;> rfl
@[simp] theorem State.commitOutput_err : (s.commitOutput out).ctl.err = s.ctl.err := by
  cases out <;> rfl
@[simp] theorem State.commitOutput_errlog : (s.commitOutput out).ctl.errlog = s.ctl.errlog := by
  cases out <;> rfl
@[simp] theorem State.commitOutput_cmd : (s.commitOutput out).ctl.cmd = s.ctl.cmd := by
  cases out <;> rfl
@[simp] theorem State.flag_commitOutput (g : Flag) :
    (s.commitOutput out).flag g = (s.flag g || decide (out = some g)) := by
  cases out with
  | none => simp [State.commitOutput]
  | some f => simp [State.commitOutput]
end outputs

section invalidate
variable (f : Flag) (s : State)
@[simp] theorem State.invalidate_ctl : (s.invalidate f).ctl = (s.clearFlag f).ctl := by
  cases f <;> rfl
@[simp] theorem State.invalidate_regs : (s.invalidate f).regs = s.regs := by cases f <;> rfl
@[simp] theorem State.invalidate_params : (s.invalidate f).params = s.params := by cases f <;> rfl
@[simp] theorem State.invalidate_tick : (s.invalidate f).tick = s.tick := by cases f <;> rfl
@[simp] theorem State.invalidate_host : (s.invalidate f).host = s.host := by cases f <;> rfl
@[simp] theorem State.flag_invalidate (g : Flag) :
    (s.invalidate f).flag g = (s.flag g && !decide (f = g)) := by
  rw [← State.flag_clearFlag]; cases f <;> rfl

/-- Only the invalidation of the tree writes a space: it empties NODE and HEAP (R237 step 3). -/
theorem State.invalidate_mem :
    (s.invalidate f).mem = if f = .tree then { s.mem with node := [], heap := [] } else s.mem := by
  cases f <;> rfl
end invalidate

section invalidateOutput
variable (out : Option Flag) (s : State)
@[simp] theorem State.invalidateOutput_regs : (s.invalidateOutput out).regs = s.regs := by
  cases out <;> simp [State.invalidateOutput]
@[simp] theorem State.invalidateOutput_params : (s.invalidateOutput out).params = s.params := by
  cases out <;> simp [State.invalidateOutput]
@[simp] theorem State.invalidateOutput_tick : (s.invalidateOutput out).tick = s.tick := by
  cases out <;> simp [State.invalidateOutput]
@[simp] theorem State.invalidateOutput_host : (s.invalidateOutput out).host = s.host := by
  cases out <;> simp [State.invalidateOutput]
@[simp] theorem State.flag_invalidateOutput (g : Flag) :
    (s.invalidateOutput out).flag g = (s.flag g && !decide (out = some g)) := by
  cases out <;> simp [State.invalidateOutput]
theorem State.invalidateOutput_mem : (s.invalidateOutput out).mem =
    if out = some .tree then { s.mem with node := [], heap := [] } else s.mem := by
  cases out with
  | none => rfl
  | some f => simp [State.invalidateOutput, State.invalidate_mem]
end invalidateOutput

section spoil
variable (f : Flag) (s : State)
@[simp] theorem State.spoil_ctl : (s.spoil f).ctl = s.ctl := by cases f <;> rfl
@[simp] theorem State.spoil_params : (s.spoil f).params = s.params := by cases f <;> rfl
@[simp] theorem State.spoil_host : (s.spoil f).host = s.host := by cases f <;> rfl
@[simp] theorem State.spoil_tick : (s.spoil f).tick = s.tick + 1 := by cases f <;> rfl
@[simp] theorem State.spoil_node : (s.spoil f).mem.node = s.mem.node := by cases f <;> rfl
@[simp] theorem State.spoil_heap : (s.spoil f).mem.heap = s.mem.heap := by cases f <;> rfl
@[simp] theorem State.spoil_pad : (s.spoil f).regs.pad = s.regs.pad := by cases f <;> rfl
@[simp] theorem State.spoilPad_ctl : s.spoilPad.ctl = s.ctl := rfl
@[simp] theorem State.spoilPad_mem : s.spoilPad.mem = s.mem := rfl
@[simp] theorem State.spoilPad_params : s.spoilPad.params = s.params := rfl
@[simp] theorem State.spoilPad_host : s.spoilPad.host = s.host := rfl
@[simp] theorem State.spoilPad_root : s.spoilPad.regs.root = s.regs.root := rfl
@[simp] theorem State.spoilPad_hres : s.spoilPad.regs.hres = s.regs.hres := rfl
end spoil

section spoilOutput
variable (out : Option Flag) (s : State)
@[simp] theorem State.spoilOutput_ctl : (s.spoilOutput out).ctl = s.ctl := by
  cases out with
  | none => rfl
  | some f => cases f <;> simp [State.spoilOutput]
@[simp] theorem State.spoilOutput_params : (s.spoilOutput out).params = s.params := by
  cases out with
  | none => rfl
  | some f => cases f <;> simp [State.spoilOutput]
@[simp] theorem State.spoilOutput_host : (s.spoilOutput out).host = s.host := by
  cases out with
  | none => rfl
  | some f => cases f <;> simp [State.spoilOutput]
@[simp] theorem State.spoilOutput_node : (s.spoilOutput out).mem.node = s.mem.node := by
  cases out with
  | none => rfl
  | some f => cases f <;> simp [State.spoilOutput]
@[simp] theorem State.spoilOutput_heap : (s.spoilOutput out).mem.heap = s.mem.heap := by
  cases out with
  | none => rfl
  | some f => cases f <;> simp [State.spoilOutput]
end spoilOutput

/-- Committing and ending with code 0, after the invalidation, in one equation (R237 step 5). -/
theorem endOk_ctl (out : Option Flag) (s t : State)
    (h : t.ctl = (s.invalidateOutput out).ctl) :
    ((t.commitOutput out).endWith .ok).ctl = okControl out s.ctl := by
  cases out with
  | none =>
    simp only [State.invalidateOutput] at h
    simp [State.commitOutput, State.endWith, okControl, h, statusWithErrf, logCode]
  | some f =>
    simp only [State.invalidateOutput, State.invalidate_ctl] at h
    simp [State.commitOutput, State.endWith, State.setFlag, okControl, h, State.clearFlag,
      valid_clear_set, statusWithErrf, logCode]

/-- Ending with a non-zero code, after the invalidation, in one equation (R238). -/
theorem endErr_ctl (out : Option Flag) (c : ResultCode) (s t : State) (hc : c ≠ .ok)
    (h : t.ctl = (s.invalidateOutput out).ctl) :
    (t.endWith c).ctl = errControl out c s.ctl := by
  cases out with
  | none =>
    simp only [State.invalidateOutput] at h
    simp [State.endWith, errControl, h, statusWithErrf, logCode, hc]
  | some f =>
    simp only [State.invalidateOutput, State.invalidate_ctl] at h
    simp [State.endWith, errControl, h, State.clearFlag, statusWithErrf, logCode, hc]

end Sys2Proof.Machine
end

