-- ==== Sys2Proof/Laws/Ops.lean ====
section
/-! SUPPORT. What each shared operation can do, said once: parameters, MemRead and MemWrite, the
execution frame and the load. -/

namespace Sys2Proof

/-! ### Parameters -/

theorem Bound.admits_mono {b : Bound} {m n : Nat} (h : m ≤ n) (hb : b.admits n = true) :
    b.admits m = true := by
  cases b with
  | fin k => simp only [Bound.admits, decide_eq_true_eq] at *; omega
  | inf => rfl

/-- A sequence cut to a parameter is within it (R6). -/
theorem Bound.admits_clip {α : Type} (b : Bound) (l : List α) :
    b.admits (b.clip l).length = true := by
  cases b with
  | fin k => simp [Bound.admits, Bound.clip]
  | inf => rfl

@[simp] theorem Bound.admits_zero (b : Bound) : b.admits 0 = true := by
  cases b <;> simp [Bound.admits]

theorem Params.freqFits_mono {p : Params} {m n : Nat} (h : m ≤ n) (hp : p.freqFits n = true) :
    p.freqFits m = true := by
  unfold Params.freqFits at *
  split at hp
  · simp only [decide_eq_true_eq] at *; omega
  · rfl

/-- `N` leaves fit `NSYM_MAX` exactly when the `2N - 1` nodes of their tree fit `NNODE_MAX`
(R144). -/
theorem Params.nnodeMax_admits {p : Params} {n : Nat} (hn : 1 ≤ n) (h1 : p.nsymMax ≠ .fin 0) :
    p.nnodeMax.admits (2 * n - 1) = p.nsymMax.admits n := by
  unfold Params.nnodeMax
  cases hp : p.nsymMax with
  | inf => rfl
  | fin m =>
    have : m ≠ 0 := by rintro rfl; exact h1 hp
    simp only [Bound.admits, decide_eq_decide]
    omega

end Sys2Proof

namespace Sys2Proof.Machine

/-! ### MemWrite and MemRead -/

/-- An append that happens puts the elements at the end, within the capacity (R62). -/
theorem memAppend_ok {α : Type} {cap : Bound} {buf xs l : List α}
    (h : memAppend cap buf xs = .ok l) :
    l = buf ++ xs ∧ cap.admits l.length = true := by
  unfold memAppend at h
  split at h
  · next hc => cases h; exact ⟨rfl, by simpa using hc⟩
  · cases h

/-- An append that does not happen ends the command with CapacityError, the capacity being
exceeded (R62, R235). -/
theorem memAppend_error {α : Type} {cap : Bound} {buf xs : List α} {e : Stop}
    (h : memAppend cap buf xs = .error e) :
    e = .raise .capacity ∧ cap.admits (buf.length + xs.length) = false := by
  unfold memAppend at h
  split at h
  · cases h
  · next hc => cases h; exact ⟨rfl, by simpa using hc⟩

theorem memAppend_of_admits {α : Type} {cap : Bound} {buf xs : List α}
    (h : cap.admits (buf.length + xs.length) = true) : memAppend cap buf xs = .ok (buf ++ xs) := by
  simp [memAppend, h]

theorem memAppend_of_not_admits {α : Type} {cap : Bound} {buf xs : List α}
    (h : cap.admits (buf.length + xs.length) = false) :
    memAppend cap buf xs = .error (.raise .capacity) := by
  simp [memAppend, h]

/-- Reading splits a sequence in two (R62). -/
theorem memTake_some {α : Type} {n : Nat} {l a b : List α} (h : memTake n l = some (a, b)) :
    l = a ++ b ∧ a.length = n := by
  unfold memTake at h
  split at h
  · next hn => cases h; simp [hn]
  · cases h

theorem memTake_none {α : Type} {n : Nat} {l : List α} (h : memTake n l = none) : l.length < n := by
  unfold memTake at h
  split at h
  · cases h
  · omega

theorem memTake_append {α : Type} (a b : List α) : memTake a.length (a ++ b) = some (a, b) := by
  simp [memTake]

/-! ### The execution frame (R237, R238) -/

section runFrame
variable {needs : List Flag} {out : Option Flag} {body : State → Except Stop State} {s t : State}

/-- R237 step 2: a command with an input that is not valid. -/
theorem runFrame_notReady (h : needs.all s.flag = false) :
    runFrame needs out body s = .next (s.endWith .notReady) := by
  simp [runFrame, h]

/-- R237 steps 3 to 5: a body that runs to its end. -/
theorem runFrame_ok (h : needs.all s.flag = true) (hb : body (s.invalidateOutput out) = .ok t) :
    runFrame needs out body s = .next ((t.commitOutput out).endWith .ok) := by
  simp [runFrame, h, hb]

/-- R238: a body that raises an error. -/
theorem runFrame_raise {c : ResultCode} (h : needs.all s.flag = true)
    (hb : body (s.invalidateOutput out) = .error (.raise c)) :
    runFrame needs out body s =
      .next (((s.invalidateOutput out).spoilOutput out).endWith c) := by
  simp [runFrame, h, hb]

/-- All that a framed command can do, when it answers a next state. -/
theorem runFrame_next (h : runFrame needs out body s = .next t) :
    (needs.all s.flag = false ∧ t = s.endWith .notReady) ∨
    (needs.all s.flag = true ∧ ∃ u, body (s.invalidateOutput out) = .ok u ∧
      t = (u.commitOutput out).endWith .ok) ∨
    (needs.all s.flag = true ∧ ∃ c, body (s.invalidateOutput out) = .error (.raise c) ∧
      t = ((s.invalidateOutput out).spoilOutput out).endWith c) := by
  unfold runFrame at h
  split at h
  · next hn =>
    split at h
    · next u hb => cases h; exact .inr (.inl ⟨hn, u, hb, rfl⟩)
    · next c hb => cases h; exact .inr (.inr ⟨hn, c, hb, rfl⟩)
    · cases h
  · next hn => cases h; exact .inl ⟨by simpa using hn, rfl⟩

/-- A framed command faults only where its body does. -/
theorem runFrame_fault {f : Fault} (h : runFrame needs out body s = .fault f) :
    needs.all s.flag = true ∧ body (s.invalidateOutput out) = .error (.fault f) := by
  unfold runFrame at h
  split at h
  · next hn =>
    split at h
    · cases h
    · cases h
    · next g hb => cases h; exact ⟨hn, hb⟩
  · cases h

/-- A framed command never refuses. -/
theorem runFrame_not_refused {r : Refusal} : runFrame needs out body s ≠ .refused r := by
  unfold runFrame
  split
  · split <;> simp
  · simp

end runFrame

/-! ### The load (R65) -/

theorem runLoad_ok {f : Flag} {store : State → State} {s : State} :
    runLoad f none store s = ((store (s.invalidate f)).setFlag f).endWith .ok := rfl

theorem runLoad_error {f : Flag} {c : ResultCode} {store : State → State} {s : State} :
    runLoad f (some c) store s = ((s.invalidate f).spoil f).endWith c := rfl

end Sys2Proof.Machine
end

