-- ==== Sys2Proof/Laws/Heap.lean ====
section
/-! SUPPORT. The heap procedures keep the multiset and restore the heap order, under both settings
of TIEBREAK (spec/40_heap.md R115 to R123). -/

namespace Sys2Proof.Machine

variable {f : Nat → Nat}

/-! ### The heap order on positions -/

/-- The heap order, position by position (R116). -/
theorem heapOrdered_iff {h : List Nat} :
    heapOrdered f h = true ↔
      ∀ i, 0 < i → i < h.length → keyAt f h ((i - 1) / 2) ≤ keyAt f h i := by
  simp only [heapOrdered, List.all_eq_true, List.mem_range, Bool.or_eq_true, beq_iff_eq,
    decide_eq_true_eq]
  constructor
  · intro hh i h0 hi
    rcases hh i hi with h | h
    · omega
    · exact h
  · intro hh i hi
    rcases Nat.eq_zero_or_pos i with h | h
    · exact .inl h
    · exact .inr (hh i h hi)

/-- The heap order holds below position `k`: at every position whose parent is at or after `k`. -/
def OrderedFrom (f : Nat → Nat) (h : List Nat) (k : Nat) : Prop :=
  ∀ i, 0 < i → i < h.length → k ≤ (i - 1) / 2 → keyAt f h ((i - 1) / 2) ≤ keyAt f h i

/-- The top of an ordered heap is minimal (R116). -/
theorem top_le {h : List Nat} (ho : heapOrdered f h = true) :
    ∀ i, i < h.length → keyAt f h 0 ≤ keyAt f h i := by
  rw [heapOrdered_iff] at ho
  intro i
  induction i using Nat.strongRecOn with
  | ind i ih =>
    intro hi
    rcases Nat.eq_zero_or_pos i with h0 | h0
    · rw [h0]
    · exact (ih _ (by omega) (by omega)).trans (ho i h0 hi)

theorem keyAt_mem {h : List Nat} {k : Nat} (hk : k ∈ h) : ∃ i, i < h.length ∧ keyAt f h i = f k := by
  obtain ⟨i, hi, rfl⟩ := List.mem_iff_getElem.mp hk
  exact ⟨i, hi, by rw [keyAt, List.getD_eq_getElem _ _ hi]⟩

/-! ### Exchange -/

@[simp] theorem swapAt_length (h : List Nat) (i j : Nat) : (swapAt h i j).length = h.length := by
  simp [swapAt]

theorem swapAt_perm {h : List Nat} {i j : Nat} (hi : i < h.length) (hj : j < h.length) :
    (swapAt h i j).Perm h := by
  rw [swapAt, List.getD_eq_getElem _ _ hi, List.getD_eq_getElem _ _ hj]
  exact List.set_set_perm hi hj

theorem keyAt_swapAt {h : List Nat} {i j : Nat} (hi : i < h.length) (hj : j < h.length) (k : Nat) :
    keyAt f (swapAt h i j) k =
      if k = j then keyAt f h i else if k = i then keyAt f h j else keyAt f h k := by
  simp only [keyAt, swapAt, List.getD_eq_getElem?_getD, List.getElem?_set, List.length_set]
  by_cases hkj : k = j
  · simp [hkj, hj]
  · by_cases hki : k = i
    · subst hki
      simp [hkj, hi, Ne.symm hkj]
    · simp [hkj, hki, Ne.symm hkj, Ne.symm hki]

/-! ### siftdown (R118) -/

/-- The position siftdown moves to: `i` itself when no child is smaller, and otherwise a child of
`i` whose key is smaller than that of `i` and at most that of the other child. -/
theorem smallest_spec (f : Nat → Nat) (h : List Nat) (i : Nat) :
    (smallest f h i = i ∧
      ∀ c, 0 < c → c < h.length → (c - 1) / 2 = i → keyAt f h i ≤ keyAt f h c) ∨
    (i < smallest f h i ∧ smallest f h i < h.length ∧ (smallest f h i - 1) / 2 = i ∧
      keyAt f h (smallest f h i) < keyAt f h i ∧
      ∀ c, 0 < c → c < h.length → (c - 1) / 2 = i →
        keyAt f h (smallest f h i) ≤ keyAt f h c) := by
  have child : ∀ c, 0 < c → (c - 1) / 2 = i → c = 2 * i + 1 ∨ c = 2 * i + 2 := by omega
  simp only [smallest]
  split
  · next hl =>
    split
    · next hr =>
      refine .inr ⟨by omega, hr.1, by omega, by omega, ?_⟩
      intro c h0 hc hp
      rcases child c h0 hp with rfl | rfl <;> omega
    · next hr =>
      refine .inr ⟨by omega, hl.1, by omega, hl.2, ?_⟩
      intro c h0 hc hp
      rcases child c h0 hp with rfl | rfl
      · exact Nat.le_refl _
      · exact Nat.le_of_not_lt (fun hlt => hr ⟨hc, hlt⟩)
  · next hl =>
    split
    · next hr =>
      refine .inr ⟨by omega, hr.1, by omega, hr.2, ?_⟩
      intro c h0 hc hp
      rcases child c h0 hp with rfl | rfl
      · have : ¬ keyAt f h (2 * i + 1) < keyAt f h i := fun hlt => hl ⟨hc, hlt⟩
        omega
      · exact Nat.le_refl _
    · next hr =>
      refine .inl ⟨rfl, ?_⟩
      intro c h0 hc hp
      rcases child c h0 hp with rfl | rfl
      · exact Nat.le_of_not_lt (fun hlt => hl ⟨hc, hlt⟩)
      · exact Nat.le_of_not_lt (fun hlt => hr ⟨hc, hlt⟩)

@[simp] theorem siftdown_length (rounds : Nat) (h : List Nat) (i : Nat) :
    (siftdown f rounds h i).length = h.length := by
  induction rounds generalizing h i with
  | zero => rfl
  | succ n ih =>
    simp only [siftdown]
    split
    · rfl
    · rw [ih, swapAt_length]

theorem siftdown_perm (rounds : Nat) (h : List Nat) (i : Nat) :
    (siftdown f rounds h i).Perm h := by
  induction rounds generalizing h i with
  | zero => exact .refl _
  | succ n ih =>
    simp only [siftdown]
    split
    · exact .refl _
    · next hm =>
      rcases smallest_spec f h i with ⟨he, -⟩ | ⟨hlt, hlen, -⟩
      · exact absurd he hm
      · exact (ih _ _).trans (swapAt_perm (by omega) hlen)

/-- siftdown at `i` restores the order from `k` on, when it is broken at the children of `i` only
and those are not below the parent of `i` (R118). -/
theorem siftdown_ordered (rounds : Nat) {h : List Nat} {i k : Nat} (hr : h.length ≤ i + rounds)
    (hki : k ≤ i)
    (hord : ∀ j, 0 < j → j < h.length → k ≤ (j - 1) / 2 → (j - 1) / 2 ≠ i →
      keyAt f h ((j - 1) / 2) ≤ keyAt f h j)
    (hgrand : ∀ c, 0 < c → c < h.length → (c - 1) / 2 = i → 0 < i → k ≤ (i - 1) / 2 →
      keyAt f h ((i - 1) / 2) ≤ keyAt f h c) :
    OrderedFrom f (siftdown f rounds h i) k := by
  induction rounds generalizing h i with
  | zero =>
    intro j h0 hj hk
    exact hord j h0 hj hk (by simp only [siftdown] at hj; omega)
  | succ n ih =>
    simp only [siftdown]
    split
    · next hm =>
      rcases smallest_spec f h i with ⟨-, hle⟩ | ⟨hlt, -⟩
      · intro j h0 hj hk
        by_cases hp : (j - 1) / 2 = i
        · rw [hp]; exact hle j h0 hj hp
        · exact hord j h0 hj hk hp
      · omega
    · next hm =>
      rcases smallest_spec f h i with ⟨he, -⟩ | ⟨hlt, hlen, hpar, hkey, hleast⟩
      · exact absurd he hm
      · generalize hmdef : smallest f h i = m at *
        have hi : i < h.length := by omega
        apply ih
        · rw [swapAt_length]; omega
        · omega
        · intro j h0 hj hk hp
          rw [swapAt_length] at hj
          rw [keyAt_swapAt hi hlen, keyAt_swapAt hi hlen, if_neg hp]
          by_cases hpi : (j - 1) / 2 = i
          · rw [if_pos hpi]
            by_cases hjm : j = m
            · rw [if_pos hjm]; omega
            · rw [if_neg hjm, if_neg (by omega)]
              exact hleast j h0 hj hpi
          · rw [if_neg hpi]
            by_cases hji : j = i
            · subst hji
              rw [if_neg (by omega), if_pos rfl]
              exact hgrand m (by omega) hlen hpar h0 hk
            · rw [if_neg (by rintro rfl; exact hpi hpar), if_neg hji]
              exact hord j h0 hj hk hpi
        · intro c h0 hc hp _ hk
          rw [swapAt_length] at hc
          rw [keyAt_swapAt hi hlen, keyAt_swapAt hi hlen, hpar, if_neg (by omega), if_pos rfl,
            if_neg (by omega), if_neg (by omega), ← hp]
          exact hord c h0 hc (by omega) (by omega)

/-! ### siftup (R119) -/

@[simp] theorem siftup_length (rounds : Nat) (h : List Nat) (i : Nat) :
    (siftup f rounds h i).length = h.length := by
  induction rounds generalizing h i with
  | zero => rfl
  | succ n ih =>
    simp only [siftup]
    split
    · rfl
    · split
      · rw [ih, swapAt_length]
      · rfl

theorem siftup_perm (rounds : Nat) {h : List Nat} {i : Nat} (hi : i < h.length) :
    (siftup f rounds h i).Perm h := by
  induction rounds generalizing h i with
  | zero => exact .refl _
  | succ n ih =>
    simp only [siftup]
    split
    · exact .refl _
    · split
      · exact (ih (by rw [swapAt_length]; omega)).trans (swapAt_perm hi (by omega))
      · exact .refl _

/-- siftup at `i` restores the order, when it is broken between `i` and its parent only and the
children of `i` are not below that parent (R119). -/
theorem siftup_ordered (rounds : Nat) {h : List Nat} {i : Nat} (hr : i ≤ rounds)
    (hi : i < h.length)
    (hord : ∀ j, 0 < j → j < h.length → j ≠ i → keyAt f h ((j - 1) / 2) ≤ keyAt f h j)
    (hgrand : ∀ c, 0 < c → c < h.length → (c - 1) / 2 = i → 0 < i →
      keyAt f h ((i - 1) / 2) ≤ keyAt f h c) :
    heapOrdered f (siftup f rounds h i) = true := by
  induction rounds generalizing h i with
  | zero =>
    rw [heapOrdered_iff]
    intro j h0 hj
    exact hord j h0 hj (by omega)
  | succ n ih =>
    simp only [siftup]
    split
    · next h0i =>
      rw [heapOrdered_iff]
      intro j h0 hj
      exact hord j h0 hj (by omega)
    · next h0i =>
      split
      · next hlt =>
        have hp : (i - 1) / 2 < h.length := by omega
        apply ih
        · omega
        · rw [swapAt_length]; exact hp
        · intro j h0 hj hne
          rw [swapAt_length] at hj
          rw [keyAt_swapAt hi hp, keyAt_swapAt hi hp, if_neg hne]
          by_cases hji : j = i
          · rw [if_pos hji, hji, if_pos rfl]; omega
          · rw [if_neg hji]
            by_cases hjp : (j - 1) / 2 = (i - 1) / 2
            · rw [if_pos hjp]
              exact hlt.le.trans (hjp ▸ hord j h0 hj hji)
            · rw [if_neg hjp]
              by_cases hpi : (j - 1) / 2 = i
              · rw [if_pos hpi]
                exact hgrand j h0 hj hpi (by omega)
              · rw [if_neg hpi]
                exact hord j h0 hj hji
        · intro c h0 hc hcp hp0
          rw [swapAt_length] at hc
          have hpp : keyAt f h (((i - 1) / 2 - 1) / 2) ≤ keyAt f h ((i - 1) / 2) :=
            hord _ hp0 hp (by omega)
          rw [keyAt_swapAt hi hp, keyAt_swapAt hi hp, if_neg (by omega), if_neg (by omega),
            if_neg (by omega)]
          by_cases hci : c = i
          · rw [if_pos hci]; exact hpp
          · rw [if_neg hci]
            exact hpp.trans (hcp ▸ hord c h0 hc hci)
      · next hge =>
        rw [heapOrdered_iff]
        intro j h0 hj
        by_cases hji : j = i
        · rw [hji]; omega
        · exact hord j h0 hj hji

/-! ### The reference procedures (R120 to R122) -/

theorem heapify_perm (i : Nat) (h : List Nat) : (heapify f i h).Perm h := by
  induction i generalizing h with
  | zero => exact .refl _
  | succ i ih => exact (ih _).trans (siftdown_perm _ _ _)

theorem heapify_ordered (i : Nat) {h : List Nat} (hord : OrderedFrom f h i) :
    heapOrdered f (heapify f i h) = true := by
  induction i generalizing h with
  | zero => rw [heapOrdered_iff]; exact fun j h0 hj => hord j h0 hj (Nat.zero_le _)
  | succ i ih =>
    apply ih
    apply siftdown_ordered _ (by omega) (Nat.le_refl i)
    · intro j h0 hj hk hne
      exact hord j h0 hj (by omega)
    · intro c h0 hc hp h0i hk
      omega

/-- heap_init under REF is an ordered arrangement of 0 .. n-1 (R115, R120). -/
theorem heapInitRef_spec (n : Nat) :
    (heapInitRef f n).Perm (List.range n) ∧ heapOrdered f (heapInitRef f n) = true := by
  refine ⟨heapify_perm _ _, heapify_ordered _ ?_⟩
  intro i h0 hi hk
  simp only [List.length_range] at hi
  omega

/-- heap_push under REF adds one occurrence and keeps the order (R115, R121). -/
theorem heapPushRef_spec {h : List Nat} (k : Nat) (ho : heapOrdered f h = true) :
    (heapPushRef f h k).Perm (h ++ [k]) ∧ heapOrdered f (heapPushRef f h k) = true := by
  have hlen : h.length < (h ++ [k]).length := by simp
  have hkey : ∀ j, j < h.length → keyAt f (h ++ [k]) j = keyAt f h j := by
    intro j hj
    simp only [keyAt, List.getD_eq_getElem?_getD, List.getElem?_append_left hj]
  rw [heapOrdered_iff] at ho
  refine ⟨siftup_perm _ hlen, siftup_ordered _ (Nat.le_refl _) hlen ?_ ?_⟩
  · intro j h0 hj hne
    have hj' : j < h.length := by simp only [List.length_append, List.length_singleton] at hj; omega
    rw [hkey _ hj', hkey _ (by omega)]
    exact ho j h0 hj'
  · intro c h0 hc hp h0i
    simp only [List.length_append, List.length_singleton] at hc
    omega

/-- heap_pop under REF returns the top, removes it and keeps the order (R115, R122). -/
theorem heapPopRef_spec {v : Nat} {t : List Nat} (ho : heapOrdered f (v :: t) = true) :
    (heapPopRef f v t).Perm t ∧ heapOrdered f (heapPopRef f v t) = true := by
  cases t with
  | nil => exact ⟨.refl _, by simp [heapPopRef, heapOrdered]⟩
  | cons a l =>
    have hperm : ((((v :: a :: l).dropLast).set 0 ((v :: a :: l).getLastD 0))).Perm (a :: l) := by
      have h1 : (v :: a :: l).dropLast = v :: (a :: l).dropLast := rfl
      have h2 : (v :: a :: l).getLastD 0 = (a :: l).getLast (by simp) := by
        rw [List.getLastD_eq_getLast?, List.getLast?_cons_cons,
          List.getLast?_eq_getLast_of_ne_nil (by simp), Option.getD_some]
      rw [h1, h2, List.set_cons_zero]
      have := List.dropLast_append_getLast (l := a :: l) (by simp)
      calc ((a :: l).getLast (by simp) :: (a :: l).dropLast).Perm
            ((a :: l).dropLast ++ [(a :: l).getLast (by simp)]) :=
              (List.perm_append_singleton _ _).symm
        _ = a :: l := this
    refine ⟨(siftdown_perm _ _ _).trans hperm, ?_⟩
    generalize hg : ((v :: a :: l).dropLast).set 0 ((v :: a :: l).getLastD 0) = g
    have hglen : g.length = (a :: l).length := by rw [← hg]; simp
    have hkey : ∀ j, 0 < j → j < g.length → keyAt f g j = keyAt f (v :: a :: l) j := by
      intro j h0 hj
      rw [← hg, keyAt, keyAt, List.getD_eq_getElem?_getD, List.getElem?_set_ne (by omega),
        List.getElem?_dropLast, if_pos (by rw [hglen] at hj; simpa using hj),
        List.getD_eq_getElem?_getD]
    rw [heapOrdered_iff] at ho ⊢
    have := siftdown_ordered (f := f) (h := g) (i := 0) (k := 0) (a :: l).length (by omega)
      (Nat.le_refl _)
      (by
        intro j h0 hj _ hp
        rw [hkey j h0 hj, hkey _ (by omega) (by omega)]
        exact ho j h0 (by rw [hglen] at hj; simp at hj ⊢; omega))
      (by intro c _ _ _ h; omega)
    intro i h0 hi
    simp only [heapPopRef, hg] at hi ⊢
    exact this i h0 hi (Nat.zero_le _)

/-! ### Any tie order (R117) -/

theorem insertByFreq_perm (k : Nat) (l : List Nat) : (insertByFreq f k l).Perm (k :: l) := by
  induction l with
  | nil => exact .refl _
  | cons x xs ih =>
    simp only [insertByFreq]
    split
    · exact .refl _
    · exact (List.Perm.cons x ih).trans (.swap k x xs)

theorem sortByFreq_perm (l : List Nat) : (sortByFreq f l).Perm l := by
  induction l with
  | nil => exact .refl _
  | cons x xs ih => exact (insertByFreq_perm x _).trans (ih.cons x)

theorem insertByFreq_sorted (k : Nat) {l : List Nat} (hl : l.Pairwise (fun a b => f a ≤ f b)) :
    (insertByFreq f k l).Pairwise (fun a b => f a ≤ f b) := by
  induction l with
  | nil => simp [insertByFreq]
  | cons x xs ih =>
    rw [List.pairwise_cons] at hl
    simp only [insertByFreq]
    split
    · next hk =>
      refine List.pairwise_cons.mpr ⟨?_, List.pairwise_cons.mpr hl⟩
      intro b hb
      rcases List.mem_cons.mp hb with rfl | hb
      · exact hk
      · exact hk.trans (hl.1 b hb)
    · next hk =>
      refine List.pairwise_cons.mpr ⟨?_, ih hl.2⟩
      intro b hb
      rcases List.mem_cons.mp ((insertByFreq_perm k xs).mem_iff.mp hb) with rfl | hb
      · omega
      · exact hl.1 b hb

theorem sortByFreq_sorted (l : List Nat) :
    (sortByFreq f l).Pairwise (fun a b => f a ≤ f b) := by
  induction l with
  | nil => exact .nil
  | cons x xs ih => exact insertByFreq_sorted x ih

/-- A sequence in order of frequency has the heap order. -/
theorem heapOrdered_of_sorted {h : List Nat} (hs : h.Pairwise (fun a b => f a ≤ f b)) :
    heapOrdered f h = true := by
  rw [heapOrdered_iff]
  intro i h0 hi
  have hp : (i - 1) / 2 < h.length := by omega
  rw [keyAt, keyAt, List.getD_eq_getElem _ _ hi, List.getD_eq_getElem _ _ hp]
  exact List.pairwise_iff_getElem.mp hs _ _ hp hi (by omega)

/-- Whatever the free value, the arrangement taken is one of the members with the heap order
(R117). -/
theorem anyArrangement_spec (wish members : List Nat) :
    (anyArrangement f wish members).Perm members ∧
    heapOrdered f (anyArrangement f wish members) = true := by
  unfold anyArrangement
  split
  · next h =>
    rw [Bool.and_eq_true, List.isPerm_iff] at h
    exact h
  · exact ⟨sortByFreq_perm _, heapOrdered_of_sorted (sortByFreq_sorted _)⟩

theorem isMinimal_iff {h : List Nat} {k : Nat} :
    isMinimal f h k = true ↔ k ∈ h ∧ ∀ x ∈ h, f k ≤ f x := by
  simp [isMinimal]

/-- A non-empty sequence has a member of smallest frequency. -/
theorem exists_minimal {h : List Nat} (hne : h ≠ []) : ∃ k ∈ h, isMinimal f h k = true := by
  have hs := sortByFreq_sorted (f := f) h
  have hp := sortByFreq_perm (f := f) h
  cases hc : sortByFreq f h with
  | nil => exact absurd (List.nil_perm.mp (hc ▸ hp)) hne
  | cons k l =>
    rw [hc] at hs hp
    have hk : k ∈ h := hp.mem_iff.mp (by simp)
    refine ⟨k, hk, isMinimal_iff.mpr ⟨hk, ?_⟩⟩
    intro x hx
    rcases List.mem_cons.mp (hp.mem_iff.mpr hx) with rfl | hx
    · exact Nat.le_refl _
    · exact (List.pairwise_cons.mp hs).1 x hx

/-- Whatever the free value, the member taken has smallest frequency (R117). -/
theorem anyMinimal_spec (wish : Nat) {h : List Nat} (hne : h ≠ []) :
    isMinimal f h (anyMinimal f wish h) = true := by
  unfold anyMinimal
  split
  · next hw => exact hw
  · obtain ⟨k, hk, hm⟩ := exists_minimal (f := f) hne
    cases hf : h.find? (isMinimal f h) with
    | none => exact absurd hm (List.find?_eq_none.mp hf k hk)
    | some m => exact List.find?_some hf

/-! ### The procedures, under both settings of TIEBREAK (R115) -/

/-- heap_init: HEAP is an ordered arrangement of 0 .. n-1. -/
theorem heapInit_spec (p : Params) (n tick : Nat) :
    (heapInit p f n tick).Perm (List.range n) ∧ heapOrdered f (heapInit p f n tick) = true := by
  unfold heapInit
  split
  · exact heapInitRef_spec n
  · exact anyArrangement_spec _ _

/-- heap_push, when it succeeds: the capacity is not exceeded, HEAP has one more occurrence of `k`
and the heap order holds. -/
theorem heapPush_ok {p : Params} {h h' : List Nat} {k tick : Nat}
    (ho : heapOrdered f h = true) (hp : heapPush p f h k tick = .ok h') :
    h'.Perm (h ++ [k]) ∧ heapOrdered f h' = true ∧ p.nnodeMax.admits (h.length + 1) = true := by
  unfold heapPush at hp
  split at hp
  · cases hp
  · next l hl =>
    obtain ⟨rfl, hcap⟩ := memAppend_ok hl
    have hcap' : p.nnodeMax.admits (h.length + 1) = true := by simpa using hcap
    split at hp
    · cases hp
      exact ⟨(heapPushRef_spec k ho).1, (heapPushRef_spec k ho).2, hcap'⟩
    · cases hp
      exact ⟨(anyArrangement_spec _ _).1, (anyArrangement_spec _ _).2, hcap'⟩

/-- heap_push succeeds when the heap is not full. -/
theorem heapPush_succeeds {p : Params} {h : List Nat} {k : Nat} (tick : Nat)
    (hcap : p.nnodeMax.admits (h.length + 1) = true) : ∃ h', heapPush p f h k tick = .ok h' := by
  unfold heapPush
  rw [memAppend_of_admits (by simpa using hcap)]
  cases p.tiebreak <;> exact ⟨_, rfl⟩

/-- heap_push fails with CapacityError and nothing else, when the heap is full (R121). -/
theorem heapPush_error {p : Params} {h : List Nat} {k tick : Nat} {e : Stop}
    (hp : heapPush p f h k tick = .error e) :
    e = .raise .capacity ∧ p.nnodeMax.admits (h.length + 1) = false := by
  unfold heapPush at hp
  split at hp
  · next e' hl =>
    cases hp
    simpa using memAppend_error hl
  · split at hp <;> cases hp

/-- heap_pop, when it succeeds: the element returned is a member of smallest frequency, one
occurrence of it is removed and the heap order holds. -/
theorem heapPop_ok {p : Params} {h h' : List Nat} {v tick : Nat}
    (ho : heapOrdered f h = true) (hp : heapPop p f h tick = .ok (v, h')) :
    isMinimal f h v = true ∧ h.Perm (v :: h') ∧ heapOrdered f h' = true := by
  unfold heapPop at hp
  split at hp
  · cases hp
  · next v' t =>
    split at hp
    · cases hp
      obtain ⟨h1, h2⟩ := heapPopRef_spec ho
      refine ⟨isMinimal_iff.mpr ⟨by simp, ?_⟩, (h1.symm.cons _), h2⟩
      intro x hx
      obtain ⟨i, hi, he⟩ := keyAt_mem (f := f) hx
      have := top_le ho i hi
      rw [he] at this
      exact this
    · cases hp
      obtain ⟨h1, h2⟩ := anyArrangement_spec (f := f) (Config.free tick).arrangement
        ((v' :: t).erase (anyMinimal f (Config.free tick).choice (v' :: t)))
      have hm := anyMinimal_spec (f := f) (Config.free tick).choice
        (h := v' :: t) (by simp)
      refine ⟨hm, ?_, h2⟩
      exact (List.perm_cons_erase (isMinimal_iff.mp hm).1).trans (h1.symm.cons _)

/-- heap_pop succeeds on a heap that is not empty (R122). -/
theorem heapPop_succeeds {p : Params} {h : List Nat} (tick : Nat) (hne : h ≠ []) :
    ∃ v h', heapPop p f h tick = .ok (v, h') := by
  cases h with
  | nil => exact absurd rfl hne
  | cons v t =>
    simp only [heapPop]
    cases p.tiebreak <;> exact ⟨_, _, rfl⟩

/-- heap_pop fails with EmptyQueueError and nothing else, when the heap is empty (R122). -/
theorem heapPop_error {p : Params} {h : List Nat} {tick : Nat} {e : Stop}
    (hp : heapPop p f h tick = .error e) : e = .raise .emptyQueue ∧ h = [] := by
  unfold heapPop at hp
  split at hp
  · cases hp; exact ⟨rfl, rfl⟩
  · split at hp <;> cases hp

/-- The heap order looks only at the frequencies of the elements (R123 item 4). -/
theorem heapOrdered_congr {g : Nat → Nat} {h : List Nat} (hfg : ∀ k ∈ h, f k = g k) :
    heapOrdered f h = heapOrdered g h := by
  have key : ∀ i, i < h.length → keyAt f h i = keyAt g h i := by
    intro i hi
    rw [keyAt, keyAt, List.getD_eq_getElem _ _ hi]
    exact hfg _ (List.getElem_mem hi)
  rw [Bool.eq_iff_iff, heapOrdered_iff, heapOrdered_iff]
  constructor <;> intro hh i h0 hi
  · rw [← key _ hi, ← key _ (by omega)]; exact hh i h0 hi
  · rw [key _ hi, key _ (by omega)]; exact hh i h0 hi

end Sys2Proof.Machine
end

