-- ==== Sys2Proof/Laws/Commands.lean ====
section
/-! SUPPORT. Every command is one execution frame around its body (spec/60_exceptions.md R237), and
what each body can do: which state it may change, and which errors it may raise. -/

namespace Sys2Proof.Machine

/-- The body of a command: its pseudocode, run on the state of R237 step 3. -/
def bodyOf : Instr → State → Except Stop State
  | .hinit n  => hinitBody n
  | .hpush k  => hpushBody k
  | .hpop     => hpopBody
  | .count    => countBody
  | .build    => buildBody
  | .gencodes => gencodesBody
  | .encode   => encodeBody
  | .decode   => decodeBody
  | .verify   => verifyBody
  | .serdata  => serdataBody
  | .sertab   => sertabBody
  | .desdata  => desdataBody
  | .destab   => destabBody

/-- Every command is the frame of R237 with the flags of R234 and the output of R35. -/
theorem exec_eq (i : Instr) (s : State) :
    exec i s = runFrame (neededFlags i) (outputFlag i) (bodyOf i) s := by
  cases i <;> rfl

/-! ### What a body that ends normally leaves -/

section bodies
variable {s t : State}

theorem hinitBody_ok {n : Nat} (h : hinitBody n s = .ok t) :
    n ≤ s.mem.node.length ∧
    t = { s with
      mem := { s.mem with heap := heapInit s.params (freqOf s.mem.node) n s.tick },
      tick := s.tick + 1 } := by
  unfold hinitBody at h
  split at h
  · next hn => cases h; exact ⟨by simpa [hinitOperandOk] using hn, rfl⟩
  · cases h

theorem hpushBody_ok {k : Nat} (h : hpushBody k s = .ok t) :
    k < s.mem.node.length ∧ heapInRange s = true ∧
    ∃ l, heapPush s.params (freqOf s.mem.node) s.mem.heap k s.tick = .ok l ∧
      t = { s with mem := { s.mem with heap := l }, tick := s.tick + 1 } := by
  unfold hpushBody at h
  split at h
  · next hk =>
    split at h
    · cases h
    · next l hl =>
      split at h
      · next hr => cases h; exact ⟨by simpa [hpushOperandOk] using hk, hr, l, hl, rfl⟩
      · cases h
  · cases h

theorem hpopBody_ok (h : hpopBody s = .ok t) :
    heapInRange s = true ∧
    ∃ v l, heapPop s.params (freqOf s.mem.node) s.mem.heap s.tick = .ok (v, l) ∧
      t = { s with
        mem := { s.mem with heap := l }, regs := { s.regs with hres := v },
        tick := s.tick + 1 } := by
  unfold hpopBody at h
  split at h
  · cases h
  · next v l hl =>
    split at h
    · next hr => cases h; exact ⟨hr, v, l, hl, rfl⟩
    · cases h

theorem countBody_ok (h : countBody s = .ok t) :
    ∃ l, countLoop s.params s.mem.text [] = .ok l ∧
      t = { s with mem := { s.mem with freq := l } } := by
  unfold countBody at h
  split at h
  · next l hl => cases h; exact ⟨l, hl, rfl⟩
  · cases h

theorem buildBody_ok (h : buildBody s = .ok t) :
    s.mem.freq ≠ [] ∧ s.params.freqFits (totalCount s.mem.freq) = true ∧
    ∃ leaves w root rest,
      memAppend s.params.nnodeMax s.mem.node (leavesOf s.mem.freq) = .ok leaves ∧
      mergeLoop s.params s.mem.freq.length ⟨leaves,
        heapInit s.params (freqOf leaves) s.mem.freq.length s.tick, s.tick + 1⟩ = .ok w ∧
      heapPop s.params (freqOf w.nodes) w.heap w.tick = .ok (root, rest) ∧
      t = { s with
        mem := { s.mem with node := w.nodes, heap := rest },
        regs := { s.regs with root := root }, tick := w.tick + 1 } := by
  simp only [buildBody] at h
  split at h
  · cases h
  · next hne =>
    split at h
    · next hf =>
      split at h
      · cases h
      · next leaves hl =>
        split at h
        · cases h
        · next w hw =>
          split at h
          · cases h
          · next root rest hr =>
            cases h
            exact ⟨hne, hf, leaves, w, root, rest, hl, hw, hr, rfl⟩
    · cases h

theorem gencodesBody_ok (h : gencodesBody s = .ok t) :
    ∃ l, generate s.params s.mem.node s.regs.root = .ok l ∧
      t = { s with mem := { s.mem with code := l } } := by
  unfold gencodesBody at h
  split at h
  · next l hl => cases h; exact ⟨l, hl, rfl⟩
  · cases h

theorem encodeBody_ok (h : encodeBody s = .ok t) :
    ∃ l, encodeLoop s.params s.mem.code s.mem.text [] = .ok l ∧
      t = { s with mem := { s.mem with bits := l } } := by
  unfold encodeBody at h
  split at h
  · next l hl => cases h; exact ⟨l, hl, rfl⟩
  · cases h

theorem decodeBody_ok (h : decodeBody s = .ok t) :
    ∃ l, decodeLoop s.params s.mem.inv s.mem.bits [] [] = .ok l ∧
      t = { s with mem := { s.mem with out := l } } := by
  unfold decodeBody at h
  split at h
  · next l hl => cases h; exact ⟨l, hl, rfl⟩
  · cases h

theorem verifyBody_ok (h : verifyBody s = .ok t) : s.mem.out = s.mem.text ∧ t = s := by
  unfold verifyBody at h
  split at h
  · cases h
  · split at h
    · next he => cases h; exact ⟨he, rfl⟩
    · cases h

theorem serdataBody_ok (h : serdataBody s = .ok t) :
    s.params.dataMax.admits (1 + (s.mem.bits.length + padOf s.mem.bits.length) / 8) = true ∧
    t = { s with
      regs := { s.regs with pad := padOf s.mem.bits.length },
      mem := { s.mem with data := dataArtifact s.mem.bits } } := by
  simp only [serdataBody] at h
  split at h
  · next hc => cases h; exact ⟨hc, rfl⟩
  · cases h

theorem sertabBody_ok (h : sertabBody s = .ok t) :
    ∃ l, sertabLoop s.params s.mem.code [] = .ok l ∧
      t = { s with mem := { s.mem with ctab := l } } := by
  unfold sertabBody at h
  split at h
  · next l hl => cases h; exact ⟨l, hl, rfl⟩
  · cases h

theorem desdataBody_ok (h : desdataBody s = .ok t) :
    ∃ p body, s.mem.data = p :: body ∧ p.toNat ≤ 7 ∧ p.toNat ≤ (unpack body).length ∧
      s.params.bitsMax.admits ((unpack body).length - p.toNat) = true ∧
      t = { s with
        mem := { s.mem with bits := (unpack body).take ((unpack body).length - p.toNat) } } := by
  unfold desdataBody at h
  split at h
  · cases h
  · next p body hd =>
    simp only at h
    split at h
    · cases h
    · next h7 =>
      split at h
      · cases h
      · next hu =>
        split at h
        · next hc => cases h; exact ⟨p, body, hd, by omega, by omega, hc, rfl⟩
        · cases h

theorem destabBody_ok (h : destabBody s = .ok t) :
    ∃ l, destabLoop s.params s.mem.ctab.length s.mem.ctab [] = .ok l ∧
      t = { s with mem := { s.mem with inv := l } } := by
  unfold destabBody at h
  split at h
  · next l hl => cases h; exact ⟨l, hl, rfl⟩
  · cases h

end bodies

/-! ### The errors the loops can raise -/

theorem countLoop_error {p : Params} {cs : List Symbol} {l : List (Symbol × Nat)} {e : Stop}
    (h : countLoop p cs l = .error e) : e = .raise .capacity := by
  induction cs generalizing l with
  | nil => cases h
  | cons c cs ih =>
    unfold countLoop at h
    split at h
    · exact ih h
    · split at h
      · exact ih h
      · next hm => cases h; exact (memAppend_error hm).1

theorem walk_error {p : Params} {nodes : List Node} {pops : Nat} {st : List (Nat × Bits)}
    {code : List (Symbol × Bits)} {e : Stop} (h : walk p nodes pops st code = .error e) :
    e = .raise .capacity ∨ e = .fault .danglingNodeIndex ∨ e = .fault .unendingWalk := by
  induction pops generalizing st code with
  | zero =>
    cases st with
    | nil => cases h
    | cons a st => cases h; exact .inr (.inr rfl)
  | succ n ih =>
    cases st with
    | nil => cases h
    | cons a st =>
      obtain ⟨k, path⟩ := a
      unfold walk at h
      split at h
      · cases h; exact .inr (.inl rfl)
      · split at h
        · exact ih h
        · next hm => cases h; exact .inl (memAppend_error hm).1
      · exact ih h

theorem generate_error {p : Params} {nodes : List Node} {root : Nat} {e : Stop}
    (h : generate p nodes root = .error e) :
    e = .raise .capacity ∨ e = .fault .danglingNodeIndex ∨ e = .fault .unendingWalk := by
  unfold generate at h
  split at h
  · cases h; exact .inr (.inl rfl)
  · exact .inl (memAppend_error h).1
  · exact walk_error h

theorem encodeLoop_error {p : Params} {table : List (Symbol × Bits)} {cs : List Symbol}
    {l : Bits} {e : Stop} (h : encodeLoop p table cs l = .error e) :
    e = .raise .unknownSymbol ∨ e = .raise .capacity := by
  induction cs generalizing l with
  | nil => cases h
  | cons c cs ih =>
    unfold encodeLoop at h
    split at h
    · cases h; exact .inl rfl
    · split at h
      · exact ih h
      · next hm => cases h; exact .inr (memAppend_error hm).1

theorem decodeLoop_error {p : Params} {table : List (Bits × Symbol)} {bs buf : Bits}
    {l : List Symbol} {e : Stop} (h : decodeLoop p table bs buf l = .error e) :
    e = .raise .undecodableStream ∨ e = .raise .capacity := by
  induction bs generalizing buf l with
  | nil =>
    unfold decodeLoop at h
    split at h <;> cases h
    exact .inl rfl
  | cons b bs ih =>
    unfold decodeLoop at h
    split at h
    · exact ih h
    · split at h
      · exact ih h
      · next hm => cases h; exact .inr (memAppend_error hm).1

theorem sertabLoop_error {p : Params} {es : List (Symbol × Bits)} {l : List Byte} {e : Stop}
    (h : sertabLoop p es l = .error e) :
    e = .raise .formatLimitExceeded ∨ e = .raise .capacity := by
  induction es generalizing l with
  | nil => cases h
  | cons c es ih =>
    obtain ⟨sym, code⟩ := c
    unfold sertabLoop at h
    split at h
    · cases h; exact .inl rfl
    · split at h
      · exact ih h
      · next hm => cases h; exact .inr (memAppend_error hm).1

theorem destabLoop_error {p : Params} {rounds : Nat} {bs : List Byte} {l : List (Bits × Symbol)}
    {e : Stop} (h : destabLoop p rounds bs l = .error e) :
    e = .raise .corruptArtifact ∨ e = .raise .capacity := by
  induction rounds generalizing bs l with
  | zero =>
    cases bs with
    | nil => cases h
    | cons b bs => cases h; exact .inl rfl
  | succ n ih =>
    cases bs with
    | nil => cases h
    | cons b bs =>
      unfold destabLoop at h
      split at h
      · cases h; exact .inl rfl
      · split at h
        · split at h
          · exact ih h
          · split at h
            · exact ih h
            · next hm => cases h; exact .inr (memAppend_error hm).1
        · cases h; exact .inr rfl

end Sys2Proof.Machine
end

