-- ==== Sys2Proof/Laws/Builder.lean ====
section
/-! SUPPORT. What the loops of COUNT and BUILD compute (spec/41_tree_builder.md R135 to R145). -/

namespace Sys2Proof.Machine

/-! ### COUNT -/

/-- The frequency table of a text: its symbols in order of first occurrence, each with the number of
its occurrences (R135, R136). -/
def tableOf (text : List Symbol) : List (Symbol × Nat) :=
  text.eraseDups.map (fun c => (c, text.count c))

theorem bumpCount_map {l : List Symbol} (hl : l.Nodup) (c : Symbol) (g : Symbol → Nat) :
    bumpCount c (l.map (fun x => (x, g x))) =
      if c ∈ l then some (l.map (fun x => (x, if x = c then g x + 1 else g x))) else none := by
  induction l with
  | nil => rfl
  | cons x xs ih =>
    rw [List.nodup_cons] at hl
    simp only [List.map_cons, bumpCount]
    by_cases hx : x = c
    · subst hx
      have : xs.map (fun y => (y, if y = x then g y + 1 else g y)) = xs.map (fun y => (y, g y)) :=
        List.map_congr_left (fun y hy => by rw [if_neg (by rintro rfl; exact hl.1 hy)])
      simp [this]
    · rw [if_neg hx, ih hl.2]
      by_cases hc : c ∈ xs
      · simp [hc, hx]
      · simp [hc, Ne.symm hx]

theorem eraseDups_snoc {α : Type} [BEq α] [LawfulBEq α] [DecidableEq α] (l : List α) (c : α) :
    (l ++ [c]).eraseDups = if c ∈ l then l.eraseDups else l.eraseDups ++ [c] := by
  rw [List.eraseDups_append]
  by_cases h : c ∈ l
  · simp [h, List.removeAll]
  · simp [h, List.removeAll, List.eraseDups_cons]

theorem nodup_eraseDups {α : Type} [BEq α] [LawfulBEq α] [DecidableEq α] (l : List α) :
    l.eraseDups.Nodup := by
  induction l using List.reverseRecOn with
  | nil => simp
  | append_singleton l c ih =>
    rw [eraseDups_snoc]
    split
    · exact ih
    · next h => exact List.nodup_append.mpr ⟨ih, by simp, by
        rintro a ha b hb rfl
        exact h (List.mem_eraseDups.mp (List.mem_singleton.mp hb ▸ ha))⟩

/-- One symbol more: its count is one larger, or it gets a new entry at the end. -/
theorem tableOf_snoc (pre : List Symbol) (c : Symbol) :
    (c ∈ pre ∧ bumpCount c (tableOf pre) = some (tableOf (pre ++ [c]))) ∨
    (c ∉ pre ∧ bumpCount c (tableOf pre) = none ∧
      tableOf (pre ++ [c]) = tableOf pre ++ [(c, 1)]) := by
  have hcount : ∀ x, (pre ++ [c]).count x = if x = c then pre.count x + 1 else pre.count x := by
    intro x
    rw [List.count_append, List.count_singleton]
    by_cases h : x = c
    · simp [h]
    · simp [h, Ne.symm h]
  by_cases h : c ∈ pre
  · refine .inl ⟨h, ?_⟩
    rw [tableOf, bumpCount_map (nodup_eraseDups _), if_pos (List.mem_eraseDups.mpr h), tableOf,
      eraseDups_snoc, if_pos h]
    simp only [hcount]
  · refine .inr ⟨h, ?_, ?_⟩
    · rw [tableOf, bumpCount_map (nodup_eraseDups _), if_neg (by simpa using h)]
    · rw [tableOf, eraseDups_snoc, if_neg h, tableOf, List.map_append]
      congr 1
      · refine List.map_congr_left (fun x hx => ?_)
        rw [hcount, if_neg (by rintro rfl; exact h (List.mem_eraseDups.mp hx))]
      · simp [hcount, List.count_eq_zero.mpr h]

theorem eraseDups_length_le_append {α : Type} [BEq α] [LawfulBEq α] (l m : List α) :
    l.eraseDups.length ≤ (l ++ m).eraseDups.length := by
  rw [List.eraseDups_append, List.length_append]
  omega

/-- COUNT's loop, from the table of the text already read (R135). -/
theorem countLoop_eq {p : Params} (cs pre : List Symbol) :
    countLoop p cs (tableOf pre) =
      if p.nsymMax.admits (pre ++ cs).eraseDups.length ∨ ∀ c ∈ cs, c ∈ pre then
        .ok (tableOf (pre ++ cs))
      else .error (.raise .capacity) := by
  induction cs generalizing pre with
  | nil => simp [countLoop]
  | cons c cs ih =>
    have happ : pre ++ c :: cs = (pre ++ [c]) ++ cs := by simp
    unfold countLoop
    rcases tableOf_snoc pre c with ⟨hc, hb⟩ | ⟨hc, hb, ht⟩
    · simp only [hb]
      rw [ih, happ]
      congr 1
      simp only [List.mem_cons, List.mem_append, List.not_mem_nil, or_false, eq_iff_iff]
      constructor
      · rintro (h | h)
        · exact .inl h
        · exact .inr (by
            rintro x (rfl | hx)
            · exact hc
            · rcases h x hx with h | rfl
              · exact h
              · exact hc)
      · rintro (h | h)
        · exact .inl h
        · exact .inr (fun x hx => .inl (h x (.inr hx)))
    · simp only [hb]
      have hlen : (tableOf pre).length + [(c, 1)].length = (pre ++ [c]).eraseDups.length := by
        rw [eraseDups_snoc, if_neg hc]; simp [tableOf]
      have hno : ¬ ∀ x ∈ c :: cs, x ∈ pre := fun h => hc (h c (by simp))
      cases hcap : p.nsymMax.admits (pre ++ [c]).eraseDups.length with
      | true =>
        rw [memAppend_of_admits (by rw [hlen]; exact hcap), ← ht]
        simp only
        rw [ih, happ]
        congr 1
        simp only [eq_iff_iff]
        constructor
        · rintro (h | h)
          · exact .inl h
          · refine .inl ?_
            have : ((pre ++ [c]) ++ cs).eraseDups = (pre ++ [c]).eraseDups := by
              rw [List.eraseDups_append]
              have : cs.removeAll (pre ++ [c]) = [] := by
                rw [List.removeAll, List.filter_eq_nil_iff]
                intro x hx
                rcases List.mem_append.mp (h x hx) with h | h
                · simp [h]
                · simp [List.mem_singleton.mp h]
              rw [this]; simp
            rw [this]; exact hcap
        · rintro (h | h)
          · exact .inl h
          · exact absurd h hno
      | false =>
        rw [memAppend_of_not_admits (by rw [hlen]; exact hcap)]
        simp only
        rw [if_neg]
        rintro (h | h)
        · have hle : (pre ++ [c]).eraseDups.length ≤ (pre ++ c :: cs).eraseDups.length := by
            rw [happ]; exact eraseDups_length_le_append _ _
          rw [Bound.admits_mono hle h] at hcap
          cases hcap
        · exact hno h

/-- COUNT's loop on a whole text (R135). -/
theorem countLoop_text (p : Params) (text : List Symbol) :
    countLoop p text [] =
      if p.nsymMax.admits text.eraseDups.length then .ok (tableOf text)
      else .error (.raise .capacity) := by
  have h : (List.nil : List (Symbol × Nat)) = tableOf [] := rfl
  rw [h, countLoop_eq]
  congr 1
  simp only [List.nil_append, eq_iff_iff, or_iff_left_iff_imp]
  intro hn
  have : text = [] := List.eq_nil_iff_forall_not_mem.mpr (fun c hc => by cases hn c hc)
  subst this
  simp

/-! ### The arena only grows -/

theorem nodeAt_append {nodes : List Node} {k : Nat} (n : List Node) (hk : k < nodes.length) :
    nodeAt (nodes ++ n) k = nodeAt nodes k :=
  List.getElem?_append_left hk

theorem nodeAt_snoc (nodes : List Node) (n : Node) : nodeAt (nodes ++ [n]) nodes.length = some n := by
  simp [nodeAt]

theorem freqOf_append {nodes : List Node} {k : Nat} (n : List Node) (hk : k < nodes.length) :
    freqOf (nodes ++ n) k = freqOf nodes k := by
  rw [freqOf, freqOf, nodeAt_append n hk]

theorem freqOf_snoc (nodes : List Node) (n : Node) :
    freqOf (nodes ++ [n]) nodes.length = n.freq := by
  rw [freqOf, nodeAt_snoc]

theorem isLeafAt_append {nodes : List Node} {k : Nat} (n : List Node) (hk : k < nodes.length) :
    isLeafAt (nodes ++ n) k = isLeafAt nodes k := by
  rw [isLeafAt, isLeafAt, nodeAt_append n hk]

theorem isMergeAt_append {nodes : List Node} {k : Nat} (n : List Node) (hk : k < nodes.length)
    (h : isMergeAt nodes k = true) : isMergeAt (nodes ++ n) k = true := by
  unfold isMergeAt at h ⊢
  rw [nodeAt_append n hk]
  split at h
  · next l r f _ =>
    simp only [decide_eq_true_eq] at h ⊢
    obtain ⟨hl, hr, hne, hf⟩ := h
    exact ⟨hl, hr, hne, by rw [freqOf_append n (by omega), freqOf_append n (by omega)]; exact hf⟩
  · cases h

theorem freqOf_of_nodeAt {nodes : List Node} {k : Nat} {n : Node} (h : nodeAt nodes k = some n) :
    freqOf nodes k = n.freq := by
  rw [freqOf, h]

/-! ### The merge loop (R139) -/

/-- The sum of the frequencies of node indices. -/
def sumFreq (nodes : List Node) (l : List Nat) : Nat := (l.map (freqOf nodes)).sum

theorem sumFreq_perm {nodes : List Node} {l m : List Nat} (h : l.Perm m) :
    sumFreq nodes l = sumFreq nodes m :=
  (h.map _).sum_eq

theorem sumFreq_append_nodes {nodes : List Node} {l : List Nat} (n : List Node)
    (h : ∀ k ∈ l, k < nodes.length) : sumFreq (nodes ++ n) l = sumFreq nodes l := by
  rw [sumFreq, sumFreq, List.map_congr_left (fun k hk => freqOf_append n (h k hk))]

/-- What holds of arena and heap throughout the merge loop on the table `freq`: the leaves come
first, every later node is a merge of two earlier ones, every node is in the heap or is a child
exactly once, each round has taken one node out of the heap, and the frequencies in the heap sum to
the total (R138, R139, R144, R145). -/
structure Growing (freq : List (Symbol × Nat)) (w : Forest) : Prop where
  leaves  : w.nodes.take freq.length = leavesOf freq
  symbols : leafSymbols w.nodes = freq.map (·.1)
  merges  : ∀ k < w.nodes.length, freq.length ≤ k → isMergeAt w.nodes k = true
  owned   : (w.heap ++ childIndices w.nodes).Perm (List.range w.nodes.length)
  size    : w.nodes.length + w.heap.length = 2 * freq.length
  enough  : freq.length ≤ w.nodes.length
  ordered : heapOrdered (freqOf w.nodes) w.heap = true
  total   : sumFreq w.nodes w.heap = totalCount freq
  bounded : ∀ n ∈ w.nodes, n.freq ≤ totalCount freq
  newest  : freq.length < w.nodes.length → w.nodes.length - 1 ∈ w.heap

theorem Growing.inRange {freq : List (Symbol × Nat)} {w : Forest} (g : Growing freq w) :
    ∀ k ∈ w.heap, k < w.nodes.length := by
  intro k hk
  have := g.owned.mem_iff.mp (List.mem_append_left _ hk)
  simpa using this

/-- One round of the merge loop (R139, R140, R145). -/
theorem mergeOnce_spec {p : Params} {w : Forest} (h2 : 2 ≤ w.heap.length)
    (hr : ∀ k ∈ w.heap, k < w.nodes.length) (ho : heapOrdered (freqOf w.nodes) w.heap = true)
    (hn : p.nnodeMax.admits (w.nodes.length + 1) = true)
    (hh : p.nnodeMax.admits w.heap.length = true) :
    ∃ l r h2 w', mergeOnce p w = .ok w' ∧
      w'.nodes = w.nodes ++ [.internal l r (freqOf w.nodes l + freqOf w.nodes r)] ∧
      isMinimal (freqOf w.nodes) w.heap l = true ∧
      isMinimal (freqOf w.nodes) (w.heap.erase l) r = true ∧
      w.heap.Perm (l :: r :: h2) ∧ h2.Perm ((w.heap.erase l).erase r) ∧
      w'.heap.Perm (w.nodes.length :: h2) ∧
      heapOrdered (freqOf w'.nodes) w'.heap = true := by
  have hne : w.heap ≠ [] := by rintro h; simp [h] at h2
  obtain ⟨l, h1, hl⟩ := heapPop_succeeds (p := p) (f := freqOf w.nodes) w.tick hne
  obtain ⟨hlmin, hlperm, hlord⟩ := heapPop_ok ho hl
  have hne1 : h1 ≠ [] := by rintro rfl; simpa using hlperm.length_eq.symm.trans_ge h2
  obtain ⟨r, h2', hr'⟩ := heapPop_succeeds (p := p) (f := freqOf w.nodes) (w.tick + 1) hne1
  obtain ⟨hrmin, hrperm, hrord⟩ := heapPop_ok hlord hr'
  have hE : h1.Perm (w.heap.erase l) := by
    have := (hlperm.erase l)
    rw [List.erase_cons_head] at this
    exact this.symm
  have hE2 : h2'.Perm ((w.heap.erase l).erase r) := by
    have := (hrperm.erase r)
    rw [List.erase_cons_head] at this
    exact this.symm.trans (hE.erase r)
  set node := Node.internal l r (freqOf w.nodes l + freqOf w.nodes r) with hnode
  have hin2 : ∀ k ∈ h2', k < w.nodes.length := fun k hk =>
    hr k (hlperm.mem_iff.mpr (List.mem_cons_of_mem _ (hrperm.mem_iff.mpr
      (List.mem_cons_of_mem _ hk))))
  have hord2 : heapOrdered (freqOf (w.nodes ++ [node])) h2' = true := by
    rw [heapOrdered_congr (fun k hk => freqOf_append [node] (hin2 k hk))]
    exact hrord
  have hlen : h2'.length + 1 ≤ w.heap.length := by
    have := hlperm.length_eq
    have := hrperm.length_eq
    simp only [List.length_cons] at *
    omega
  obtain ⟨h3, hp⟩ := heapPush_succeeds (p := p) (f := freqOf (w.nodes ++ [node])) (h := h2')
    (k := w.nodes.length) (w.tick + 2) (Bound.admits_mono hlen hh)
  obtain ⟨hpperm, hpord, -⟩ := heapPush_ok hord2 hp
  refine ⟨l, r, h2', ⟨w.nodes ++ [node], h3, w.tick + 3⟩, ?_, rfl, hlmin, ?_,
    hlperm.trans (hrperm.cons l), hE2, hpperm.trans (List.perm_append_singleton _ _), hpord⟩
  · simp only [mergeOnce, hl, hr']
    rw [memAppend_of_admits (by simpa using hn)]
    simp only [← hnode, hp]
  · rw [isMinimal_iff] at hrmin ⊢
    exact ⟨hE.mem_iff.mp hrmin.1, fun x hx => hrmin.2 x (hE.mem_iff.mpr hx)⟩

/-- A round keeps what holds throughout the loop. -/
theorem Growing.mergeOnce {p : Params} {freq : List (Symbol × Nat)} {w : Forest}
    (g : Growing freq w) (h2 : 2 ≤ w.heap.length)
    (hn : p.nnodeMax.admits (2 * freq.length - 1) = true) :
    ∃ w', Sys2Proof.Machine.mergeOnce p w = .ok w' ∧ Growing freq w' ∧
      w'.heap.length + 1 = w.heap.length := by
  have hsize := g.size
  have henough := g.enough
  obtain ⟨l, r, rest, w', hm, hnodes, hlmin, hrmin, hperm, -, hheap, hord⟩ :=
    mergeOnce_spec h2 g.inRange g.ordered (Bound.admits_mono (by omega) hn)
      (Bound.admits_mono (by omega) hn)
  have hlen : w'.heap.length + 1 = w.heap.length := by
    rw [hheap.length_eq, hperm.length_eq]; simp
  have hnl : w'.nodes.length = w.nodes.length + 1 := by rw [hnodes]; simp
  have hl : l < w.nodes.length := g.inRange l (isMinimal_iff.mp hlmin).1
  have hr : r < w.nodes.length :=
    g.inRange r (List.mem_of_mem_erase (isMinimal_iff.mp hrmin).1)
  have hlr : l ≠ r := by
    have hnd : (w.heap ++ childIndices w.nodes).Nodup := g.owned.nodup_iff.mpr List.nodup_range
    have hnd' : (l :: r :: rest).Nodup := hperm.nodup_iff.mp (List.nodup_append.mp hnd).1
    rintro rfl
    simp at hnd'
  have hsum : freqOf w.nodes l + freqOf w.nodes r + sumFreq w.nodes rest = totalCount freq := by
    rw [← g.total, sumFreq_perm hperm]
    simp [sumFreq, Nat.add_assoc]
  have hrest : ∀ k ∈ rest, k < w.nodes.length := fun k hk =>
    g.inRange k (hperm.mem_iff.mpr (by simp [hk]))
  refine ⟨w', hm, ?_, hlen⟩
  constructor
  · rw [hnodes, List.take_append_of_le_length henough]; exact g.leaves
  · rw [← g.symbols, hnodes, leafSymbols, List.filterMap_append]
    simp [Node.sym?, leafSymbols]
  · intro k hk hfk
    rw [hnl] at hk
    rw [hnodes]
    by_cases hk' : k < w.nodes.length
    · exact isMergeAt_append _ hk' (g.merges k hk' hfk)
    · have : k = w.nodes.length := by omega
      subst this
      simp only [isMergeAt, nodeAt_snoc, decide_eq_true_eq]
      exact ⟨hl, hr, hlr, by rw [freqOf_append _ hl, freqOf_append _ hr]⟩
  · have hc : childIndices w'.nodes = childIndices w.nodes ++ [l, r] := by
      rw [hnodes, childIndices, List.flatMap_append]; rfl
    rw [hc, hnl, List.range_succ]
    calc (w'.heap ++ (childIndices w.nodes ++ [l, r])).Perm
          ((w.nodes.length :: rest) ++ (childIndices w.nodes ++ [l, r])) := hheap.append_right _
      _ = w.nodes.length :: (rest ++ (childIndices w.nodes ++ [l, r])) := rfl
      _ |>.Perm (w.nodes.length :: ((l :: r :: rest) ++ childIndices w.nodes)) := by
          refine List.Perm.cons _ ?_
          rw [← List.append_assoc]
          refine List.perm_append_comm.trans ?_
          rfl
      _ |>.Perm (w.nodes.length :: (w.heap ++ childIndices w.nodes)) :=
          (hperm.symm.append_right _).cons _
      _ |>.Perm (w.nodes.length :: List.range w.nodes.length) := g.owned.cons _
      _ |>.Perm (List.range w.nodes.length ++ [w.nodes.length]) :=
          (List.perm_append_singleton _ _).symm
  · omega
  · omega
  · exact hord
  · rw [sumFreq_perm hheap, ← hsum]
    simp only [sumFreq, List.map_cons, List.sum_cons]
    rw [hnodes, freqOf_snoc]
    simp only [Node.freq]
    have := sumFreq_append_nodes [.internal l r (freqOf w.nodes l + freqOf w.nodes r)] hrest
    simp only [sumFreq] at this
    rw [this]
  · intro n hn'
    rw [hnodes, List.mem_append, List.mem_singleton] at hn'
    rcases hn' with hn' | rfl
    · exact g.bounded n hn'
    · simp only [Node.freq]; omega
  · intro _
    rw [hnl, Nat.add_sub_cancel]
    exact hheap.mem_iff.mpr (by simp)

/-- The loop ends with one node in the heap (R139). -/
theorem Growing.mergeLoop {p : Params} {freq : List (Symbol × Nat)} (rounds : Nat) {w : Forest}
    (g : Growing freq w) (h1 : 1 ≤ w.heap.length) (hr : w.heap.length ≤ rounds + 1)
    (hn : p.nnodeMax.admits (2 * freq.length - 1) = true) :
    ∃ w', Sys2Proof.Machine.mergeLoop p rounds w = .ok w' ∧ Growing freq w' ∧
      w'.heap.length = 1 := by
  induction rounds generalizing w with
  | zero => exact ⟨w, rfl, g, by omega⟩
  | succ n ih =>
    unfold Sys2Proof.Machine.mergeLoop
    split
    · exact ⟨w, rfl, g, by omega⟩
    · obtain ⟨w1, hm, g1, hl⟩ := g.mergeOnce (by omega) hn
      simp only [hm]
      exact ih g1 (by omega) (by omega)

/-! ### The leaves (R138) -/

theorem leavesOf_length (freq : List (Symbol × Nat)) : (leavesOf freq).length = freq.length := by
  simp [leavesOf]

theorem nodeAt_leavesOf {freq : List (Symbol × Nat)} {k : Nat} (hk : k < freq.length) :
    nodeAt (leavesOf freq) k = some (.leaf freq[k].1 freq[k].2) := by
  simp [nodeAt, leavesOf, List.getElem?_map, List.getElem?_eq_getElem hk]

theorem childIndices_leavesOf (freq : List (Symbol × Nat)) : childIndices (leavesOf freq) = [] := by
  induction freq with
  | nil => rfl
  | cons e es ih => exact ih

theorem leafSymbols_leavesOf (freq : List (Symbol × Nat)) :
    leafSymbols (leavesOf freq) = freq.map (·.1) := by
  induction freq with
  | nil => rfl
  | cons e es ih => exact congrArg (e.1 :: ·) ih

theorem sumFreq_leavesOf (freq : List (Symbol × Nat)) :
    sumFreq (leavesOf freq) (List.range freq.length) = totalCount freq := by
  rw [sumFreq, totalCount]
  congr 1
  apply List.ext_getElem (by simp)
  intro i h1 h2
  simp only [List.length_map, List.length_range] at h1
  simp [freqOf, nodeAt_leavesOf h1, Node.freq]

/-- The leaves and the heap built from them start the loop (R138). -/
theorem Growing.start {p : Params} (freq : List (Symbol × Nat)) (tick tick' : Nat) :
    Growing freq ⟨leavesOf freq, heapInit p (freqOf (leavesOf freq)) freq.length tick, tick'⟩ := by
  obtain ⟨hp, ho⟩ := heapInit_spec (f := freqOf (leavesOf freq)) p freq.length tick
  constructor
  · simp [← leavesOf_length freq]
  · exact leafSymbols_leavesOf freq
  · intro k hk hf
    simp only [leavesOf_length] at hk
    omega
  · simp only [childIndices_leavesOf, List.append_nil, leavesOf_length]
    exact hp
  · simp only [leavesOf_length, hp.length_eq, List.length_range]; omega
  · simp [leavesOf_length]
  · exact ho
  · rw [sumFreq_perm hp]; exact sumFreq_leavesOf freq
  · intro n hn
    simp only [leavesOf, List.mem_map] at hn
    obtain ⟨e, he, rfl⟩ := hn
    exact List.single_le_sum (by simp) _ (List.mem_map_of_mem he)
  · intro h
    simp [leavesOf_length] at h

/-- Two trees in one: a grown arena with one node left in the heap is a tree with that node as its
root, the last (R24, R141, R144). -/
theorem Growing.isTree {freq : List (Symbol × Nat)} {w : Forest} (g : Growing freq w)
    (h1 : w.heap.length = 1) (hne : freq ≠ []) :
    w.heap = [2 * freq.length - 2] ∧ IsTree w.nodes (2 * freq.length - 2) := by
  have hf : 1 ≤ freq.length := List.length_pos_iff.mpr hne
  have hsize := g.size
  obtain ⟨root, hroot⟩ := List.length_eq_one_iff.mp h1
  have hrootlt : root < w.nodes.length := g.inRange root (by simp [hroot])
  have hrooteq : root = 2 * freq.length - 2 := by
    by_cases hgrown : freq.length < w.nodes.length
    · have := g.newest hgrown
      rw [hroot, List.mem_singleton] at this
      omega
    · omega
  refine ⟨by rw [hroot, hrooteq], ?_⟩
  have hsym : (leafSymbols w.nodes).length = freq.length := by rw [g.symbols]; simp
  refine ⟨by omega, by omega, by omega, ?_, ?_⟩
  · intro k hk
    rw [hsym]
    split
    · next hkf =>
      have : nodeAt w.nodes k = nodeAt (leavesOf freq) k := by
        rw [← g.leaves, nodeAt, nodeAt, List.getElem?_take, if_pos hkf]
      rw [isLeafAt, this, nodeAt_leavesOf hkf]
    · next hkf => exact g.merges k hk (by omega)
  · intro k hk
    have hc := (List.perm_iff_count.mp g.owned) k
    rw [List.count_append, hroot, hrooteq, List.count_singleton,
      List.count_eq_one_of_mem List.nodup_range (List.mem_range.mpr hk)] at hc
    split
    · next hkr => subst hkr; simp at hc; exact hc
    · next hkr =>
      have : ((2 * freq.length - 2 == k) : Bool) = false := by simpa using Ne.symm hkr
      rw [this] at hc
      simpa using hc

/-- BUILD's body on a table within the capacities (R137). -/
theorem buildBody_spec {s : State} (hnode : s.mem.node = []) (hne : s.mem.freq ≠ [])
    (hfit : s.params.freqFits (totalCount s.mem.freq) = true)
    (hcap : s.params.nnodeMax.admits (2 * s.mem.freq.length - 1) = true) :
    ∃ w, Growing s.mem.freq w ∧ w.heap = [2 * s.mem.freq.length - 2] ∧
      IsTree w.nodes (2 * s.mem.freq.length - 2) ∧
      ∃ k, buildBody s = .ok { s with
        mem := { s.mem with node := w.nodes, heap := [] },
        regs := { s.regs with root := 2 * s.mem.freq.length - 2 }, tick := k } := by
  have hf : 1 ≤ s.mem.freq.length := List.length_pos_iff.mpr hne
  have hstart := Growing.start (p := s.params) s.mem.freq s.tick (s.tick + 1)
  have hlen : (heapInit s.params (freqOf (leavesOf s.mem.freq)) s.mem.freq.length s.tick).length
      = s.mem.freq.length := by
    rw [(heapInit_spec s.params _ _).1.length_eq, List.length_range]
  obtain ⟨w, hw, g, h1⟩ := hstart.mergeLoop (p := s.params) s.mem.freq.length
    (by simp only [hlen]; exact hf) (by simp only [hlen]; omega) hcap
  obtain ⟨hheap, htree⟩ := g.isTree h1 hne
  refine ⟨w, g, hheap, htree, w.tick + 1, ?_⟩
  have hleaves : memAppend s.params.nnodeMax s.mem.node (leavesOf s.mem.freq)
      = .ok (leavesOf s.mem.freq) := by
    rw [hnode, memAppend_of_admits]
    · rfl
    · rw [leavesOf_length]; exact Bound.admits_mono (by simp; omega) hcap
  obtain ⟨v, l, hv⟩ := heapPop_succeeds (p := s.params) (f := freqOf w.nodes) w.tick
    (h := w.heap) (by simp [hheap])
  obtain ⟨-, hvp, -⟩ := heapPop_ok g.ordered hv
  rw [hheap] at hvp
  have hvl : v = 2 * s.mem.freq.length - 2 ∧ l = [] := by
    have := List.perm_singleton.mp hvp.symm
    simpa using this
  obtain ⟨rfl, rfl⟩ := hvl
  simp only [buildBody, if_neg hne, hfit, hleaves, hw, hv, if_true]

end Sys2Proof.Machine
end

