-- ==== Sys2Proof/Laws/Generator.lean ====
section
/-! SUPPORT. What GENCODES computes (spec/42_code_generator.md R155 to R160): the order of the codes
of any run, and that the walk of a tree visits every node once and ends. -/

namespace Sys2Proof.Machine

/-! ### Paths: left of, and prefix -/

/-- Path `a` leaves path `b` to the left: where they part, `a` goes on with 0 and `b` with 1. -/
def LeftOf (a b : Bits) : Prop := ∃ p x y, a = p ++ false :: x ∧ b = p ++ true :: y

theorem LeftOf.append_right {a b : Bits} (h : LeftOf a b) (c : Bits) : LeftOf a (b ++ c) := by
  obtain ⟨p, x, y, rfl, rfl⟩ := h
  exact ⟨p, x, y ++ c, rfl, by simp⟩

theorem LeftOf.append_left {a b : Bits} (h : LeftOf a b) (c : Bits) : LeftOf (a ++ c) b := by
  obtain ⟨p, x, y, rfl, rfl⟩ := h
  exact ⟨p, x ++ c, y, by simp, rfl⟩

/-- Left comes first in the lexicographic order, 0 before 1 (R157). -/
theorem LeftOf.lt {a b : Bits} (h : LeftOf a b) : a < b := by
  obtain ⟨p, x, y, rfl, rfl⟩ := h
  induction p with
  | nil => exact List.Lex.rel (by decide)
  | cons c p ih => exact List.Lex.cons ih

theorem LeftOf.not_isPrefix {a b : Bits} (h : LeftOf a b) : ¬ a <+: b ∧ ¬ b <+: a := by
  obtain ⟨p, x, y, rfl, rfl⟩ := h
  simp [List.prefix_append_right_inj]

/-! ### Every run of the walk -/

/-- What holds of stack and table at the start of a walk and is kept by each of its steps holds of
the table it ends with. -/
theorem walk_keeps {p : Params} {nodes : List Node}
    {Q : List (Nat × Bits) → List (Symbol × Bits) → Prop}
    (hleaf : ∀ n path st code sym f, nodeAt nodes n = some (.leaf sym f) →
      Q ((n, path) :: st) code → Q st (code ++ [(sym, path)]))
    (hint : ∀ n path st code l r f, nodeAt nodes n = some (.internal l r f) →
      Q ((n, path) :: st) code → Q ((l, path ++ [false]) :: (r, path ++ [true]) :: st) code)
    {pops : Nat} {st : List (Nat × Bits)} {code out : List (Symbol × Bits)}
    (h : walk p nodes pops st code = .ok out) (hq : Q st code) : Q [] out := by
  induction pops generalizing st code with
  | zero =>
    cases st with
    | nil => cases h; exact hq
    | cons a st => cases h
  | succ n ih =>
    cases st with
    | nil => cases h; exact hq
    | cons a st =>
      obtain ⟨k, path⟩ := a
      unfold walk at h
      split at h
      · cases h
      · next sym f hk =>
        split at h
        · next code' hm =>
          obtain ⟨rfl, -⟩ := memAppend_ok hm
          exact ih h (hleaf _ _ _ _ _ _ hk hq)
        · cases h
      · next l r f hk => exact ih h (hint _ _ _ _ _ _ _ hk hq)

/-- The codes emitted and the paths on the stack, from left to right (R157). -/
theorem walk_leftOf {p : Params} {nodes : List Node} {pops : Nat} {st : List (Nat × Bits)}
    {code out : List (Symbol × Bits)} (h : walk p nodes pops st code = .ok out)
    (hq : (code.map (·.2) ++ st.map (·.2)).Pairwise LeftOf) :
    (out.map (·.2)).Pairwise LeftOf := by
  have := walk_keeps (Q := fun st code => (code.map (·.2) ++ st.map (·.2)).Pairwise LeftOf)
    ?_ ?_ h hq
  · simpa using this
  · intro n path st code sym f _ hq
    simpa using hq
  · intro n path st code l r f _ hq
    simp only [List.map_cons, List.pairwise_append, List.pairwise_cons] at hq ⊢
    obtain ⟨h1, ⟨h2, h3⟩, h4⟩ := hq
    refine ⟨h1, ⟨?_, fun b hb => (h2 b hb).append_left _, h3⟩, ?_⟩
    · intro b hb
      rcases List.mem_cons.mp hb with rfl | hb
      · exact ⟨path, [], [], rfl, rfl⟩
      · exact (h2 b hb).append_left _
    · intro a ha b hb
      rcases List.mem_cons.mp hb with rfl | hb
      · exact (h4 a ha _ (by simp)).append_right _
      · rcases List.mem_cons.mp hb with rfl | hb
        · exact (h4 a ha _ (by simp)).append_right _
        · exact h4 a ha b (List.mem_cons_of_mem _ hb)

/-- One bit further along a path (R156). -/
theorem follow_snoc {nodes : List Node} {k n l r f : Nat} {path : Bits} (b : Bool)
    (h : follow nodes k path = nodeAt nodes n) (hn : nodeAt nodes n = some (.internal l r f)) :
    follow nodes k (path ++ [b]) = nodeAt nodes (if b then r else l) := by
  induction path generalizing k with
  | nil =>
    simp only [follow] at h
    simp [follow, h, hn]
  | cons c cs ih =>
    rw [List.cons_append]
    unfold follow at h ⊢
    split at h
    · exact ih h
    · rw [hn] at h; cases h

/-- The code of every emitted symbol leads to its leaf (R156). -/
theorem walk_follow {p : Params} {nodes : List Node} {root pops : Nat} {st : List (Nat × Bits)}
    {code out : List (Symbol × Bits)} (h : walk p nodes pops st code = .ok out)
    (hst : ∀ e ∈ st, follow nodes root e.2 = nodeAt nodes e.1)
    (hcode : ∀ e ∈ code, ∃ f, follow nodes root e.2 = some (.leaf e.1 f)) :
    ∀ e ∈ out, ∃ f, follow nodes root e.2 = some (.leaf e.1 f) := by
  refine (walk_keeps (Q := fun st code => (∀ e ∈ st, follow nodes root e.2 = nodeAt nodes e.1) ∧
    ∀ e ∈ code, ∃ f, follow nodes root e.2 = some (.leaf e.1 f)) ?_ ?_ h ⟨hst, hcode⟩).2
  · rintro n path st code sym f hn ⟨h1, h2⟩
    refine ⟨fun e he => h1 e (List.mem_cons_of_mem _ he), fun e he => ?_⟩
    rcases List.mem_append.mp he with he | he
    · exact h2 e he
    · rw [List.mem_singleton.mp he]
      exact ⟨f, (h1 (n, path) (by simp)).trans hn⟩
  · rintro n path st code l r f hn ⟨h1, h2⟩
    refine ⟨fun e he => ?_, h2⟩
    have hp := h1 (n, path) (by simp)
    rcases List.mem_cons.mp he with rfl | he
    · simpa using follow_snoc false hp hn
    · rcases List.mem_cons.mp he with rfl | he
      · simpa using follow_snoc true hp hn
      · exact h1 e (List.mem_cons_of_mem _ he)

/-! ### The walk of a tree -/

/-- The children of the node at an index; none outside the arena. -/
def childrenAt (nodes : List Node) (k : Nat) : List Nat :=
  match nodeAt nodes k with
  | some n => n.children
  | none   => []

/-- The symbol of the leaf at an index. -/
def symAt (nodes : List Node) (k : Nat) : Option Symbol := (nodeAt nodes k).bind Node.sym?

theorem childIndices_eq (nodes : List Node) :
    childIndices nodes = (List.range nodes.length).flatMap (childrenAt nodes) := by
  induction nodes using List.reverseRecOn with
  | nil => rfl
  | append_singleton l n ih =>
    rw [childIndices, List.flatMap_append, ← childIndices, ih, List.length_append,
      List.length_singleton, List.range_succ, List.flatMap_append]
    congr 1
    · refine List.flatMap_congr fun k hk => ?_
      rw [childrenAt, childrenAt, nodeAt_append _ (List.mem_range.mp hk)]
    · simp [childrenAt, nodeAt_snoc]

theorem leafSymbols_eq (nodes : List Node) :
    leafSymbols nodes = (List.range nodes.length).filterMap (symAt nodes) := by
  induction nodes using List.reverseRecOn with
  | nil => rfl
  | append_singleton l n ih =>
    rw [leafSymbols, List.filterMap_append, ← leafSymbols, ih, List.length_append,
      List.length_singleton, List.range_succ, List.filterMap_append]
    congr 1
    · refine List.filterMap_congr fun k hk => ?_
      rw [symAt, symAt, nodeAt_append _ (List.mem_range.mp hk)]
    · simp only [List.filterMap_cons, symAt, nodeAt_snoc]
      rfl

/-- The nodes a walk has visited, and those on its stack, are the root and the children of the
visited ones, each once. -/
structure Visiting (nodes : List Node) (root : Nat) (visited : List Nat) (stack : List Nat) :
    Prop where
  perm  : (visited ++ stack).Perm (root :: visited.flatMap (childrenAt nodes))
  nodup : (visited ++ stack).Nodup
  range : ∀ k ∈ visited ++ stack, k < nodes.length

/-- A tree's children are nodes of it, made earlier. -/
theorem IsTree.child_lt {nodes : List Node} {root : Nat} (ht : IsTree nodes root) {k c : Nat}
    (hc : c ∈ childrenAt nodes k) : c < k ∧ k < nodes.length := by
  have hk : k < nodes.length := by
    by_contra hk
    rw [childrenAt, nodeAt, List.getElem?_eq_none (by omega)] at hc
    cases hc
  have := ht.2.2.2.1 k hk
  rw [isLeafAt, isMergeAt] at this
  rw [childrenAt] at hc
  cases hn : nodeAt nodes k with
  | none => rw [hn] at hc; cases hc
  | some n =>
    rw [hn] at this hc
    cases n with
    | leaf => cases hc
    | internal l r f =>
      simp only [Node.children, List.mem_cons, List.not_mem_nil, or_false] at hc
      split at this
      · cases this
      · simp only [decide_eq_true_eq] at this
        refine ⟨?_, hk⟩
        rcases hc with rfl | rfl
        · exact this.1
        · exact this.2.1

theorem IsTree.count_child {nodes : List Node} {root : Nat} (ht : IsTree nodes root) {k : Nat}
    (hk : k < nodes.length) :
    ((List.range nodes.length).flatMap (childrenAt nodes)).count k = if k = root then 0 else 1 := by
  rw [← childIndices_eq]; exact ht.2.2.2.2 k hk

/-- Distinct nodes of a tree have distinct children, none of them the root. -/
theorem IsTree.nodup_children {nodes : List Node} {root : Nat} (ht : IsTree nodes root)
    {l : List Nat} (hn : l.Nodup) (hr : ∀ k ∈ l, k < nodes.length) :
    (root :: l.flatMap (childrenAt nodes)).Nodup := by
  have hsub : l.Subperm (List.range nodes.length) :=
    List.subperm_of_subset hn (fun k hk => List.mem_range.mpr (hr k hk))
  obtain ⟨m, hm, hsl⟩ := hsub
  have hle : ∀ c, (l.flatMap (childrenAt nodes)).count c ≤
      ((List.range nodes.length).flatMap (childrenAt nodes)).count c := by
    intro c
    rw [← (hm.flatMap_right (childrenAt nodes)).count_eq]
    exact (hsl.flatMap (childrenAt nodes)).count_le c
  rw [List.nodup_iff_count_le_one]
  intro c
  by_cases hc : c < nodes.length
  · have h1 := hle c
    rw [ht.count_child hc] at h1
    rw [List.count_cons]
    by_cases hcr : c = root
    · subst hcr; simp at h1 ⊢; omega
    · rw [if_neg hcr] at h1
      have : (root == c) = false := by simpa using Ne.symm hcr
      simp [this]; omega
  · have hroot : root ≠ c := by
      have := ht.2.2.1; omega
    have : c ∉ l.flatMap (childrenAt nodes) := by
      intro hmem
      obtain ⟨k, _, hck⟩ := List.mem_flatMap.mp hmem
      have := ht.child_lt hck
      omega
    rw [List.count_cons, List.count_eq_zero.mpr this]
    simp [hroot]

/-- Visiting the node on top of the stack. -/
theorem Visiting.visit {nodes : List Node} {root : Nat} (ht : IsTree nodes root)
    {visited st : List Nat} {k : Nat} (hv : Visiting nodes root visited (k :: st)) :
    Visiting nodes root (visited ++ [k]) (childrenAt nodes k ++ st) := by
  have hp : (visited ++ [k] ++ (childrenAt nodes k ++ st)).Perm
      (root :: (visited ++ [k]).flatMap (childrenAt nodes)) := by
    rw [List.flatMap_append]
    simp only [List.flatMap_cons, List.flatMap_nil, List.append_nil]
    have h1 : (visited ++ [k] ++ (childrenAt nodes k ++ st)).Perm
        ((visited ++ k :: st) ++ childrenAt nodes k) := by
      rw [List.append_assoc, List.append_assoc]
      refine List.Perm.append_left _ ?_
      simp only [List.cons_append, List.nil_append]
      exact (List.perm_append_comm).cons k
    exact h1.trans (hv.perm.append_right _)
  have hvn : (visited ++ [k]).Nodup := by
    have := hv.nodup
    rw [show visited ++ k :: st = (visited ++ [k]) ++ st by simp] at this
    exact (List.nodup_append.mp this).1
  have hvr : ∀ j ∈ visited ++ [k], j < nodes.length := fun j hj =>
    hv.range j (by simp at hj ⊢; tauto)
  refine ⟨hp, hp.nodup_iff.mpr (ht.nodup_children hvn hvr), ?_⟩
  intro j hj
  rcases List.mem_cons.mp (hp.mem_iff.mp hj) with rfl | hj
  · have := ht.2.2.1; omega
  · obtain ⟨i, _, hi⟩ := List.mem_flatMap.mp hj
    have := ht.child_lt hi
    omega

theorem Visiting.length_le {nodes : List Node} {root : Nat} {visited st : List Nat}
    (hv : Visiting nodes root visited st) : visited.length + st.length ≤ nodes.length := by
  have := (List.subperm_of_subset hv.nodup
    (fun k hk => List.mem_range.mpr (hv.range k hk))).length_le
  simpa using this

/-- A finished walk has visited every node once (R159). -/
theorem Visiting.all {nodes : List Node} {root : Nat} (ht : IsTree nodes root)
    {visited : List Nat} (hv : Visiting nodes root visited []) :
    visited.Perm (List.range nodes.length) := by
  have hperm := hv.perm
  have hnd := hv.nodup
  rw [List.append_nil] at hperm hnd
  have hall : ∀ d k, k + d + 1 = nodes.length → k ∈ visited := by
    intro d
    induction d using Nat.strongRecOn with
    | _ d ih =>
      intro k hk
      by_cases hr : k = root
      · subst hr; exact hperm.mem_iff.mpr (by simp)
      · have hc := ht.count_child (k := k) (by omega)
        rw [if_neg hr] at hc
        have hmem : k ∈ (List.range nodes.length).flatMap (childrenAt nodes) :=
          List.count_pos_iff.mp (by omega)
        obtain ⟨j, hj, hkj⟩ := List.mem_flatMap.mp hmem
        have hlt := ht.child_lt hkj
        have := ih (nodes.length - 1 - j) (by omega) j (by omega)
        exact hperm.mem_iff.mpr (List.mem_cons_of_mem _ (List.mem_flatMap.mpr ⟨j, this, hkj⟩))
  rw [List.perm_ext_iff_of_nodup hnd List.nodup_range]
  intro k
  rw [List.mem_range]
  constructor
  · intro hk; exact hv.range k (by simpa using hk)
  · intro hk; exact hall (nodes.length - 1 - k) k (by omega)

/-- The walk of a tree ends, having visited every node once and emitted the leaves it met
(R155, R159). What holds of the visited nodes, the stack and the table at the start and is kept by
each visit holds at the end. -/
theorem walk_runs {p : Params} {nodes : List Node} {root : Nat} (ht : IsTree nodes root)
    (hcap : p.nsymMax.admits (leafSymbols nodes).length = true)
    {Q : List Nat → List (Nat × Bits) → List (Symbol × Bits) → Prop}
    (hleaf : ∀ k path st code visited sym f, nodeAt nodes k = some (.leaf sym f) →
      Q visited ((k, path) :: st) code → Q (visited ++ [k]) st (code ++ [(sym, path)]))
    (hint : ∀ k path st code visited l r f, nodeAt nodes k = some (.internal l r f) →
      Q visited ((k, path) :: st) code →
      Q (visited ++ [k]) ((l, path ++ [false]) :: (r, path ++ [true]) :: st) code)
    {pops : Nat} {st : List (Nat × Bits)} {code : List (Symbol × Bits)} {visited : List Nat}
    (hv : Visiting nodes root visited (st.map (·.1)))
    (hcode : code.map (·.1) = visited.filterMap (symAt nodes))
    (hq : Q visited st code) (hpops : nodes.length ≤ visited.length + pops) :
    ∃ out all, walk p nodes pops st code = .ok out ∧ (out.map (·.1)).Perm (leafSymbols nodes) ∧
      all.Perm (List.range nodes.length) ∧ Q all [] out := by
  have hdone : ∀ (code : List (Symbol × Bits)) (visited : List Nat),
      Visiting nodes root visited [] → code.map (·.1) = visited.filterMap (symAt nodes) →
      (code.map (·.1)).Perm (leafSymbols nodes) ∧ visited.Perm (List.range nodes.length) := by
    intro code visited hv hcode
    rw [hcode, leafSymbols_eq]
    exact ⟨(hv.all ht).filterMap _, hv.all ht⟩
  induction pops generalizing st code visited with
  | zero =>
    have := hv.length_le
    have : st = [] := by
      rw [← List.length_eq_zero_iff]; simp at this; omega
    subst this
    exact ⟨code, visited, rfl, (hdone code visited hv hcode).1, (hdone code visited hv hcode).2, hq⟩
  | succ n ih =>
    cases st with
    | nil =>
      exact ⟨code, visited, rfl, (hdone code visited hv hcode).1, (hdone code visited hv hcode).2,
        hq⟩
    | cons a st =>
      obtain ⟨k, path⟩ := a
      simp only [List.map_cons] at hv
      have hk : k < nodes.length := hv.range k (by simp)
      have hv' := hv.visit ht
      have hk' : nodeAt nodes k = some nodes[k] := List.getElem?_eq_getElem hk
      unfold walk
      cases hn : nodes[k] with
      | leaf sym f =>
        rw [hn] at hk'
        have hc : childrenAt nodes k = [] := by rw [childrenAt, hk']; rfl
        have hs : symAt nodes k = some sym := by rw [symAt, hk']; rfl
        rw [hc, List.nil_append] at hv'
        have hcode' : (code ++ [(sym, path)]).map (·.1)
            = (visited ++ [k]).filterMap (symAt nodes) := by
          rw [List.map_append, hcode, List.filterMap_append]
          simp [hs]
        have hlen : (code ++ [(sym, path)]).length ≤ (leafSymbols nodes).length := by
          have h1 : ((code ++ [(sym, path)]).map (·.1)).length ≤ (leafSymbols nodes).length := by
            rw [hcode', leafSymbols_eq]
            have hn' := (List.nodup_append.mp hv'.nodup).1
            have hsub : (visited ++ [k]).Subperm (List.range nodes.length) :=
              List.subperm_of_subset hn' (fun j hj => List.mem_range.mpr
                (hv'.range j (List.mem_append_left _ hj)))
            obtain ⟨m, hm, hsl⟩ := hsub
            rw [← (hm.filterMap (symAt nodes)).length_eq]
            exact (hsl.filterMap _).length_le
          simpa using h1
        simp only [hk']
        rw [memAppend_of_admits (Bound.admits_mono (by simpa using hlen) hcap)]
        exact ih hv' hcode' (hleaf _ _ _ _ _ _ _ hk' hq) (by simp; omega)
      | internal l r f =>
        rw [hn] at hk'
        have hc : childrenAt nodes k = [l, r] := by rw [childrenAt, hk']; rfl
        have hs : symAt nodes k = none := by rw [symAt, hk']; rfl
        rw [hc] at hv'
        simp only [hk']
        refine ih (visited := visited ++ [k]) (by simpa using hv') ?_ (hint _ _ _ _ _ _ _ _ hk' hq)
          (by simp; omega)
        rw [hcode, List.filterMap_append]
        simp [hs]

/-- The root of a tree is the only node of a one-leaf tree, and internal otherwise. -/
theorem IsTree.root_node {nodes : List Node} {root : Nat} (ht : IsTree nodes root) :
    (∃ c f, nodes = [.leaf c f] ∧ root = 0) ∨
    (2 ≤ (leafSymbols nodes).length ∧ ∃ l r f, nodeAt nodes root = some (.internal l r f)) := by
  obtain ⟨h1, h2, h3, h4, -⟩ := ht
  have hr := h4 root (by omega)
  by_cases hone : (leafSymbols nodes).length = 1
  · have hlen : nodes.length = 1 := by omega
    obtain ⟨n, rfl⟩ := List.length_eq_one_iff.mp hlen
    have : root = 0 := by omega
    subst this
    cases n with
    | leaf c f => exact .inl ⟨c, f, rfl, rfl⟩
    | internal l r f => cases h1
  · rw [if_neg (by omega), isMergeAt] at hr
    refine .inr ⟨by omega, ?_⟩
    cases hn : nodeAt nodes root with
    | none => rw [hn] at hr; cases hr
    | some n =>
      rw [hn] at hr
      cases n with
      | leaf => cases hr
      | internal l r f => exact ⟨l, r, f, rfl⟩

/-- The codes of any run of the generator go from left to right (R157). -/
theorem generate_leftOf {p : Params} {nodes : List Node} {root : Nat} {out : List (Symbol × Bits)}
    (h : generate p nodes root = .ok out) : (out.map (·.2)).Pairwise LeftOf := by
  unfold generate at h
  split at h
  · cases h
  · obtain ⟨rfl, -⟩ := memAppend_ok h
    simp
  · exact walk_leftOf h (by simp)

/-- The generator on a tree (R155, R160 items 1 to 4). -/
theorem generate_spec {p : Params} {nodes : List Node} {root : Nat} (ht : IsTree nodes root)
    (hcap : p.nsymMax.admits (leafSymbols nodes).length = true) :
    ∃ out, generate p nodes root = .ok out ∧ (out.map (·.1)).Perm (leafSymbols nodes) ∧
      IsPrefixCode out ∧ (2 ≤ (leafSymbols nodes).length →
        ∀ e ∈ out, ∃ f, follow nodes root e.2 = some (.leaf e.1 f)) := by
  have hpw : ∀ out : List (Symbol × Bits), (out.map (·.2)).Pairwise LeftOf →
      out.Pairwise (fun a b => ¬ a.2 <+: b.2 ∧ ¬ b.2 <+: a.2) := fun out h =>
    (List.pairwise_map.mp h).imp (fun h => h.not_isPrefix)
  rcases ht.root_node with ⟨c, f, rfl, rfl⟩ | ⟨h2, l, r, f, hroot⟩
  · have hls : leafSymbols [Node.leaf c f] = [c] := rfl
    rw [hls] at hcap ⊢
    refine ⟨[(c, [false])], ?_, .refl _, ⟨by simp, by simp⟩, fun h => absurd h (by simp)⟩
    simp only [generate, nodeAt, List.getElem?_cons_zero]
    rw [memAppend_of_admits (by simpa using hcap)]
    rfl
  · have hv : Visiting nodes root [] ([(root, ([] : Bits))].map (·.1)) :=
      ⟨by simp, by simp, by simpa using (by have := ht.2.2.1; omega)⟩
    obtain ⟨out, -, hw, hp, -⟩ := walk_runs (p := p) ht hcap (Q := fun _ _ _ => True)
      (fun _ _ _ _ _ _ _ _ _ => trivial) (fun _ _ _ _ _ _ _ _ _ _ => trivial)
      (code := []) (pops := nodes.length) hv rfl trivial (by simp)
    have hg : generate p nodes root = .ok out := by
      simp only [generate, hroot]; exact hw
    have hf := walk_follow (root := root) hw (by simp [follow]) (by simp)
    refine ⟨out, hg, hp, ⟨?_, hpw out (generate_leftOf hg)⟩, fun _ => hf⟩
    intro e he hnil
    obtain ⟨f', hf'⟩ := hf e he
    rw [hnil, follow, hroot] at hf'
    cases hf'

end Sys2Proof.Machine
end

