-- ==== Sys2Proof/Laws/Codec.lean ====
section
/-! SUPPORT. What the loops of ENCODE and DECODE compute (spec/43_codec.md R170 to R176), and that a
prefix code is decoded greedily (R178). -/

namespace Sys2Proof.Machine

/-! ### ENCODE -/

theorem bitstreamOf_append (table : List (Symbol × Bits)) (a b : List Symbol) :
    bitstreamOf table (a ++ b) = bitstreamOf table a ++ bitstreamOf table b :=
  List.flatMap_append

theorem bitstreamOf_cons {table : List (Symbol × Bits)} {c : Symbol} {code : Bits}
    (h : codeOf? table c = some code) (cs : List Symbol) :
    bitstreamOf table (c :: cs) = code ++ bitstreamOf table cs := by
  simp [bitstreamOf, h]

/-- ENCODE's loop over symbols that have codes, which fit (R170). -/
theorem encodeLoop_known {p : Params} {table : List (Symbol × Bits)} (pre cs : List Symbol)
    (acc : Bits) (hk : ∀ c ∈ pre, (codeOf? table c).isSome = true)
    (hfit : p.bitsMax.admits (acc.length + (bitstreamOf table pre).length) = true) :
    encodeLoop p table (pre ++ cs) acc = encodeLoop p table cs (acc ++ bitstreamOf table pre) := by
  induction pre generalizing acc with
  | nil => simp [bitstreamOf]
  | cons c pre ih =>
    obtain ⟨code, hc⟩ := Option.isSome_iff_exists.mp (hk c (by simp))
    rw [bitstreamOf_cons hc] at hfit ⊢
    rw [List.length_append] at hfit
    rw [List.cons_append, encodeLoop]
    simp only [hc]
    rw [memAppend_of_admits (Bound.admits_mono (by omega) hfit)]
    simp only
    rw [ih _ (fun x hx => hk x (List.mem_cons_of_mem _ hx))
      (by rw [List.length_append, Nat.add_assoc]; exact hfit), List.append_assoc]

/-- ENCODE's loop on a text all of whose symbols have codes (R170). -/
theorem encodeLoop_text {p : Params} {table : List (Symbol × Bits)} {text : List Symbol}
    (hk : ∀ c ∈ text, (codeOf? table c).isSome = true)
    (hfit : p.bitsMax.admits (bitstreamOf table text).length = true) :
    encodeLoop p table text [] = .ok (bitstreamOf table text) := by
  have := encodeLoop_known text [] [] hk (by simpa using hfit)
  simpa [encodeLoop] using this

/-- When ENCODE's loop ends normally, every symbol has a code and the bits are the codes (R170). -/
theorem encodeLoop_ok {p : Params} {table : List (Symbol × Bits)} {cs : List Symbol}
    {acc out : Bits} (h : encodeLoop p table cs acc = .ok out)
    (hacc : p.bitsMax.admits acc.length = true) :
    out = acc ++ bitstreamOf table cs ∧ p.bitsMax.admits out.length = true := by
  induction cs generalizing acc with
  | nil => cases h; simpa [bitstreamOf] using hacc
  | cons c cs ih =>
    unfold encodeLoop at h
    split at h
    · cases h
    · next code hc =>
      split at h
      · next acc' hm =>
        obtain ⟨rfl, hl⟩ := memAppend_ok hm
        obtain ⟨h1, h2⟩ := ih h hl
        rw [bitstreamOf_cons hc, ← List.append_assoc]
        exact ⟨h1, h2⟩
      · cases h

/-! ### DECODE -/

/-- DECODE's loop over bits that complete no code (R173). -/
theorem decodeLoop_noMatch {p : Params} {table : List (Bits × Symbol)} (x bs buf : Bits)
    (out : List Symbol)
    (h : ∀ n < x.length + 1, 0 < n → symbolOf? table (buf ++ x.take n) = none) :
    decodeLoop p table (x ++ bs) buf out = decodeLoop p table bs (buf ++ x) out := by
  induction x generalizing buf with
  | nil => simp
  | cons b x ih =>
    have h1 := h 1 (by simp) (by simp)
    simp only [List.take_succ_cons, List.take_zero] at h1
    rw [List.cons_append, decodeLoop]
    simp only [h1]
    rw [ih _ (fun n hn hp => ?_)]
    · simp
    · have := h (n + 1) (by simpa using hn) (by omega)
      simpa using this

/-- DECODE's loop over one greedy match, up to its append to OUT (R173). -/
theorem decodeLoop_match {p : Params} {table : List (Bits × Symbol)} {x : Bits} (bs : Bits)
    (out : List Symbol) (h : IsGreedyMatch table x) :
    ∃ sym, symbolOf? table x = some sym ∧
      decodeLoop p table (x ++ bs) [] out =
        match memAppend p.textMax out [sym] with
        | .ok out' => decodeLoop p table bs [] out'
        | .error e => .error e := by
  obtain ⟨hne, hsome, hno⟩ := h
  obtain ⟨sym, hsym⟩ := Option.isSome_iff_exists.mp hsome
  refine ⟨sym, hsym, ?_⟩
  obtain ⟨b, hx⟩ : ∃ b, x = x.dropLast ++ [b] :=
    ⟨x.getLast hne, (List.dropLast_append_getLast hne).symm⟩
  have hlen : x.dropLast.length + 1 = x.length := by
    have := List.length_pos_iff.mpr hne
    simp; omega
  conv_lhs => rw [hx, List.append_assoc]
  rw [decodeLoop_noMatch x.dropLast _ [] out (fun n hn hp => ?_)]
  · rw [List.nil_append, List.singleton_append, decodeLoop, ← hx]
    exact hsym ▸ rfl
  · have := hno n (by omega) hp
    rw [List.nil_append, List.dropLast_eq_take, List.take_take,
      show min n (x.length - 1) = n by omega]
    exact this

/-- DECODE's loop over greedy matches that fit (R173). -/
theorem decodeLoop_chunks {p : Params} {table : List (Bits × Symbol)} (chunks : List Bits)
    (bs : Bits) (out : List Symbol) (h : ∀ b ∈ chunks, IsGreedyMatch table b)
    (hfit : p.textMax.admits (out.length + chunks.length) = true) :
    decodeLoop p table (chunks.flatten ++ bs) [] out =
      decodeLoop p table bs [] (out ++ chunks.filterMap (symbolOf? table)) := by
  induction chunks generalizing out with
  | nil => simp
  | cons x xs ih =>
    obtain ⟨sym, hs, hd⟩ := decodeLoop_match (p := p) (xs.flatten ++ bs) out (h x (by simp))
    rw [List.flatten_cons, List.append_assoc, hd]
    rw [memAppend_of_admits (Bound.admits_mono (by simp) hfit)]
    simp only
    rw [ih _ (fun b hb => h b (List.mem_cons_of_mem _ hb))
      (by simpa [Nat.add_assoc, Nat.add_comm 1] using hfit)]
    simp [hs]

/-- When DECODE's loop ends normally, OUT is within its capacity and holds symbols of the table
(R173). -/
theorem decodeLoop_ok {p : Params} {table : List (Bits × Symbol)} {bs buf : Bits}
    {out res : List Symbol} (h : decodeLoop p table bs buf out = .ok res)
    (hout : p.textMax.admits out.length = true) (hmem : ∀ c ∈ out, c ∈ table.map (·.2)) :
    p.textMax.admits res.length = true ∧ ∀ c ∈ res, c ∈ table.map (·.2) := by
  induction bs generalizing buf out with
  | nil =>
    unfold decodeLoop at h
    split at h
    · cases h; exact ⟨hout, hmem⟩
    · cases h
  | cons b bs ih =>
    unfold decodeLoop at h
    split at h
    · exact ih h hout hmem
    · next sym hs =>
      split at h
      · next out' hm =>
        obtain ⟨rfl, hl⟩ := memAppend_ok hm
        refine ih h hl (fun c hc => ?_)
        rcases List.mem_append.mp hc with hc | hc
        · exact hmem c hc
        · rw [List.mem_singleton.mp hc]
          unfold symbolOf? at hs
          obtain ⟨e, he, rfl⟩ := Option.map_eq_some_iff.mp hs
          exact List.mem_map_of_mem (List.mem_of_find?_eq_some he)
      · cases h

/-! ### A prefix code and its inverse (R178) -/

theorem mem_of_codeOf? {table : List (Symbol × Bits)} {c : Symbol} {code : Bits}
    (h : codeOf? table c = some code) : (c, code) ∈ table := by
  unfold codeOf? at h
  obtain ⟨e, he, rfl⟩ := Option.map_eq_some_iff.mp h
  have h1 := List.mem_of_find?_eq_some he
  have h2 := List.find?_some he
  rw [beq_iff_eq] at h2
  rw [← h2]; exact h1

theorem codeOf?_isSome {table : List (Symbol × Bits)} {c : Symbol} :
    (codeOf? table c).isSome = true ↔ c ∈ table.map (·.1) := by
  simp [codeOf?]

theorem mem_of_symbolOf? {table : List (Bits × Symbol)} {b : Bits} {c : Symbol}
    (h : symbolOf? table b = some c) : (b, c) ∈ table := by
  unfold symbolOf? at h
  obtain ⟨e, he, rfl⟩ := Option.map_eq_some_iff.mp h
  have h1 := List.mem_of_find?_eq_some he
  have h2 := List.find?_some he
  rw [beq_iff_eq] at h2
  rw [← h2]; exact h1

/-- Two pairs of a prefix code, the code of one a prefix of the other's, are the same pair. -/
theorem IsPrefixCode.eq_of_isPrefix {table : List (Symbol × Bits)} (h : IsPrefixCode table)
    {a b : Symbol × Bits} (ha : a ∈ table) (hb : b ∈ table) (hp : a.2 <+: b.2) : a = b := by
  by_contra hne
  have hsymm : Std.Symm (fun a b : Symbol × Bits => ¬ a.2 <+: b.2 ∧ ¬ b.2 <+: a.2) :=
    ⟨fun _ _ h => ⟨h.2, h.1⟩⟩
  exact (h.2.forall ha hb hne).1 hp

/-- In the inverse of a prefix code, the code of a pair is a greedy match for its symbol. -/
theorem IsPrefixCode.isGreedyMatch {table : List (Symbol × Bits)} (h : IsPrefixCode table)
    {a : Symbol × Bits} (ha : a ∈ table) :
    symbolOf? (inverseTable table) a.2 = some a.1 ∧ IsGreedyMatch (inverseTable table) a.2 := by
  have hmem : ∀ {b : Bits} {c : Symbol}, (b, c) ∈ inverseTable table → (c, b) ∈ table := by
    intro b c hbc
    obtain ⟨e, he, heq⟩ := List.mem_map.mp hbc
    cases heq
    exact he
  have hsome : ∃ c, symbolOf? (inverseTable table) a.2 = some c := by
    unfold symbolOf?
    cases hf : (inverseTable table).find? (fun e => e.1 == a.2) with
    | some e => exact ⟨e.2, rfl⟩
    | none =>
      have := List.find?_eq_none.mp hf (a.2, a.1) (List.mem_map.mpr ⟨a, ha, rfl⟩)
      simp at this
  obtain ⟨c, hc⟩ := hsome
  have hca : (c, a.2) = a := h.eq_of_isPrefix (hmem (mem_of_symbolOf? hc)) ha (by simp)
  have hsym : symbolOf? (inverseTable table) a.2 = some a.1 := by
    rw [hc, ← hca]
  refine ⟨hsym, h.1 a ha, by simp [hsym], ?_⟩
  intro n hn hpos
  cases hs : symbolOf? (inverseTable table) (a.2.take n) with
  | none => rfl
  | some d =>
    have hd := hmem (mem_of_symbolOf? hs)
    have := h.eq_of_isPrefix hd ha (List.take_prefix n a.2)
    have hlen := congrArg (fun e => e.2.length) this
    simp at hlen
    omega

/-- Decoding the bits of a text with the inverse of the prefix code that encoded it gives the text
(R178). -/
theorem decodeLoop_bitstream {p : Params} {table : List (Symbol × Bits)} (h : IsPrefixCode table)
    {text : List Symbol} (hk : ∀ c ∈ text, (codeOf? table c).isSome = true)
    (hfit : p.textMax.admits text.length = true) :
    decodeLoop p (inverseTable table) (bitstreamOf table text) [] [] = .ok text := by
  have hcode : ∀ c ∈ text, ((codeOf? table c).getD [], c) ∈ inverseTable table ∧
      symbolOf? (inverseTable table) ((codeOf? table c).getD []) = some c ∧
      IsGreedyMatch (inverseTable table) ((codeOf? table c).getD []) := by
    intro c hc
    obtain ⟨code, hcode⟩ := Option.isSome_iff_exists.mp (hk c hc)
    have hm := mem_of_codeOf? hcode
    rw [hcode]
    exact ⟨List.mem_map.mpr ⟨_, hm, rfl⟩, h.isGreedyMatch hm⟩
  have hflat : bitstreamOf table text
      = (text.map (fun c => (codeOf? table c).getD [])).flatten ++ [] := by
    rw [List.append_nil]; rfl
  rw [hflat, decodeLoop_chunks _ _ _ (by
    intro b hb
    obtain ⟨c, hc, rfl⟩ := List.mem_map.mp hb
    exact (hcode c hc).2.2) (by simpa using hfit)]
  have : (text.map (fun c => (codeOf? table c).getD [])).filterMap
      (symbolOf? (inverseTable table)) = text := by
    rw [List.filterMap_map]
    conv_rhs => rw [← List.filterMap_some (l := text)]
    exact List.filterMap_congr (fun c hc => (hcode c hc).2.1)
  rw [this]
  simp [decodeLoop]

end Sys2Proof.Machine
end

