-- ==== Sys2Proof/Laws/PerInstr.lean ====
section
/-! SUPPORT. What holds of every command as syntax, one lemma per constructor: the two fields of its
encoding are its OPC and its ARG (spec/30_encoding.md R85). -/

namespace Sys2Proof.Laws.EncodingFields

/-- The OPC field of the encoding is the command's OPC, and the ARG field its operand, cut to the
24 bits of the field. -/
def Statement (i : Instr) : Prop :=
  opcOf (encodeInstr i) = i.opcode ∧ argOf (encodeInstr i) = i.arg % 2 ^ 24

/-- The bits of a word put together from an ARG and an OPC. -/
theorem word_bit (a : Nat) (o : BitVec 8) (i : Nat) :
    (BitVec.ofNat 24 a ++ o : Word).getLsbD i =
      if i < 8 then o.getLsbD i else (BitVec.ofNat 24 a).getLsbD (i - 8) :=
  BitVec.getLsbD_append

/-- The fields of a word put together from an ARG and an OPC. -/
theorem of_fields (a : Nat) (o : BitVec 8) :
    opcOf (BitVec.ofNat 24 a ++ o) = o ∧ argOf (BitVec.ofNat 24 a ++ o) = a % 2 ^ 24 := by
  constructor
  · apply BitVec.eq_of_getLsbD_eq
    intro i hi
    rw [opcOf, BitVec.getLsbD_extractLsb', word_bit]
    simp [hi]
  · have : (BitVec.ofNat 24 a ++ o : Word).extractLsb' 8 24 = BitVec.ofNat 24 a := by
      apply BitVec.eq_of_getLsbD_eq
      intro i hi
      rw [BitVec.getLsbD_extractLsb', word_bit, if_neg (by omega), Nat.add_sub_cancel_left]
      simp [hi]
    rw [argOf, this, BitVec.toNat_ofNat]

theorem hinit (n : Nat) : Statement (.hinit n) := of_fields n _
theorem hpush (k : Nat) : Statement (.hpush k) := of_fields k _
theorem hpop : Statement .hpop := of_fields 0 _
theorem count : Statement .count := of_fields 0 _
theorem build : Statement .build := of_fields 0 _
theorem gencodes : Statement .gencodes := of_fields 0 _
theorem encode : Statement .encode := of_fields 0 _
theorem decode : Statement .decode := of_fields 0 _
theorem verify : Statement .verify := of_fields 0 _
theorem serdata : Statement .serdata := of_fields 0 _
theorem sertab : Statement .sertab := of_fields 0 _
theorem desdata : Statement .desdata := of_fields 0 _
theorem destab : Statement .destab := of_fields 0 _

end Sys2Proof.Laws.EncodingFields
end

