-- ==== Sys2Proof/Laws/Encoding.lean ====
section
/-! SUPPORT. Laws of the opcode map and the two fields of a word (spec/30_encoding.md R85 to
R89). -/

namespace Sys2Proof

/-- No two rows of the map accept one word: on the bits both masks look at, their patterns
differ. -/
theorem opcodeMap_disjoint :
    opcodeMap.Pairwise (fun a b => (a.pattern ^^^ b.pattern) &&& (a.mask &&& b.mask) ≠ 0#32) := by
  decide

/-- A word that both of two rows accept shows that their patterns agree where both look. -/
theorem agree_of_accepts {a b : OpcodeRow} {w : Word} (ha : a.accepts w = true)
    (hb : b.accepts w = true) : (a.pattern ^^^ b.pattern) &&& (a.mask &&& b.mask) = 0#32 := by
  simp only [OpcodeRow.accepts, beq_iff_eq] at ha hb
  rw [← ha, ← hb]
  apply BitVec.eq_of_getLsbD_eq
  intro i hi
  simp only [BitVec.getLsbD_and, BitVec.getLsbD_xor, BitVec.getLsbD_zero]
  cases w.getLsbD i <;> cases a.mask.getLsbD i <;> cases b.mask.getLsbD i <;> rfl

/-- A word is its two fields. -/
theorem word_of_fields (w : Word) : (BitVec.ofNat 24 (argOf w) ++ opcOf w : Word) = w := by
  apply BitVec.eq_of_getLsbD_eq
  intro i hi
  rw [Laws.EncodingFields.word_bit]
  split
  · next h => simp [opcOf, h]
  · next h =>
    have hi' : i - 8 < 24 := by omega
    simp only [argOf, BitVec.ofNat_toNat, BitVec.setWidth_eq, BitVec.getLsbD_extractLsb', hi',
      decide_true, Bool.true_and]
    rw [show 8 + (i - 8) = i by omega]

/-- The operand of a word is a 24-bit number (R86). -/
theorem argOf_lt (w : Word) : argOf w < 2 ^ 24 := (w.extractLsb' 8 24).isLt

/-- Two words with the same fields are the same word. -/
theorem word_ext {v w : Word} (ho : opcOf v = opcOf w) (ha : argOf v = argOf w) : v = w := by
  rw [← word_of_fields v, ← word_of_fields w, ho, ha]

/-- A row with the mask of a command that has an operand looks at OPC alone. -/
theorem and_opcMask (w : Word) : w &&& 0x000000FF#32 = (opcOf w).setWidth 32 := by
  apply BitVec.eq_of_getLsbD_eq
  intro i hi
  simp only [BitVec.getLsbD_and, opcOf, BitVec.getLsbD_setWidth, BitVec.getLsbD_extractLsb', hi,
    decide_true, Bool.true_and]
  by_cases h : i < 8
  · have : (0x000000FF#32).getLsbD i = true := by
      revert i; decide
    simp [h, this]
  · have : (0x000000FF#32).getLsbD i = false := by
      have h8 : 8 ≤ i := by omega
      revert i; decide
    simp [h, this]

/-- A row with the mask of a command without an operand looks at the whole word. -/
theorem and_allOnes (w : Word) : w &&& 0xFFFFFFFF#32 = w :=
  BitVec.and_allOnes

end Sys2Proof
end

