-- ==== Sys2Proof/Laws/Serializer.lean ====
section
/-! SUPPORT. The byte formats of the two artifacts and the loops that write and read them
(spec/44_serializer.md, spec/30_encoding.md R95 to R103). -/

namespace Sys2Proof.Machine

/-! ### Packing (R96) -/

theorem byteBits_packByte (b7 b6 b5 b4 b3 b2 b1 b0 : Bool) :
    byteBits (packByte b7 b6 b5 b4 b3 b2 b1 b0) = [b7, b6, b5, b4, b3, b2, b1, b0] := by
  cases b7 <;> cases b6 <;> cases b5 <;> cases b4 <;> cases b3 <;> cases b2 <;> cases b1 <;>
    cases b0 <;> rfl

theorem unpack_length (y : List Byte) : (unpack y).length = 8 * y.length := by
  induction y with
  | nil => rfl
  | cons b y ih => simp [unpack, byteBits, ih]; omega

/-- A bit string of whole bytes, by its first byte. -/
theorem bits_cases {b : Bits} (h : b.length % 8 = 0) (hne : b ≠ []) :
    ∃ b7 b6 b5 b4 b3 b2 b1 b0 r, b = b7 :: b6 :: b5 :: b4 :: b3 :: b2 :: b1 :: b0 :: r ∧
      r.length % 8 = 0 ∧ r.length + 8 = b.length := by
  rcases b with _ | ⟨b7, _ | ⟨b6, _ | ⟨b5, _ | ⟨b4, _ | ⟨b3, _ | ⟨b2, _ | ⟨b1, _ | ⟨b0, r⟩⟩⟩⟩⟩⟩⟩⟩
  · exact absurd rfl hne
  all_goals simp only [List.length_cons, List.length_nil] at h
  all_goals first
    | omega
    | exact ⟨b7, b6, b5, b4, b3, b2, b1, b0, r, rfl, by omega, by simp⟩

/-- Packing whole bytes and unpacking them gives the bits back (R96). -/
theorem unpack_pack (n : Nat) : ∀ b : Bits, b.length = 8 * n →
    unpack (pack b) = b ∧ (pack b).length = n := by
  induction n with
  | zero =>
    intro b hb
    have : b = [] := List.length_eq_zero_iff.mp (by omega)
    subst this
    exact ⟨rfl, rfl⟩
  | succ n ih =>
    intro b hb
    obtain ⟨b7, b6, b5, b4, b3, b2, b1, b0, r, rfl, -, hr⟩ :=
      bits_cases (b := b) (by omega) (by rintro rfl; simp at hb)
    obtain ⟨h1, h2⟩ := ih r (by omega)
    refine ⟨?_, by simp [pack, h2]⟩
    rw [pack, unpack, byteBits_packByte, h1]
    rfl

/-- The padding makes the length a multiple of 8 (R97, R196). -/
theorem padOf_spec (n : Nat) : (padOf n : Nat) = (8 - n % 8) % 8 ∧ (n + padOf n) % 8 = 0 := by
  have : (padOf n : Nat) = (8 - n % 8) % 8 := rfl
  exact ⟨this, by omega⟩

theorem u8_toNat {n : Nat} (h : n ≤ 255) : (u8 n).toNat = n := by
  simp [u8]; omega

/-- The body of the data artifact unpacks to the padded bits (R95, R196). -/
theorem unpack_padded (b : Bits) :
    unpack (pack (b ++ zeros (padOf b.length))) = b ++ List.replicate (padOf b.length) false ∧
    8 * (pack (b ++ zeros (padOf b.length))).length = b.length + padOf b.length := by
  obtain ⟨-, hmod⟩ := padOf_spec b.length
  have hlen : (b ++ zeros (padOf b.length)).length
      = 8 * ((b.length + padOf b.length) / 8) := by
    simp [zeros]; omega
  obtain ⟨h1, h2⟩ := unpack_pack _ _ hlen
  refine ⟨h1, ?_⟩
  rw [h2]
  omega

theorem dataArtifact_length (b : Bits) :
    (dataArtifact b).length = 1 + (b.length + padOf b.length) / 8 := by
  have := (unpack_padded b).2
  simp [dataArtifact]
  omega

/-! ### One record (R98 to R100) -/

theorem ascBits?_asc (b : Bits) : ascBits? (b.map asc) = some b := by
  induction b with
  | nil => rfl
  | cons x xs ih => cases x <;> simp [asc, ascBits?, ih]

theorem ofBytes?_bytes (c : Symbol) : Symbol.ofBytes? c.bytes = some c := rfl

theorem tableRecord_length (c : Symbol) (code : Bits) :
    (tableRecord c code).length = 2 + c.len + code.length := by
  simp [tableRecord, Symbol.len]
  omega

/-- Reading a record back (R204). -/
theorem readRecord_tableRecord {c : Symbol} {code : Bits} (rest : List Byte)
    (hf : FitsFormat (c, code)) (hne : code ≠ []) :
    readRecord (tableRecord c code ++ rest) = some (c, code, rest) := by
  obtain ⟨h1, h2⟩ := hf
  have hcl : (u8 code.length).toNat = code.length := u8_toNat h2
  have hne' : code.length ≠ 0 := by simpa using hne
  have e1 : memTake (u8 c.len).toNat (c.bytes ++ u8 code.length :: (code.map asc ++ rest))
      = some (c.bytes, u8 code.length :: (code.map asc ++ rest)) := by
    rw [u8_toNat h1]; exact memTake_append _ _
  have e2 : memTake code.length (code.map asc ++ rest) = some (code.map asc, rest) := by
    have := memTake_append (code.map asc) rest
    rwa [List.length_map] at this
  simp only [tableRecord, List.cons_append, List.append_assoc, readRecord, e1, ofBytes?_bytes, e2,
    hcl, if_neg hne', ascBits?_asc]

/-- What a record that is read looks like (R100, R204). -/
theorem readRecord_some {bytes rest : List Byte} {c : Symbol} {code : Bits}
    (h : readRecord bytes = some (c, code, rest)) :
    rest.length < bytes.length ∧ 1 ≤ code.length ∧ code.length ≤ 255 := by
  have hasc : ∀ (l : List Byte) (b : Bits), ascBits? l = some b → b.length = l.length := by
    intro l
    induction l with
    | nil => intro b hb; cases hb; rfl
    | cons y ys ih =>
      intro b hb
      unfold ascBits? at hb
      split at hb
      · obtain ⟨b', hb', rfl⟩ := Option.map_eq_some_iff.mp hb
        simp [ih _ hb']
      · split at hb
        · obtain ⟨b', hb', rfl⟩ := Option.map_eq_some_iff.mp hb
          simp [ih _ hb']
        · cases hb
  unfold readRecord at h
  split at h
  · cases h
  · next slen r =>
    split at h
    · cases h
    · next symBytes r' h1 =>
      obtain ⟨rfl, -⟩ := memTake_some h1
      split at h
      · next sym clen r'' hs =>
        split at h
        · cases h
        · next h0 =>
          split at h
          · cases h
          · next codeBytes r''' h2 =>
            obtain ⟨rfl, hl⟩ := memTake_some h2
            split at h
            · cases h
            · next code' hc =>
              cases h
              have hlen := hasc _ _ hc
              have := clen.isLt
              refine ⟨by simp; omega, by omega, by omega⟩
      · cases h

/-- A malformed record is not read (R205). -/
theorem readRecord_bad {bytes : List Byte} (h : BadRecord bytes) : readRecord bytes = none := by
  have htake : ∀ (n : Byte) (c r : List Byte), c.length = n.toNat →
      memTake n.toNat (c ++ r) = some (c, r) := fun n c r hc => hc ▸ memTake_append c r
  have hasc : ∀ l : List Byte, (∃ y ∈ l, y ≠ 0x30#8 ∧ y ≠ 0x31#8) → ascBits? l = none := by
    intro l
    induction l with
    | nil => rintro ⟨y, hy, -⟩; cases hy
    | cons x xs ih =>
      rintro ⟨y, hy, h0, h1⟩
      unfold ascBits?
      rcases List.mem_cons.mp hy with rfl | hy
      · rw [if_neg h0, if_neg h1]
      · rw [ih ⟨y, hy, h0, h1⟩]; simp
  cases h with
  | symbolLengthZero r =>
    simp [readRecord, memTake, Symbol.ofBytes?]
  | symbolTruncated n r h =>
    simp [readRecord, memTake, Nat.not_le.mpr h]
  | noCodeLength n c h0 h =>
    have := htake n c [] h
    rw [List.append_nil] at this
    simp only [readRecord, this]
    split <;> simp_all
  | codeLengthZero n c r h0 h =>
    simp only [readRecord, htake n c _ h]
    split
    · next hs he => cases he; simp
    · rfl
  | codeTruncated n c m r h0 h hr =>
    have hm : memTake m.toNat r = none := by simp [memTake, Nat.not_le.mpr hr]
    simp only [readRecord, htake n c _ h]
    split
    · next hs he => cases he; simp [hm]
    · rfl
  | codeByte n c m b r h0 h hb hx =>
    simp only [readRecord, htake n c _ h]
    split
    · next hs he => cases he; simp [htake m b r hb, hasc b hx]
    · rfl

/-! ### SERTAB (R198) -/

theorem tableArtifact_append (a b : List (Symbol × Bits)) :
    tableArtifact (a ++ b) = tableArtifact a ++ tableArtifact b :=
  List.flatMap_append

theorem tableArtifact_cons (e : Symbol × Bits) (es : List (Symbol × Bits)) :
    tableArtifact (e :: es) = tableRecord e.1 e.2 ++ tableArtifact es :=
  List.flatMap_cons

/-- SERTAB's loop over pairs that fit the format and the capacity (R198). -/
theorem sertabLoop_fits {p : Params} (pre es : List (Symbol × Bits)) (acc : List Byte)
    (hf : ∀ e ∈ pre, FitsFormat e)
    (hfit : p.ctabMax.admits (acc.length + (tableArtifact pre).length) = true) :
    sertabLoop p (pre ++ es) acc = sertabLoop p es (acc ++ tableArtifact pre) := by
  induction pre generalizing acc with
  | nil => simp [tableArtifact]
  | cons e pre ih =>
    obtain ⟨c, code⟩ := e
    obtain ⟨hc, hcode⟩ : c.len ≤ 255 ∧ code.length ≤ 255 := hf (c, code) (by simp)
    rw [tableArtifact_cons] at hfit ⊢
    rw [List.length_append] at hfit
    rw [List.cons_append, sertabLoop, if_neg (by unfold lenFieldMax; omega),
      memAppend_of_admits (Bound.admits_mono (by simp only; omega) hfit)]
    simp only
    rw [ih _ (fun x hx => hf x (List.mem_cons_of_mem _ hx))
      (by rw [List.length_append, Nat.add_assoc]; exact hfit), List.append_assoc]

/-- When SERTAB's loop ends normally, every pair fits the format and the records are written
(R198, R199). -/
theorem sertabLoop_ok {p : Params} {es : List (Symbol × Bits)} {acc out : List Byte}
    (h : sertabLoop p es acc = .ok out) (hacc : p.ctabMax.admits acc.length = true) :
    out = acc ++ tableArtifact es ∧ (∀ e ∈ es, FitsFormat e) ∧
      p.ctabMax.admits out.length = true := by
  induction es generalizing acc with
  | nil => cases h; simpa [tableArtifact] using hacc
  | cons e es ih =>
    obtain ⟨c, code⟩ := e
    unfold sertabLoop at h
    split at h
    · cases h
    · next hlim =>
      split at h
      · next acc' hm =>
        obtain ⟨rfl, hl⟩ := memAppend_ok hm
        obtain ⟨h1, h2, h3⟩ := ih h hl
        refine ⟨by rw [h1, tableArtifact_cons, List.append_assoc], fun x hx => ?_, h3⟩
        rcases List.mem_cons.mp hx with rfl | hx
        · unfold lenFieldMax at hlim
          exact ⟨by show c.len ≤ 255; omega, by show code.length ≤ 255; omega⟩
        · exact h2 x hx
      · cases h

/-! ### DESTAB (R204, R206) -/

/-- The symbol of the last record that carries a code. -/
def lastSymbol? (records : List (Symbol × Bits)) (b : Bits) : Option Symbol :=
  (records.reverse.find? (fun e => e.2 == b)).map (·.1)

theorem rebuiltTable_eq (records : List (Symbol × Bits)) :
    rebuiltTable records = (records.map (·.2)).eraseDups.filterMap
      (fun b => (lastSymbol? records b).map (fun c => (b, c))) := by
  unfold rebuiltTable lastSymbol?
  refine List.filterMap_congr (fun b _ => ?_)
  cases records.reverse.find? (fun e => e.2 == b) <;> rfl

theorem lastSymbol?_snoc (records : List (Symbol × Bits)) (e : Symbol × Bits) (b : Bits) :
    lastSymbol? (records ++ [e]) b = if b = e.2 then some e.1 else lastSymbol? records b := by
  unfold lastSymbol?
  rw [List.reverse_append, List.reverse_singleton, List.singleton_append, List.find?_cons]
  by_cases h : b = e.2
  · simp [h]
  · have : (e.2 == b) = false := by simpa using Ne.symm h
    simp [this, h]

theorem lastSymbol?_isSome {records : List (Symbol × Bits)} {b : Bits}
    (h : b ∈ records.map (·.2)) : (lastSymbol? records b).isSome = true := by
  obtain ⟨e, he, rfl⟩ := List.mem_map.mp h
  unfold lastSymbol?
  rw [Option.isSome_map, List.find?_isSome]
  exact ⟨e, by simpa using he, by simp⟩

theorem replaceSymbol_filterMap {l : List Bits} (hl : l.Nodup) (g : Bits → Option Symbol)
    (hg : ∀ b ∈ l, (g b).isSome = true) (code : Bits) (c : Symbol) :
    replaceSymbol code c (l.filterMap (fun b => (g b).map (fun c => (b, c)))) =
      if code ∈ l then
        some (l.filterMap (fun b => (if b = code then some c else g b).map (fun c => (b, c))))
      else none := by
  induction l with
  | nil => rfl
  | cons x xs ih =>
    rw [List.nodup_cons] at hl
    obtain ⟨d, hd⟩ := Option.isSome_iff_exists.mp (hg x (by simp))
    have ih := ih hl.2 (fun b hb => hg b (List.mem_cons_of_mem _ hb))
    rw [List.filterMap_cons_some (by rw [hd]; rfl), replaceSymbol]
    by_cases hx : x = code
    · subst hx
      rw [if_pos rfl, if_pos (by simp), List.filterMap_cons_some (by rw [if_pos rfl]; rfl)]
      congr 2
      refine List.filterMap_congr (fun y hy => ?_)
      rw [if_neg (by rintro rfl; exact hl.1 hy)]
    · rw [if_neg hx, ih]
      by_cases hc : code ∈ xs
      · rw [if_pos hc, if_pos (by simp [hc]),
          List.filterMap_cons_some (by rw [if_neg hx, hd]; rfl)]
        rfl
      · rw [if_neg hc, if_neg (by simp [hc, Ne.symm hx])]
        rfl

/-- One record more: the symbol of its code is replaced, or it gets a new entry at the end. -/
theorem rebuiltTable_snoc (records : List (Symbol × Bits)) (e : Symbol × Bits) :
    (e.2 ∈ records.map (·.2) ∧
      replaceSymbol e.2 e.1 (rebuiltTable records) = some (rebuiltTable (records ++ [e]))) ∨
    (e.2 ∉ records.map (·.2) ∧ replaceSymbol e.2 e.1 (rebuiltTable records) = none ∧
      rebuiltTable (records ++ [e]) = rebuiltTable records ++ [(e.2, e.1)]) := by
  have hrep := replaceSymbol_filterMap (nodup_eraseDups (records.map (·.2))) (lastSymbol? records)
    (fun b hb => lastSymbol?_isSome (List.mem_eraseDups.mp hb)) e.2 e.1
  rw [← rebuiltTable_eq] at hrep
  simp only [List.mem_eraseDups] at hrep
  by_cases h : e.2 ∈ records.map (·.2)
  · refine .inl ⟨h, ?_⟩
    rw [hrep, if_pos h, rebuiltTable_eq, List.map_append, List.map_singleton, eraseDups_snoc,
      if_pos h]
    simp only [lastSymbol?_snoc]
  · refine .inr ⟨h, by rw [hrep, if_neg h], ?_⟩
    rw [rebuiltTable_eq, List.map_append, List.map_singleton, eraseDups_snoc, if_neg h,
      List.filterMap_append, rebuiltTable_eq]
    congr 1
    · refine List.filterMap_congr (fun b hb => ?_)
      rw [lastSymbol?_snoc, if_neg (by rintro rfl; exact h (List.mem_eraseDups.mp hb))]
    · simp [lastSymbol?_snoc]

theorem rebuiltTable_keys (records : List (Symbol × Bits)) :
    (rebuiltTable records).map (·.1) = (records.map (·.2)).eraseDups := by
  induction records using List.reverseRecOn with
  | nil => rfl
  | append_singleton rs e ih =>
    have hkeys : ∀ (l l' : List (Bits × Symbol)), replaceSymbol e.2 e.1 l = some l' →
        l'.map (·.1) = l.map (·.1) := by
      intro l
      induction l with
      | nil => intro l' h; cases h
      | cons x xs ihx =>
        intro l' h
        unfold replaceSymbol at h
        split at h
        · next hx => cases h; simp [hx]
        · obtain ⟨m, hm, rfl⟩ := Option.map_eq_some_iff.mp h
          simp [ihx m hm]
    rw [List.map_append, List.map_singleton, eraseDups_snoc]
    rcases rebuiltTable_snoc rs e with ⟨h, h1⟩ | ⟨h, -, h1⟩
    · rw [if_pos h, hkeys _ _ h1, ih]
    · rw [if_neg h, h1, List.map_append, ih]; rfl

/-- DESTAB's loop over whole records that fit (R204, R206). -/
theorem destabLoop_records {p : Params} (records : List (Symbol × Bits)) (bs : List Byte)
    (done : List (Symbol × Bits)) {rounds : Nat}
    (hr : (tableArtifact records ++ bs).length ≤ rounds)
    (hf : ∀ e ∈ records, FitsFormat e ∧ e.2 ≠ [])
    (hsym : symbolsFit p (records.map (·.1)) = true)
    (hcap : p.nsymMax.admits ((done ++ records).map (·.2)).eraseDups.length = true) :
    ∃ rounds', bs.length ≤ rounds' ∧
      destabLoop p rounds (tableArtifact records ++ bs) (rebuiltTable done) =
        destabLoop p rounds' bs (rebuiltTable (done ++ records)) := by
  induction records generalizing done rounds with
  | nil => exact ⟨rounds, by simpa [tableArtifact] using hr, by simp [tableArtifact]⟩
  | cons e es ih =>
    obtain ⟨c, code⟩ := e
    obtain ⟨hfit, hne⟩ := hf (c, code) (by simp)
    simp only [symbolsFit, List.map_cons, List.all_cons, Bool.and_eq_true] at hsym
    rw [tableArtifact_cons, List.append_assoc] at hr ⊢
    have hlen : (tableRecord c code).length = 2 + c.len + code.length := tableRecord_length c code
    rw [List.length_append, hlen] at hr
    obtain ⟨n, rfl⟩ : ∃ n, rounds = n + 1 := ⟨rounds - 1, by omega⟩
    have happ : done ++ (c, code) :: es = (done ++ [(c, code)]) ++ es := by simp
    obtain ⟨b, bs', hb⟩ : ∃ b bs', tableRecord c code ++ (tableArtifact es ++ bs) = b :: bs' :=
      ⟨_, _, rfl⟩
    have hread : readRecord (b :: bs') = some (c, code, tableArtifact es ++ bs) := by
      rw [← hb]; exact readRecord_tableRecord _ hfit hne
    rw [happ] at hcap
    obtain ⟨r', hr', heq⟩ := ih (done ++ [(c, code)]) (rounds := n) (by omega)
      (fun x hx => hf x (List.mem_cons_of_mem _ hx)) hsym.2 hcap
    refine ⟨r', hr', ?_⟩
    simp only
    rw [happ, ← heq, hb, destabLoop]
    simp only [hread, hsym.1, if_true]
    rcases rebuiltTable_snoc done (c, code) with ⟨h, h1⟩ | ⟨h, h1, h2⟩
    · simp only [h1]
    · simp only [h1]
      rw [memAppend_of_admits, h2]
      have hk : (rebuiltTable done ++ [(code, c)]).length
          = ((done ++ [(c, code)]).map (·.2)).eraseDups.length := by
        rw [← rebuiltTable_keys, ← h2, List.length_map]
      rw [List.length_append] at hk
      rw [hk]
      refine Bound.admits_mono ?_ hcap
      rw [List.map_append (l₁ := done ++ _)]
      exact eraseDups_length_le_append _ _

/-- What DESTAB's loop leaves, when it ends normally (R28, R204). -/
theorem destabLoop_ok {p : Params} {rounds : Nat} {bs : List Byte}
    {inv out : List (Bits × Symbol)} (h : destabLoop p rounds bs inv = .ok out)
    (hcap : p.nsymMax.admits inv.length = true) (hnd : (inv.map (·.1)).Nodup)
    (hlen : ∀ e ∈ inv, 1 ≤ e.1.length ∧ e.1.length ≤ 255)
    (hsym : symbolsFit p (inv.map (·.2)) = true) :
    p.nsymMax.admits out.length = true ∧ (out.map (·.1)).Nodup ∧
      (∀ e ∈ out, 1 ≤ e.1.length ∧ e.1.length ≤ 255) ∧ symbolsFit p (out.map (·.2)) = true := by
  induction rounds generalizing bs inv with
  | zero =>
    cases bs with
    | nil => cases h; exact ⟨hcap, hnd, hlen, hsym⟩
    | cons => cases h
  | succ n ih =>
    cases bs with
    | nil => cases h; exact ⟨hcap, hnd, hlen, hsym⟩
    | cons b bs =>
      unfold destabLoop at h
      split at h
      · cases h
      · next c code rest hread =>
        obtain ⟨-, hc1, hc2⟩ := readRecord_some hread
        split at h
        · next hfit =>
          split at h
          · next inv' hrep =>
            have key : ∀ (l l' : List (Bits × Symbol)), replaceSymbol code c l = some l' →
                l'.map (·.1) = l.map (·.1) ∧ (∀ e ∈ l', e.1 = code ∨ e ∈ l) ∧
                (∀ e ∈ l', e.2 = c ∨ e ∈ l) := by
              intro l
              induction l with
              | nil => intro l' h; cases h
              | cons x xs ihx =>
                intro l' h
                unfold replaceSymbol at h
                split at h
                · next hx =>
                  cases h
                  refine ⟨by simp [hx], ?_, ?_⟩ <;>
                  · intro e he
                    rcases List.mem_cons.mp he with rfl | he
                    · exact .inl rfl
                    · exact .inr (List.mem_cons_of_mem _ he)
                · obtain ⟨m, hm, rfl⟩ := Option.map_eq_some_iff.mp h
                  obtain ⟨h1, h2, h3⟩ := ihx m hm
                  refine ⟨by simp [h1], ?_, ?_⟩ <;>
                  · intro e he
                    rcases List.mem_cons.mp he with rfl | he
                    · exact .inr (by simp)
                    · first
                        | exact (h2 e he).imp id (List.mem_cons_of_mem _)
                        | exact (h3 e he).imp id (List.mem_cons_of_mem _)
            obtain ⟨k1, k2, k3⟩ := key _ _ hrep
            have hl : inv'.length = inv.length := by
              have := congrArg List.length k1
              simpa using this
            refine ih h (by rw [hl]; exact hcap) (by rw [k1]; exact hnd) ?_ ?_
            · intro e he
              rcases k2 e he with h | h
              · rw [h]; exact ⟨hc1, hc2⟩
              · exact hlen e h
            · simp only [symbolsFit, List.all_map, List.all_eq_true] at hsym ⊢
              intro e he
              rcases k3 e he with h | h
              · simp only [Function.comp, h]; exact hfit
              · exact hsym e h
          · next hrep =>
            split at h
            · next inv' hm =>
              obtain ⟨rfl, hcap'⟩ := memAppend_ok hm
              have key : ∀ l : List (Bits × Symbol), replaceSymbol code c l = none →
                  code ∉ l.map (·.1) := by
                intro l
                induction l with
                | nil => intro _; simp
                | cons x xs ihx =>
                  intro h
                  unfold replaceSymbol at h
                  split at h
                  · cases h
                  · next hx =>
                    rw [Option.map_eq_none_iff] at h
                    simpa [Ne.symm hx] using ihx h
              refine ih h hcap' ?_ ?_ ?_
              · rw [List.map_append, List.map_singleton, List.nodup_append]
                refine ⟨hnd, by simp, ?_⟩
                rintro a ha b hb rfl
                rw [List.mem_singleton] at hb
                subst hb
                exact key _ hrep ha
              · intro e he
                rcases List.mem_append.mp he with he | he
                · exact hlen e he
                · rw [List.mem_singleton.mp he]; exact ⟨hc1, hc2⟩
              · simp only [symbolsFit, List.map_append, List.all_append, Bool.and_eq_true] at hsym ⊢
                exact ⟨hsym, by simpa using hfit⟩
            · cases h
        · cases h

/-- A prefix code is rebuilt as its inverse (R208). -/
theorem rebuilt_prefix {t : List (Sys2Proof.Symbol × Bits)} (h : IsPrefixCode t) :
    rebuiltTable t = inverseTable t := by
  induction t using List.reverseRecOn with
  | nil => rfl
  | append_singleton l e ih =>
    have hl : IsPrefixCode l := ⟨fun x hx => h.1 x (by simp [hx]), (List.pairwise_append.mp h.2).1⟩
    have hno : e.2 ∉ l.map (·.2) := by
      intro hm
      obtain ⟨x, hx, hxe⟩ := List.mem_map.mp hm
      have := (List.pairwise_append.mp h.2).2.2 x hx e (by simp)
      rw [hxe] at this
      exact this.1 (List.prefix_refl _)
    rcases rebuiltTable_snoc l e with ⟨h1, -⟩ | ⟨-, -, h2⟩
    · exact absurd h1 hno
    · rw [h2, ih hl]; simp [inverseTable]

/-- Whole records within the format are rebuilt, or the capacity stops DESTAB. -/
theorem destab_records_cap {p : Params} (records : List (Sys2Proof.Symbol × Bits))
    (done : List (Sys2Proof.Symbol × Bits)) {rounds : Nat}
    (hr : (tableArtifact records).length ≤ rounds)
    (hf : ∀ e ∈ records, FitsFormat e ∧ e.2 ≠ []) :
    destabLoop p rounds (tableArtifact records) (rebuiltTable done) = .ok (rebuiltTable (done ++ records)) ∨
    destabLoop p rounds (tableArtifact records) (rebuiltTable done) = .error (.raise .capacity) := by
  induction records generalizing done rounds with
  | nil => left; cases rounds <;> simp [tableArtifact, destabLoop]
  | cons e es ih =>
    obtain ⟨c, code⟩ := e
    obtain ⟨hfit, hne⟩ := hf (c, code) (by simp)
    rw [tableArtifact_cons] at hr ⊢
    have hlen : (tableRecord c code).length = 2 + c.len + code.length := tableRecord_length c code
    rw [List.length_append, hlen] at hr
    obtain ⟨n, rfl⟩ : ∃ n, rounds = n + 1 := ⟨rounds - 1, by omega⟩
    have happ : done ++ (c, code) :: es = (done ++ [(c, code)]) ++ es := by simp
    obtain ⟨b, bs', hb⟩ : ∃ b bs', tableRecord c code ++ tableArtifact es = b :: bs' := ⟨_, _, rfl⟩
    have hread : readRecord (b :: bs') = some (c, code, tableArtifact es) := by
      rw [← hb]; exact readRecord_tableRecord _ hfit hne
    have ih := ih (done ++ [(c, code)]) (rounds := n) (by omega) (fun x hx => hf x (List.mem_cons_of_mem _ hx))
    simp only
    rw [happ, hb, destabLoop]
    simp only [hread]
    split
    · rcases rebuiltTable_snoc done (c, code) with ⟨h, h1⟩ | ⟨h, h1, h2⟩
      · simp only [h1]; exact ih
      · simp only [h1]
        cases hm : memAppend p.nsymMax (rebuiltTable done) [(code, c)] with
        | error e => right; simp only; rw [(memAppend_error hm).1]
        | ok l => 
          have := (memAppend_ok hm).1
          simp only; rw [this, ← h2]; exact ih
    · right; rfl

/-- SERDATA's artifact is well-formed (R103). -/
theorem dataArtifact_wellFormed (b : Bits) : wellFormedData (dataArtifact b) = true := by
  obtain ⟨h1, h2⟩ := padOf_spec b.length
  have hu := (unpack_padded b).2
  have hp : (u8 (padOf b.length)).toNat = padOf b.length := u8_toNat (by omega)
  simp only [dataArtifact, wellFormedData, decide_eq_true_eq, hp]
  omega

/-- The table artifact of pairs within the format, none with an empty code, is well-formed (R103). -/
theorem tableArtifact_wellFormed {table : List (Symbol × Bits)}
    (h : ∀ e ∈ table, FitsFormat e ∧ e.2 ≠ []) : WellFormedCtab (tableArtifact table) :=
  ⟨table, rfl, h⟩

end Sys2Proof.Machine
end

