-- ==== Sys2Proof/Laws/Memory.lean ====
section
/-! SUPPORT. Every operation over the address spaces keeps them within their capacities
(`Memory.wf`; spec/20_memory.md R61, R62), one lemma per operation, and reset leaves them so. -/

namespace Sys2Proof.Machine

/-- What `Memory.wf` says, space by space. -/
theorem Memory.wf_iff {p : Params} {m : Memory} : m.wf p = true ↔
    p.textMax.admits m.text.length = true ∧ p.nsymMax.admits m.freq.length = true ∧
    p.nnodeMax.admits m.node.length = true ∧ p.nnodeMax.admits m.heap.length = true ∧
    p.nsymMax.admits m.code.length = true ∧ p.nsymMax.admits m.inv.length = true ∧
    p.bitsMax.admits m.bits.length = true ∧ p.dataMax.admits m.data.length = true ∧
    p.ctabMax.admits m.ctab.length = true ∧ p.textMax.admits m.out.length = true := by
  simp only [Memory.wf, Bool.and_eq_true, and_assoc]

/-- What `paramsLegal` says, constraint by constraint (R6, D2, D3). -/
theorem paramsLegal_iff {p : Params} : paramsLegal p = true ↔
    atLeastOne p.symlenMax = true ∧ atLeastOne p.textMax = true ∧ atLeastOne p.nsymMax = true ∧
    atLeastOne p.bitsMax = true ∧ atLeastOne p.dataMax = true ∧ atLeastOne p.ctabMax = true ∧
    atLeastOne p.wFreq = true ∧ nodeIndicesFit p.nsymMax = true ∧
    textCountsFit p.wFreq p.textMax = true := by
  simp only [paramsLegal, Bool.and_eq_true, and_assoc]

theorem positive_atLeastOne (b : Bound) : atLeastOne b.positive = true := by
  cases b <;> simp [Bound.positive, atLeastOne]

theorem positive_of_atLeastOne {b : Bound} (h : atLeastOne b = true) : b.positive = b := by
  cases b <;> simp_all [Bound.positive, atLeastOne]

theorem between_spec (b : Bound) :
    atLeastOne (b.between 1 nsymTop) = true ∧ nodeIndicesFit (b.between 1 nsymTop) = true := by
  cases b
  · simp [Bound.between, nsymTop, atLeastOne, nodeIndicesFit]
    omega
  · exact ⟨rfl, rfl⟩

theorem between_of_fits {b : Bound} (h : atLeastOne b = true) (hn : nodeIndicesFit b = true) :
    b.between 1 nsymTop = b := by
  cases b with
  | inf => rfl
  | fin n =>
    simp only [atLeastOne, nodeIndicesFit, decide_eq_true_eq] at h hn
    simp only [Bound.between, nsymTop, Bound.fin.injEq]
    omega

theorem below_spec {t w : Bound} (ht : atLeastOne t = true) (hw : atLeastOne w = true) :
    atLeastOne (t.below w) = true ∧ textCountsFit w (t.below w) = true := by
  cases w with
  | inf => exact ⟨ht, rfl⟩
  | fin w =>
    simp only [atLeastOne, decide_eq_true_eq] at hw
    have := Nat.pow_le_pow_right (n := 2) (by decide) hw
    cases t <;> simp [Bound.below, atLeastOne, textCountsFit] at ht ⊢ <;> omega

theorem below_of_fits {t w : Bound} (h : textCountsFit w t = true) : t.below w = t := by
  cases w with
  | inf => rfl
  | fin w =>
    cases t with
    | inf => cases h
    | fin n =>
      simp only [textCountsFit, decide_eq_true_eq] at h
      simp only [Bound.below, Bound.fin.injEq]
      omega

/-- Whatever the opaque parameters are, those of the machine are legal. -/
theorem legalise_legal (p : Params) : paramsLegal p.legalise = true := by
  obtain ⟨ht, hw⟩ := below_spec (positive_atLeastOne p.textMax) (positive_atLeastOne p.wFreq)
  obtain ⟨hn, hi⟩ := between_spec p.nsymMax
  exact paramsLegal_iff.mpr ⟨positive_atLeastOne _, ht, hn, positive_atLeastOne _,
    positive_atLeastOne _, positive_atLeastOne _, positive_atLeastOne _, hi, hw⟩

/-- Every legal setting is a possible setting of the machine. -/
theorem legalise_of_legal {p : Params} (h : paramsLegal p = true) : p.legalise = p := by
  obtain ⟨h1, h2, h3, h4, h5, h6, h7, h8, h9⟩ := paramsLegal_iff.mp h
  simp only [Params.legalise, positive_of_atLeastOne h1, positive_of_atLeastOne h2,
    positive_of_atLeastOne h4, positive_of_atLeastOne h5, positive_of_atLeastOne h6,
    positive_of_atLeastOne h7, between_of_fits h3 h8, below_of_fits h9]

/-- The memory that reset leaves. -/
theorem reset_memory_wf : State.reset.mem.wf State.reset.params = true := by
  simp [Memory.wf_iff, State.reset]

/-! ### The frame of a command or load -/

section frame
variable {s : State} (h : s.mem.wf s.params = true)
include h

theorem State.invalidate_wf (f : Flag) : (s.invalidate f).mem.wf s.params = true := by
  rw [State.invalidate_mem]
  split
  · rw [Memory.wf_iff] at h ⊢
    simp [h]
  · exact h

theorem State.invalidateOutput_wf (out : Option Flag) :
    (s.invalidateOutput out).mem.wf s.params = true := by
  cases out with
  | none => exact h
  | some f => exact State.invalidate_wf h f

theorem State.spoil_wf (f : Flag) : (s.spoil f).mem.wf s.params = true := by
  rw [Memory.wf_iff] at h ⊢
  cases f <;> simp [State.spoil, h, Bound.admits_clip]

theorem State.spoilOutput_wf (out : Option Flag) :
    (s.spoilOutput out).mem.wf s.params = true := by
  cases out with
  | none => exact h
  | some f => cases f <;> exact State.spoil_wf h _

theorem State.commitOutput_wf (out : Option Flag) :
    (s.commitOutput out).mem.wf s.params = true := by
  rw [State.commitOutput_mem]; exact h

theorem State.endWith_wf (c : ResultCode) : (s.endWith c).mem.wf s.params = true := h

end frame

/-! ### The heap procedures -/

theorem siftup_heap_length (f : Nat → Nat) (h : List Nat) (k : Nat) :
    (heapPushRef f h k).length = h.length + 1 := by
  simp [heapPushRef]

theorem heapPush_length {p : Params} {f : Nat → Nat} {h l : List Nat} {k tick : Nat}
    (hp : heapPush p f h k tick = .ok l) :
    l.length = h.length + 1 ∧ p.nnodeMax.admits l.length = true := by
  unfold heapPush at hp
  split at hp
  · cases hp
  · next l' hl =>
    obtain ⟨rfl, hcap⟩ := memAppend_ok hl
    rw [List.length_append, List.length_singleton] at hcap
    split at hp
    · cases hp
      rw [siftup_heap_length]; exact ⟨rfl, hcap⟩
    · cases hp
      rw [(anyArrangement_spec (f := f) _ _).1.length_eq, List.length_append,
        List.length_singleton]
      exact ⟨rfl, hcap⟩

theorem heapPop_length {p : Params} {f : Nat → Nat} {h l : List Nat} {v tick : Nat}
    (hp : heapPop p f h tick = .ok (v, l)) : l.length + 1 = h.length := by
  unfold heapPop at hp
  split at hp
  · cases hp
  · next x t =>
    split at hp
    · cases hp
      cases t <;> simp [heapPopRef]
    · cases hp
      have hm := (isMinimal_iff.mp (anyMinimal_spec (f := f) (Config.free tick).choice
        (h := x :: t) (by simp))).1
      rw [(anyArrangement_spec (f := f) _ _).1.length_eq, List.length_erase_of_mem hm]
      simp

theorem heapInit_length (p : Params) (f : Nat → Nat) (n tick : Nat) :
    (heapInit p f n tick).length = n := by
  rw [(heapInit_spec (f := f) p n tick).1.length_eq, List.length_range]

/-! ### The loops -/

theorem countLoop_admits {p : Params} {cs : List Symbol} {l out : List (Symbol × Nat)}
    (h : countLoop p cs l = .ok out) (hl : p.nsymMax.admits l.length = true) :
    p.nsymMax.admits out.length = true := by
  have hbump : ∀ (c : Symbol) (l l' : List (Symbol × Nat)), bumpCount c l = some l' →
      l'.length = l.length := by
    intro c l
    induction l with
    | nil => intro l' h; cases h
    | cons e es ih =>
      intro l' h
      unfold bumpCount at h
      split at h
      · cases h; rfl
      · obtain ⟨m, hm, rfl⟩ := Option.map_eq_some_iff.mp h
        simp [ih m hm]
  induction cs generalizing l with
  | nil => cases h; exact hl
  | cons c cs ih =>
    unfold countLoop at h
    split at h
    · next l' hb => exact ih h (by rw [hbump _ _ _ hb]; exact hl)
    · split at h
      · next l' hm => exact ih h (memAppend_ok hm).2
      · cases h

theorem mergeLoop_admits {p : Params} {rounds : Nat} {w w' : Forest}
    (h : mergeLoop p rounds w = .ok w') (hn : p.nnodeMax.admits w.nodes.length = true)
    (hh : p.nnodeMax.admits w.heap.length = true) :
    p.nnodeMax.admits w'.nodes.length = true ∧ p.nnodeMax.admits w'.heap.length = true := by
  induction rounds generalizing w with
  | zero => cases h; exact ⟨hn, hh⟩
  | succ n ih =>
    unfold mergeLoop at h
    split at h
    · cases h; exact ⟨hn, hh⟩
    · split at h
      · cases h
      · next w1 hm =>
        simp only [mergeOnce] at hm
        split at hm
        · cases hm
        · split at hm
          · cases hm
          · split at hm
            · cases hm
            · next nodes hnodes =>
              split at hm
              · cases hm
              · next h3 hp =>
                cases hm
                exact ih h (memAppend_ok hnodes).2 (heapPush_length hp).2

theorem walk_admits {p : Params} {nodes : List Node} {pops : Nat} {st : List (Nat × Bits)}
    {code out : List (Symbol × Bits)} (h : walk p nodes pops st code = .ok out)
    (hc : p.nsymMax.admits code.length = true) : p.nsymMax.admits out.length = true := by
  induction pops generalizing st code with
  | zero =>
    cases st with
    | nil => cases h; exact hc
    | cons => cases h
  | succ n ih =>
    cases st with
    | nil => cases h; exact hc
    | cons a st =>
      obtain ⟨k, path⟩ := a
      unfold walk at h
      split at h
      · cases h
      · split at h
        · next code' hm => exact ih h (memAppend_ok hm).2
        · cases h
      · exact ih h hc

theorem generate_admits {p : Params} {nodes : List Node} {root : Nat}
    {out : List (Symbol × Bits)} (h : generate p nodes root = .ok out) :
    p.nsymMax.admits out.length = true := by
  unfold generate at h
  split at h
  · cases h
  · exact (memAppend_ok h).2
  · exact walk_admits h (by simp)

theorem destabLoop_admits {p : Params} {rounds : Nat} {bs : List Byte}
    {inv out : List (Bits × Symbol)} (h : destabLoop p rounds bs inv = .ok out)
    (hi : p.nsymMax.admits inv.length = true) : p.nsymMax.admits out.length = true := by
  have hrep : ∀ (b : Bits) (c : Symbol) (l l' : List (Bits × Symbol)),
      replaceSymbol b c l = some l' → l'.length = l.length := by
    intro b c l
    induction l with
    | nil => intro l' h; cases h
    | cons e es ih =>
      intro l' h
      unfold replaceSymbol at h
      split at h
      · cases h; rfl
      · obtain ⟨m, hm, rfl⟩ := Option.map_eq_some_iff.mp h
        simp [ih m hm]
  induction rounds generalizing bs inv with
  | zero =>
    cases bs with
    | nil => cases h; exact hi
    | cons => cases h
  | succ n ih =>
    cases bs with
    | nil => cases h; exact hi
    | cons b bs =>
      unfold destabLoop at h
      split at h
      · cases h
      · split at h
        · split at h
          · next l' hr => exact ih h (by rw [hrep _ _ _ _ hr]; exact hi)
          · split at h
            · next l' hm => exact ih h (memAppend_ok hm).2
            · cases h
        · cases h

/-! ### The body of every command -/

/-- A body that ends normally leaves every space within its capacity, and the parameters as they
were. -/
theorem bodyOf_wf {i : Instr} {s t : State} (h : bodyOf i s = .ok t)
    (hw : s.mem.wf s.params = true) : t.mem.wf s.params = true ∧ t.params = s.params := by
  rw [Memory.wf_iff] at hw ⊢
  cases i with
  | hinit n =>
    obtain ⟨hn, rfl⟩ := hinitBody_ok h
    refine ⟨?_, rfl⟩
    simp only [heapInit_length]
    exact ⟨hw.1, hw.2.1, hw.2.2.1, Bound.admits_mono hn hw.2.2.1, hw.2.2.2.2⟩
  | hpush k =>
    obtain ⟨-, -, l, hp, rfl⟩ := hpushBody_ok h
    refine ⟨?_, rfl⟩
    exact ⟨hw.1, hw.2.1, hw.2.2.1, (heapPush_length hp).2, hw.2.2.2.2⟩
  | hpop =>
    obtain ⟨-, v, l, hp, rfl⟩ := hpopBody_ok h
    refine ⟨?_, rfl⟩
    have := heapPop_length hp
    exact ⟨hw.1, hw.2.1, hw.2.2.1, Bound.admits_mono (by simp only; omega) hw.2.2.2.1, hw.2.2.2.2⟩
  | count =>
    obtain ⟨l, hl, rfl⟩ := countBody_ok h
    refine ⟨?_, rfl⟩
    exact ⟨hw.1, countLoop_admits hl (by simp), hw.2.2⟩
  | build =>
    obtain ⟨-, -, leaves, w, root, rest, hl, hm, hp, rfl⟩ := buildBody_ok h
    refine ⟨?_, rfl⟩
    obtain ⟨hle, hcap⟩ := memAppend_ok hl
    have hlen : s.mem.freq.length ≤ leaves.length := by rw [hle]; simp [leavesOf]
    obtain ⟨h1, h2⟩ := mergeLoop_admits hm hcap
      (by simp only [heapInit_length]; exact Bound.admits_mono hlen hcap)
    have := heapPop_length hp
    exact ⟨hw.1, hw.2.1, h1, Bound.admits_mono (by simp only; omega) h2, hw.2.2.2.2⟩
  | gencodes =>
    obtain ⟨l, hl, rfl⟩ := gencodesBody_ok h
    refine ⟨?_, rfl⟩
    exact ⟨hw.1, hw.2.1, hw.2.2.1, hw.2.2.2.1, generate_admits hl, hw.2.2.2.2.2⟩
  | encode =>
    obtain ⟨l, hl, rfl⟩ := encodeBody_ok h
    refine ⟨?_, rfl⟩
    obtain ⟨a, b, c, d, e, f, -, g⟩ := hw
    exact ⟨a, b, c, d, e, f, (encodeLoop_ok hl (by simp)).2, g⟩
  | decode =>
    obtain ⟨l, hl, rfl⟩ := decodeBody_ok h
    refine ⟨?_, rfl⟩
    obtain ⟨a, b, c, d, e, f, g, i, j, -⟩ := hw
    exact ⟨a, b, c, d, e, f, g, i, j, (decodeLoop_ok hl (by simp) (by simp)).1⟩
  | verify =>
    obtain ⟨-, rfl⟩ := verifyBody_ok h
    exact ⟨hw, rfl⟩
  | serdata =>
    obtain ⟨hc, rfl⟩ := serdataBody_ok h
    refine ⟨?_, rfl⟩
    obtain ⟨a, b, c, d, e, f, g, -, j⟩ := hw
    exact ⟨a, b, c, d, e, f, g, by rw [dataArtifact_length]; exact hc, j⟩
  | sertab =>
    obtain ⟨l, hl, rfl⟩ := sertabBody_ok h
    refine ⟨?_, rfl⟩
    obtain ⟨a, b, c, d, e, f, g, i, -, j⟩ := hw
    exact ⟨a, b, c, d, e, f, g, i, (sertabLoop_ok hl (by simp)).2.2, j⟩
  | desdata =>
    obtain ⟨p, body, -, -, -, hc, rfl⟩ := desdataBody_ok h
    refine ⟨?_, rfl⟩
    obtain ⟨a, b, c, d, e, f, -, g⟩ := hw
    refine ⟨a, b, c, d, e, f, ?_, g⟩
    rw [List.length_take]
    exact Bound.admits_mono (by omega) hc
  | destab =>
    obtain ⟨l, hl, rfl⟩ := destabBody_ok h
    refine ⟨?_, rfl⟩
    obtain ⟨a, b, c, d, e, -, g⟩ := hw
    exact ⟨a, b, c, d, e, destabLoop_admits hl (by simp), g⟩

/-! ### The loads and reset -/

section loads
variable {s : State} (h : s.mem.wf s.params = true)
include h

theorem loadText_wf (v : List Symbol) : (loadText v s).mem.wf s.params = true := by
  unfold loadText
  cases hc : ldtextCheck s.params v with
  | some c => exact State.spoil_wf (s := s.invalidate .text) h .text
  | none =>
    unfold ldtextCheck at hc
    split at hc
    · next hv =>
      rw [Memory.wf_iff] at h ⊢
      rw [Bool.and_eq_true] at hv
      exact ⟨hv.1, h.2⟩
    · cases hc

theorem loadFreq_wf (v : List (Symbol × Nat)) : (loadFreq v s).mem.wf s.params = true := by
  unfold loadFreq
  cases hc : ldfreqCheck s.params v with
  | some c => exact State.spoil_wf (s := s.invalidate .freq) h .freq
  | none =>
    unfold ldfreqCheck at hc
    split at hc
    · split at hc
      · next hv =>
        rw [Memory.wf_iff] at h ⊢
        rw [Bool.and_eq_true] at hv
        exact ⟨h.1, hv.1, h.2.2⟩
      · cases hc
    · cases hc

theorem loadData_wf (v : List Byte) : (loadData v s).mem.wf s.params = true := by
  unfold loadData
  cases hc : lddataCheck s.params v with
  | some c => exact State.spoil_wf (s := s.invalidate .data) h .data
  | none =>
    unfold lddataCheck at hc
    split at hc
    · next hv =>
      rw [Memory.wf_iff] at h ⊢
      obtain ⟨a, b, c, d, e, f, g, -, j⟩ := h
      exact ⟨a, b, c, d, e, f, g, hv, j⟩
    · cases hc

theorem loadCtab_wf (v : List Byte) : (loadCtab v s).mem.wf s.params = true := by
  unfold loadCtab
  cases hc : ldctabCheck s.params v with
  | some c => exact State.spoil_wf (s := s.invalidate .ctab) h .ctab
  | none =>
    unfold ldctabCheck at hc
    split at hc
    · next hv =>
      rw [Memory.wf_iff] at h ⊢
      obtain ⟨a, b, c, d, e, f, g, i, -, j⟩ := h
      exact ⟨a, b, c, d, e, f, g, i, hv, j⟩
    · cases hc

end loads

/-- Reset leaves every space empty. -/
theorem applyReset_wf (s : State) : (applyReset s).mem.wf s.params = true := by
  simp [Memory.wf_iff, applyReset, State.reset]

end Sys2Proof.Machine
end

