-- ==== Sys2Proof/Laws/Frame.lean ====
section
/-! SUPPORT. What a command can do as a whole: the three ways it can end, what its body leaves
unchanged and how it can stop (spec/60_exceptions.md R237 to R239), as rules over all thirteen. -/

namespace Sys2Proof.Machine

/-- A next state of `exec` is one of three: an input was not valid, the body ended well, or it raised. -/
theorem exec_ok {i : Instr} {s t : State} (h : exec i s = .next t) :
    ((neededFlags i).all s.flag = false ∧ t = s.endWith .notReady) ∨
    ((neededFlags i).all s.flag = true ∧ ∃ u, bodyOf i (s.invalidateOutput (outputFlag i)) = .ok u ∧
      t = (u.commitOutput (outputFlag i)).endWith .ok) ∨
    ((neededFlags i).all s.flag = true ∧
      ∃ c, bodyOf i (s.invalidateOutput (outputFlag i)) = .error (.raise c) ∧
      t = ((s.invalidateOutput (outputFlag i)).spoilOutput (outputFlag i)).endWith c) := by
  rw [exec_eq] at h; exact runFrame_next h

/-- What the body of a command leaves unchanged when it ends well. -/
theorem body_frame {i : Instr} {s t : State} (h : bodyOf i s = .ok t) :
    t.ctl = s.ctl ∧ t.params = s.params ∧ t.host = s.host ∧
    (∀ x : Space, x ∉ writtenSpaces i → contentsOf x t = contentsOf x s) ∧
    (i ≠ .build → t.regs.root = s.regs.root) ∧
    (i ≠ .hpop → t.regs.hres = s.regs.hres) ∧
    (i ≠ .serdata → t.regs.pad = s.regs.pad) := by
  cases i with
  | hinit n =>
    obtain ⟨hn, rfl⟩ := hinitBody_ok h
    refine ⟨rfl, rfl, rfl, ?_, by simp, by simp, by simp⟩
    intro x hx; cases x <;> simp [writtenSpaces] at hx <;> rfl
  | hpush k =>
    obtain ⟨-, -, l, hp, rfl⟩ := hpushBody_ok h
    refine ⟨rfl, rfl, rfl, ?_, by simp, by simp, by simp⟩
    intro x hx; cases x <;> simp [writtenSpaces] at hx <;> rfl
  | hpop =>
    obtain ⟨-, v, l, hp, rfl⟩ := hpopBody_ok h
    refine ⟨rfl, rfl, rfl, ?_, by simp, by simp, by simp⟩
    intro x hx; cases x <;> simp [writtenSpaces] at hx <;> rfl
  | count =>
    obtain ⟨l, hl, rfl⟩ := countBody_ok h
    refine ⟨rfl, rfl, rfl, ?_, by simp, by simp, by simp⟩
    intro x hx; cases x <;> simp [writtenSpaces] at hx <;> rfl
  | build =>
    obtain ⟨-, -, leaves, w, root, rest, hl, hm, hp, rfl⟩ := buildBody_ok h
    refine ⟨rfl, rfl, rfl, ?_, by simp, by simp, by simp⟩
    intro x hx; cases x <;> simp [writtenSpaces] at hx <;> rfl
  | gencodes =>
    obtain ⟨l, hl, rfl⟩ := gencodesBody_ok h
    refine ⟨rfl, rfl, rfl, ?_, by simp, by simp, by simp⟩
    intro x hx; cases x <;> simp [writtenSpaces] at hx <;> rfl
  | encode =>
    obtain ⟨l, hl, rfl⟩ := encodeBody_ok h
    refine ⟨rfl, rfl, rfl, ?_, by simp, by simp, by simp⟩
    intro x hx; cases x <;> simp [writtenSpaces] at hx <;> rfl
  | decode =>
    obtain ⟨l, hl, rfl⟩ := decodeBody_ok h
    refine ⟨rfl, rfl, rfl, ?_, by simp, by simp, by simp⟩
    intro x hx; cases x <;> simp [writtenSpaces] at hx <;> rfl
  | verify =>
    obtain ⟨-, rfl⟩ := verifyBody_ok h
    refine ⟨rfl, rfl, rfl, ?_, by simp, by simp, by simp⟩
    intro x hx; cases x <;> simp [writtenSpaces] at hx <;> rfl
  | serdata =>
    obtain ⟨hc, rfl⟩ := serdataBody_ok h
    refine ⟨rfl, rfl, rfl, ?_, by simp, by simp, by simp⟩
    intro x hx; cases x <;> simp [writtenSpaces] at hx <;> rfl
  | sertab =>
    obtain ⟨l, hl, rfl⟩ := sertabBody_ok h
    refine ⟨rfl, rfl, rfl, ?_, by simp, by simp, by simp⟩
    intro x hx; cases x <;> simp [writtenSpaces] at hx <;> rfl
  | desdata =>
    obtain ⟨p, body, -, -, -, hc, rfl⟩ := desdataBody_ok h
    refine ⟨rfl, rfl, rfl, ?_, by simp, by simp, by simp⟩
    intro x hx; cases x <;> simp [writtenSpaces] at hx <;> rfl
  | destab =>
    obtain ⟨l, hl, rfl⟩ := destabBody_ok h
    refine ⟨rfl, rfl, rfl, ?_, by simp, by simp, by simp⟩
    intro x hx; cases x <;> simp [writtenSpaces] at hx <;> rfl

/-- A round of the merge loop leaves one element fewer, and stops only with CapacityError. -/
theorem mergeOnce_len {p : Params} {w : Forest} (h2 : 2 ≤ w.heap.length) :
    (∀ w', mergeOnce p w = .ok w' → w'.heap.length + 1 = w.heap.length) ∧
    (∀ e, mergeOnce p w = .error e → e = .raise .capacity) := by
  obtain ⟨l, h1, hl⟩ := heapPop_succeeds (p := p) (f := freqOf w.nodes) w.tick (h := w.heap)
    (by rintro h; simp [h] at h2)
  have hlen := heapPop_length hl
  obtain ⟨r, h2', hr⟩ := heapPop_succeeds (p := p) (f := freqOf w.nodes) (w.tick + 1) (h := h1)
    (by rintro h; simp [h] at hlen; omega)
  have hlen' := heapPop_length hr
  constructor
  · intro w' h
    simp only [mergeOnce, hl, hr] at h
    split at h
    · cases h
    · split at h
      · cases h
      · next h3 hp => cases h; have := (heapPush_length hp).1; simp only; omega
  · intro e h
    simp only [mergeOnce, hl, hr] at h
    split at h
    · next hm => cases h; exact (memAppend_error hm).1
    · split at h
      · next hm => cases h; exact (heapPush_error hm).1
      · cases h

/-- The merge loop never empties the heap, and stops only with CapacityError. -/
theorem mergeLoop_len {p : Params} (n : Nat) {w : Forest} (h1 : 1 ≤ w.heap.length) :
    (∀ w', mergeLoop p n w = .ok w' → 1 ≤ w'.heap.length) ∧
    (∀ e, mergeLoop p n w = .error e → e = .raise .capacity) := by
  induction n generalizing w with
  | zero => exact ⟨fun w' h => by cases h; exact h1, fun e h => by cases h⟩
  | succ n ih =>
    unfold mergeLoop
    split
    · exact ⟨fun w' h => by cases h; exact h1, fun e h => by cases h⟩
    · obtain ⟨ha, hb⟩ := mergeOnce_len (p := p) (w := w) (by omega)
      cases hm : mergeOnce p w with
      | error e =>
        refine ⟨fun w' h => ?_, fun e' h => ?_⟩
        · cases h
        · cases h; exact hb _ hm
      | ok w1 => exact ih (by have := ha _ hm; omega)

/-- How BUILD can stop. -/
theorem buildBody_err {s : State} {e : Stop} (h : buildBody s = .error e) :
    (e = .raise .emptyInput ∧ s.mem.freq = []) ∨ e = .raise .capacity := by
  simp only [buildBody] at h
  split at h
  · next h0 => cases h; exact .inl ⟨rfl, h0⟩
  · next hne =>
    refine .inr ?_
    have hf : 1 ≤ s.mem.freq.length := List.length_pos_iff.mpr hne
    split at h
    · split at h
      · next hm => cases h; exact (memAppend_error hm).1
      · next leaves hl =>
        have := mergeLoop_len (p := s.params) s.mem.freq.length 
          (w := ⟨leaves, heapInit s.params (freqOf leaves) s.mem.freq.length s.tick, s.tick + 1⟩)
          (by simp only [heapInit_length]; exact hf)
        split at h
        · next hm => cases h; exact this.2 _ hm
        · next w hw =>
          have h1 := this.1 _ hw
          split at h
          · next hp =>
            have := (heapPop_error hp).2
            rw [this] at h1; simp at h1
          · cases h
    · cases h; rfl

/-- How the body of a command can stop, and in which states with which code. -/
theorem body_error {i : Instr} {s : State} {c : ResultCode} (h : bodyOf i s = .error (.raise c)) :
    c ≠ .ok ∧ c ≠ .notReady ∧ (c = .emptyQueue → i = .hpop ∧ s.mem.heap = []) ∧
    (c = .emptyInput → i = .build ∧ s.mem.freq = [])
      ∧ (c ∈ possibleCodes i ∨ (i = .gencodes ∧ c = .capacity)) := by
  cases i with
  | hinit n =>
    simp only [bodyOf, hinitBody] at h
    split at h
    · cases h
    · cases h; simp [possibleCodes]
  | hpush n =>
    simp only [bodyOf, hpushBody] at h
    split at h
    · split at h
      · next hp => obtain ⟨rfl, -⟩ := heapPush_error hp; cases h; simp [possibleCodes]
      · split at h <;> cases h
    · cases h; simp [possibleCodes]
  | hpop =>
    simp only [bodyOf, hpopBody] at h
    split at h
    · next hp => obtain ⟨rfl, h0⟩ := heapPop_error hp; cases h; simp [possibleCodes, h0]
    · split at h <;> cases h
  | count =>
    simp only [bodyOf, countBody] at h
    split at h
    · cases h
    · next hp => have := countLoop_error hp; subst this; cases h; simp [possibleCodes]
  | build =>
    rcases buildBody_err h with ⟨h1, h2⟩ | h1 <;> cases h1 <;> simp [possibleCodes]
    exact h2
  | gencodes =>
    simp only [bodyOf, gencodesBody] at h
    split at h
    · cases h
    · next hp => rcases generate_error hp with h1 | h1 | h1 <;> subst h1 <;> cases h; simp [possibleCodes]
  | encode =>
    simp only [bodyOf, encodeBody] at h
    split at h
    · cases h
    · next hp => rcases encodeLoop_error hp with h1 | h1 <;> subst h1 <;> cases h <;> simp [possibleCodes]
  | decode =>
    simp only [bodyOf, decodeBody] at h
    split at h
    · cases h
    · next hp => rcases decodeLoop_error hp with h1 | h1 <;> subst h1 <;> cases h <;> simp [possibleCodes]
  | verify =>
    simp only [bodyOf, verifyBody] at h
    split at h
    · cases h; simp [possibleCodes]
    · split at h
      · cases h
      · cases h; simp [possibleCodes]
  | serdata =>
    simp only [bodyOf, serdataBody] at h
    split at h
    · cases h
    · cases h; simp [possibleCodes]
  | sertab =>
    simp only [bodyOf, sertabBody] at h
    split at h
    · cases h
    · next hp => rcases sertabLoop_error hp with h1 | h1 <;> subst h1 <;> cases h <;> simp [possibleCodes]
  | desdata =>
    simp only [bodyOf, desdataBody] at h
    split at h
    · cases h; simp [possibleCodes]
    · split at h
      · cases h; simp [possibleCodes]
      · split at h
        · cases h; simp [possibleCodes]
        · split at h
          · cases h
          · cases h; simp [possibleCodes]
  | destab =>
    simp only [bodyOf, destabBody] at h
    split at h
    · cases h
    · next hp => rcases destabLoop_error hp with h1 | h1 <;> subst h1 <;> cases h <;> simp [possibleCodes]

/-- The end of a command with code 0, in one record. -/
theorem next_ok {out : Option Flag} {s u : State} (h : u.ctl = (s.invalidateOutput out).ctl) :
    (u.commitOutput out).endWith .ok = { u with ctl := okControl out s.ctl } := by
  have := endOk_ctl out s u h
  rw [State.mk.injEq]
  refine ⟨by simp, by simp, this, by simp, by simp, by simp⟩

/-- A command whose inputs are valid and whose body ends well. -/
theorem run_ok {i : Instr} {s u : State} (hn : (neededFlags i).all s.flag = true)
   (hb : bodyOf i (s.invalidateOutput (outputFlag i)) = .ok u) :
   exec i s = .next { u with ctl := okControl (outputFlag i) s.ctl } := by
  rw [exec_eq, runFrame_ok hn hb, next_ok (body_frame hb).1]

/-- A command whose inputs are valid and whose body raises. -/
theorem run_err {i : Instr} {s : State} {c : ResultCode} (hn : (neededFlags i).all s.flag = true)
   (hb : bodyOf i (s.invalidateOutput (outputFlag i)) = .error (.raise c)) :
   exec i s = .next { (s.invalidateOutput (outputFlag i)).spoilOutput (outputFlag i) with
     ctl := errControl (outputFlag i) c s.ctl } := by
  rw [exec_eq, runFrame_raise hn hb]
  rw [Host.Outcome.next.injEq, State.mk.injEq]
  refine ⟨by simp, by simp, ?_, by simp, by simp, by simp⟩
  exact endErr_ctl _ _ _ _ (body_error hb).1 (State.spoilOutput_ctl _ _)

end Sys2Proof.Machine
end

