-- ==== Sys2Proof/Laws/Kraft.lean ====
section
/-! SUPPORT. The combinatorics behind the optimality of the codes (spec/41_tree_builder.md R146 item
3, spec/42_code_generator.md R160 item 6): Kraft's inequality for prefix-free lists of bit strings,
and the exchange step of Huffman's theorem on pairs of a weight and a length. -/

namespace Sys2Proof.Machine

/-! ### Kraft's inequality -/

theorem kraft_cons (n : Nat) (l : List Nat) : kraft (n :: l) = (1 / 2 : ℚ) ^ n + kraft l := by
  simp [kraft]

theorem kraft_append (l m : List Nat) : kraft (l ++ m) = kraft l + kraft m := by
  simp [kraft]

theorem kraft_perm {l m : List Nat} (h : l.Perm m) : kraft l = kraft m := (h.map _).sum_eq

theorem kraft_nonneg (l : List Nat) : 0 ≤ kraft l := by
  induction l with
  | nil => simp [kraft]
  | cons n l ih => rw [kraft_cons]; positivity

/-- The rest of a bit string after its first bit, when that bit is `b`. -/
def restAfter (b : Bool) : Bits → Option Bits
  | []      => none
  | c :: cs => if c = b then some cs else none

theorem restAfter_some {b : Bool} {c d : Bits} (h : restAfter b c = some d) : c = b :: d := by
  cases c with
  | nil => cases h
  | cons x xs =>
    simp only [restAfter] at h
    split at h
    · next hx => cases h; rw [hx]
    · cases h

/-- The Kraft sum of non-empty bit strings, by their first bit. -/
theorem kraft_split {l : List Bits} (h : ∀ c ∈ l, c ≠ []) :
    kraft (l.map List.length) =
      (kraft ((l.filterMap (restAfter false)).map List.length) +
        kraft ((l.filterMap (restAfter true)).map List.length)) / 2 := by
  induction l with
  | nil => simp [kraft]
  | cons c l ih =>
    have ih := ih (fun d hd => h d (List.mem_cons_of_mem _ hd))
    cases c with
    | nil => exact absurd rfl (h [] (by simp))
    | cons b c =>
      cases b
      · have e0 : ((false :: c) :: l).filterMap (restAfter false)
            = c :: l.filterMap (restAfter false) := rfl
        have e1 : ((false :: c) :: l).filterMap (restAfter true)
            = l.filterMap (restAfter true) := rfl
        rw [e0, e1]
        simp only [List.map_cons, kraft_cons, ih, List.length_cons, pow_succ]
        ring
      · have e0 : ((true :: c) :: l).filterMap (restAfter false)
            = l.filterMap (restAfter false) := rfl
        have e1 : ((true :: c) :: l).filterMap (restAfter true)
            = c :: l.filterMap (restAfter true) := rfl
        rw [e0, e1]
        simp only [List.map_cons, kraft_cons, ih, List.length_cons, pow_succ]
        ring

/-- Kraft's inequality: no bit string of the list is a prefix of another one. -/
theorem kraft_le_one (n : Nat) : ∀ l : List Bits, (∀ c ∈ l, c.length ≤ n) →
    l.Pairwise (fun a b => ¬ a <+: b ∧ ¬ b <+: a) → kraft (l.map List.length) ≤ 1 := by
  have hempty : ∀ l : List Bits, [] ∈ l → l.Pairwise (fun a b => ¬ a <+: b ∧ ¬ b <+: a) →
      kraft (l.map List.length) ≤ 1 := by
    intro l hl hp
    cases l with
    | nil => cases hl
    | cons c cs =>
      cases cs with
      | nil =>
        rw [List.mem_singleton] at hl
        subst hl
        simp [kraft]
      | cons d ds =>
        exfalso
        rw [List.pairwise_cons] at hp
        rcases List.mem_cons.mp hl with rfl | hl
        · exact (hp.1 d (by simp)).1 (List.nil_prefix)
        · exact (hp.1 [] hl).2 (List.nil_prefix)
  induction n with
  | zero =>
    intro l hlen hp
    cases l with
    | nil => simp [kraft]
    | cons c cs =>
      have : c = [] := List.length_eq_zero_iff.mp (by have := hlen c (by simp); omega)
      subst this
      exact hempty _ (by simp) hp
  | succ n ih =>
    intro l hlen hp
    by_cases he : [] ∈ l
    · exact hempty l he hp
    · rw [kraft_split (fun c hc h => he (h ▸ hc))]
      have key : ∀ b, kraft ((l.filterMap (restAfter b)).map List.length) ≤ 1 := by
        intro b
        refine ih _ (fun d hd => ?_) ?_
        · obtain ⟨c, hc, hcd⟩ := List.mem_filterMap.mp hd
          have := hlen c hc
          rw [restAfter_some hcd, List.length_cons] at this
          omega
        · refine List.Pairwise.filterMap _ ?_ hp
          intro c d hcd c' hc' d' hd'
          rw [restAfter_some hc', restAfter_some hd'] at hcd
          simpa [List.cons_prefix_cons] using hcd
      have h0 := key false
      have h1 := key true
      linarith

/-- The Kraft sum of lengths up to `k` is a whole number of `1 / 2 ^ k`. -/
theorem kraft_whole {k : Nat} {l : List Nat} (h : ∀ n ∈ l, n ≤ k) :
    ∃ m : Nat, kraft l * 2 ^ k = m := by
  induction l with
  | nil => exact ⟨0, by simp [kraft]⟩
  | cons n l ih =>
    obtain ⟨m, hm⟩ := ih (fun x hx => h x (List.mem_cons_of_mem _ hx))
    refine ⟨2 ^ (k - n) + m, ?_⟩
    have hn : n ≤ k := h n (by simp)
    have hp : (1 / 2 : ℚ) ^ n * 2 ^ k = 2 ^ (k - n) := by
      rw [show k = (k - n) + n by omega, pow_add, Nat.add_sub_cancel, one_div, inv_pow]
      field_simp
    rw [kraft_cons, add_mul, hm, hp]
    push_cast
    ring

/-! ### Weights and lengths -/

/-- The weighted length of pairs of a weight and a length. -/
def weighted (l : List (Nat × Nat)) : Nat := (l.map (fun e => e.1 * e.2)).sum

theorem weighted_cons (e : Nat × Nat) (l : List (Nat × Nat)) :
    weighted (e :: l) = e.1 * e.2 + weighted l := by
  simp [weighted]

theorem weighted_perm {l m : List (Nat × Nat)} (h : l.Perm m) : weighted l = weighted m :=
  (h.map _).sum_eq

/-- No lengths with a Kraft sum of at most 1 give the weights a smaller weighted length than
`c`. -/
def Optimal (weights : List Nat) (c : Nat) : Prop :=
  ∀ l : List (Nat × Nat), (l.map (·.1)).Perm weights → kraft (l.map (·.2)) ≤ 1 → c ≤ weighted l

theorem Optimal.perm {w v : List Nat} {c : Nat} (h : Optimal w c) (hp : w.Perm v) : Optimal v c :=
  fun l hl hk => h l (hl.trans hp.symm) hk

theorem optimal_zero (w : List Nat) : Optimal w 0 := fun _ _ _ => Nat.zero_le _

/-- A pair with the weight `a` can be brought to the front. -/
theorem front_of_perm {a : Nat} {w : List Nat} {l : List (Nat × Nat)}
    (h : (l.map (·.1)).Perm (a :: w)) :
    ∃ n m, l.Perm ((a, n) :: m) ∧ (m.map (·.1)).Perm w := by
  have hmem : a ∈ l.map (·.1) := h.mem_iff.mpr (by simp)
  obtain ⟨e, he, rfl⟩ := List.mem_map.mp hmem
  refine ⟨e.2, l.erase e, List.perm_cons_erase he, ?_⟩
  have := ((List.perm_cons_erase he).map (·.1)).symm.trans h
  simpa using this

/-- A list that is not empty has a pair of greatest length. -/
theorem exists_longest {m : List (Nat × Nat)} (h : m ≠ []) : ∃ e ∈ m, ∀ x ∈ m, x.2 ≤ e.2 := by
  induction m with
  | nil => exact absurd rfl h
  | cons a m ih =>
    by_cases hm : m = []
    · subst hm; exact ⟨a, by simp, by simp⟩
    · obtain ⟨e, he, hall⟩ := ih hm
      by_cases hae : a.2 ≤ e.2
      · exact ⟨e, List.mem_cons_of_mem _ he, by
          intro x hx
          rcases List.mem_cons.mp hx with rfl | hx
          · exact hae
          · exact hall x hx⟩
      · exact ⟨a, by simp, by
          intro x hx
          rcases List.mem_cons.mp hx with rfl | hx
          · exact Nat.le_refl _
          · have := hall x hx; omega⟩

/-- Exchange: the smallest weight can be given the greatest length, at no cost. -/
theorem exchange {a n : Nat} {m : List (Nat × Nat)} (ha : ∀ e ∈ m, a ≤ e.1) :
    ∃ n' m', (m'.map (·.1)).Perm (m.map (·.1)) ∧
      (n' :: m'.map (·.2)).Perm (n :: m.map (·.2)) ∧
      weighted ((a, n') :: m') ≤ weighted ((a, n) :: m) ∧ (∀ e ∈ m', e.2 ≤ n') := by
  by_cases hmax : ∀ e ∈ m, e.2 ≤ n
  · exact ⟨n, m, .refl _, .refl _, Nat.le_refl _, hmax⟩
  · obtain ⟨e, he, hgt, hall⟩ : ∃ e ∈ m, n < e.2 ∧ ∀ x ∈ m, x.2 ≤ e.2 := by
      have hne : m ≠ [] := by rintro rfl; exact hmax (by simp)
      obtain ⟨e, he, hall⟩ := exists_longest hne
      refine ⟨e, he, ?_, hall⟩
      by_contra hle
      exact hmax (fun x hx => (hall x hx).trans (by omega))
    have hp := List.perm_cons_erase he
    refine ⟨e.2, (e.1, n) :: m.erase e, ?_, ?_, ?_, ?_⟩
    · exact (hp.map (·.1)).symm
    · simp only [List.map_cons]
      exact (List.Perm.swap _ _ _).trans (((hp.map (fun e : Nat × Nat => e.2)).symm).cons n)
    · have h1 : weighted m = e.1 * e.2 + weighted (m.erase e) := by
        rw [weighted_perm hp, weighted_cons]
      have h2 := ha e he
      simp only [weighted_cons, h1]
      obtain ⟨d, hd⟩ : ∃ d, e.2 = n + d := ⟨e.2 - n, by omega⟩
      rw [hd]
      nlinarith [Nat.mul_le_mul_right d h2]
    · intro x hx
      rcases List.mem_cons.mp hx with rfl | hx
      · exact Nat.le_of_lt hgt
      · exact hall x (List.mem_of_mem_erase hx)

/-- Huffman's step: joining the two smallest weights into one costs their sum. -/
theorem Optimal.join {a b c : Nat} {w : List Nat} (hab : a ≤ b) (hb : ∀ x ∈ w, b ≤ x)
    (h : Optimal ((a + b) :: w) c) : Optimal (a :: b :: w) (c + (a + b)) := by
  intro l hl hk
  -- the smallest weight takes the greatest length
  obtain ⟨n, m, hlm, hm⟩ := front_of_perm hl
  obtain ⟨n1, m1, hm1, hn1, hc1, hmax1⟩ := exchange (a := a) (n := n) (m := m) (by
    intro e he
    have : e.1 ∈ b :: w := hm.mem_iff.mp (List.mem_map_of_mem he)
    rcases List.mem_cons.mp this with hx | hx
    · omega
    · exact hab.trans (hb _ hx))
  -- the next smallest takes the greatest length of the others
  obtain ⟨k, r, hmr, hr⟩ := front_of_perm (hm1.trans hm)
  obtain ⟨k1, r1, hr1, hk1, hc2, hmax2⟩ := exchange (a := b) (n := k) (m := r) (by
    intro e he
    exact hb _ (hr.mem_iff.mp (List.mem_map_of_mem he)))
  have hlens : (n1 :: k1 :: r1.map (·.2)).Perm (l.map (·.2)) := by
    have h1 : (n1 :: k1 :: r1.map (·.2)).Perm (n1 :: m1.map (·.2)) :=
      (hk1.trans (hmr.map (fun e : Nat × Nat => e.2)).symm).cons n1
    exact h1.trans (hn1.trans (hlm.map (fun e : Nat × Nat => e.2)).symm)
  rw [← kraft_perm hlens, kraft_cons] at hk
  have hk1n1 : k1 ≤ n1 := by
    have hmem : k1 ∈ k :: r.map (·.2) := hk1.mem_iff.mp (by simp)
    have hmem' : k1 ∈ m1.map (·.2) := (hmr.map (·.2)).mem_iff.mpr hmem
    obtain ⟨e, he, rfl⟩ := List.mem_map.mp hmem'
    exact hmax1 e he
  have hcost : weighted ((a, n1) :: (b, k1) :: r1) ≤ weighted l := by
    rw [weighted_perm hlm]
    refine le_trans ?_ hc1
    have hm1w : weighted m1 = weighted ((b, k) :: r) := weighted_perm hmr
    simp only [weighted_cons] at hc2 hm1w ⊢
    omega
  -- shorten the first to the second
  have hall : ∀ x ∈ k1 :: r1.map (·.2), x ≤ k1 := by
    intro x hx
    rcases List.mem_cons.mp hx with rfl | hx
    · exact Nat.le_refl _
    · obtain ⟨e, he, rfl⟩ := List.mem_map.mp hx
      exact hmax2 e he
  obtain ⟨t, ht⟩ := kraft_whole hall
  have hpow : (0 : ℚ) < 2 ^ k1 := by positivity
  have hhalf : (1 / 2 : ℚ) ^ k1 * 2 ^ k1 = 1 := by
    rw [← mul_pow]; norm_num
  have hlt : kraft (k1 :: r1.map (·.2)) < 1 := by
    have : (0 : ℚ) < (1 / 2 : ℚ) ^ n1 := by positivity
    linarith
  have ht1 : t + 1 ≤ 2 ^ k1 := by
    have : (t : ℚ) < 2 ^ k1 := by
      rw [← ht]; nlinarith
    exact_mod_cast this
  have hk2 : (1 / 2 : ℚ) ^ k1 + kraft (k1 :: r1.map (·.2)) ≤ 1 := by
    have h2 : ((t : ℚ) + 1) ≤ 2 ^ k1 := by exact_mod_cast ht1
    have h3 : ((1 / 2 : ℚ) ^ k1 + kraft (k1 :: r1.map (·.2))) * 2 ^ k1 ≤ 1 * 2 ^ k1 := by
      rw [add_mul, hhalf, ht]; linarith
    exact le_of_mul_le_mul_right h3 hpow
  -- join them
  rw [kraft_cons] at hk2
  obtain ⟨j, rfl⟩ : ∃ j, k1 = j + 1 := by
    cases k1 with
    | zero =>
      have := kraft_nonneg (r1.map (·.2))
      norm_num at hk2
      linarith
    | succ j => exact ⟨j, rfl⟩
  have hfin := h ((a + b, j) :: r1) (((hr1.trans hr).cons _)) (by
    simp only [List.map_cons, kraft_cons]
    rw [pow_succ] at hk2
    linarith)
  have hle : a * (j + 1) ≤ a * n1 := Nat.mul_le_mul_left a hk1n1
  simp only [weighted_cons] at hfin hcost
  nlinarith

end Sys2Proof.Machine
end

