-- ==== Sys2Proof/Laws/Huffman.lean ====
section
/-! SUPPORT. The weights and lengths of the codes that BUILD and GENCODES make: the sum of the
merged frequencies is their total (spec/41_tree_builder.md R146, spec/42_code_generator.md R160
items 5 to 7), and no lengths with a Kraft sum of at most 1 give less. -/

namespace Sys2Proof.Machine

/-! ### The merges are optimal -/

/-- The frequency of a node that a merge has made; 0 for a leaf. -/
def mergeFreq : Node → Nat
  | .leaf _ _       => 0
  | .internal _ _ f => f

/-- The sum of the frequencies of the internal nodes. -/
def internalSum (nodes : List Node) : Nat := (nodes.map mergeFreq).sum

theorem internalSum_leavesOf (freq : List (Symbol × Nat)) : internalSum (leavesOf freq) = 0 := by
  induction freq with
  | nil => rfl
  | cons e es ih =>
    simp only [internalSum, leavesOf, List.map_cons, List.sum_cons, mergeFreq] at ih ⊢
    omega

/-- What the merge loop adds to the internal frequencies is optimal for the frequencies in the
heap (R146 item 3). -/
theorem mergeLoop_optimal {p : Params} {freq : List (Symbol × Nat)}
    (hn : p.nnodeMax.admits (2 * freq.length - 1) = true) (rounds : Nat) {w w' : Forest}
    (g : Growing freq w) (h : mergeLoop p rounds w = .ok w') :
    ∃ c, internalSum w'.nodes = internalSum w.nodes + c ∧
      Optimal (w.heap.map (freqOf w.nodes)) c := by
  induction rounds generalizing w with
  | zero => cases h; exact ⟨0, rfl, optimal_zero _⟩
  | succ n ih =>
    unfold mergeLoop at h
    split at h
    · cases h; exact ⟨0, rfl, optimal_zero _⟩
    · have h2 : 2 ≤ w.heap.length := by omega
      have hsize := g.size
      have henough := g.enough
      obtain ⟨l, r, rest, w1, hm, hnodes, hlmin, hrmin, hperm, hrest, hheap, -⟩ :=
        mergeOnce_spec h2 g.inRange g.ordered
          (Bound.admits_mono (by omega) hn) (Bound.admits_mono (by omega) hn)
      obtain ⟨w1', hm', g1, -⟩ := g.mergeOnce h2 hn
      have hw : w1' = w1 := by rw [hm] at hm'; cases hm'; rfl
      subst hw
      rw [hm] at h
      obtain ⟨c, hc, hopt⟩ := ih g1 h
      have hr : ∀ k ∈ rest, k < w.nodes.length := fun k hk =>
        g.inRange k (hperm.mem_iff.mpr (by simp [hk]))
      rw [isMinimal_iff] at hlmin hrmin
      have hwp : (w1'.heap.map (freqOf w1'.nodes)).Perm
          ((freqOf w.nodes l + freqOf w.nodes r) :: rest.map (freqOf w.nodes)) := by
        refine (hheap.map _).trans ?_
        rw [List.map_cons, hnodes, freqOf_snoc]
        have : rest.map (freqOf (w.nodes ++ [.internal l r (freqOf w.nodes l + freqOf w.nodes r)]))
            = rest.map (freqOf w.nodes) :=
          List.map_congr_left (fun k hk => freqOf_append _ (hr k hk))
        rw [this]
        exact .refl _
      refine ⟨c + (freqOf w.nodes l + freqOf w.nodes r), ?_, ?_⟩
      · rw [hc, hnodes]
        simp only [internalSum, List.map_append, List.sum_append, List.map_cons, List.map_nil,
          List.sum_cons, List.sum_nil, mergeFreq]
        omega
      · have hj := (hopt.perm hwp).join (hlmin.2 r (List.mem_of_mem_erase hrmin.1)) (by
          intro x hx
          obtain ⟨k, hk, rfl⟩ := List.mem_map.mp hx
          exact hrmin.2 k (List.mem_of_mem_erase (hrest.mem_iff.mp hk)))
        exact hj.perm (hperm.map (freqOf w.nodes)).symm

/-! ### The codes of a tree -/

/-- The internal frequency of the node at an index. -/
def mergeFreqAt (nodes : List Node) (k : Nat) : Nat := ((nodeAt nodes k).map mergeFreq).getD 0

theorem internalSum_eq (nodes : List Node) :
    internalSum nodes = ((List.range nodes.length).map (mergeFreqAt nodes)).sum := by
  rw [internalSum]
  congr 1
  apply List.ext_getElem (by simp)
  intro i h1 h2
  simp only [List.length_map] at h1
  simp [mergeFreqAt, nodeAt, h1]

/-- The frequency of a merge is the sum of its children's (R24 item 1). -/
theorem IsTree.merge_freq {nodes : List Node} {root k l r f : Nat} (ht : IsTree nodes root)
    (h : nodeAt nodes k = some (.internal l r f)) : f = freqOf nodes l + freqOf nodes r := by
  have hk : k < nodes.length := by
    by_contra hk
    rw [nodeAt, List.getElem?_eq_none (by omega)] at h
    cases h
  have := ht.2.2.2.1 k hk
  rw [isLeafAt, isMergeAt, h] at this
  split at this
  · cases this
  · simp only [decide_eq_true_eq] at this
    exact this.2.2.2

/-- The total length of the codes of a tree with two or more leaves, each weighted with the
frequency of its leaf, is the sum of the internal frequencies (R160 item 6). -/
theorem generate_weight {p : Params} {nodes : List Node} {root : Nat} (ht : IsTree nodes root)
    (hcap : p.nsymMax.admits (leafSymbols nodes).length = true)
    (h2 : 2 ≤ (leafSymbols nodes).length) {count : Symbol → Nat}
    (hcount : ∀ k c f, nodeAt nodes k = some (.leaf c f) → count c = f)
    {out : List (Symbol × Bits)} (h : generate p nodes root = .ok out) :
    (out.map (fun e => count e.1 * e.2.length)).sum = internalSum nodes := by
  obtain ⟨c, f, rfl, rfl⟩ | ⟨-, l, r, f, hroot⟩ := ht.root_node
  · simp [leafSymbols, Node.sym?] at h2
  · have hv : Visiting nodes root [] ([(root, ([] : Bits))].map (·.1)) :=
      ⟨by simp, by simp, by simpa using (by have := ht.2.2.1; omega)⟩
    obtain ⟨out', all, hw, -, hall, hq⟩ := walk_runs (p := p) ht hcap
      (Q := fun visited st code =>
        (code.map (fun e => count e.1 * e.2.length)).sum +
          (st.map (fun e => freqOf nodes e.1 * e.2.length)).sum =
        (visited.map (mergeFreqAt nodes)).sum)
      (by
        intro k path st code visited sym f hk hq
        simp only [List.map_cons, List.sum_cons, List.map_append, List.sum_append, List.map_nil,
          List.sum_nil] at hq ⊢
        have h1 : mergeFreqAt nodes k = 0 := by rw [mergeFreqAt, hk]; rfl
        have h3 : freqOf nodes k = f := freqOf_of_nodeAt hk
        rw [h1, hcount k sym f hk]
        rw [h3] at hq
        omega)
      (by
        intro k path st code visited l r f hk hq
        simp only [List.map_cons, List.sum_cons, List.map_append, List.sum_append, List.map_nil,
          List.sum_nil, List.length_append, List.length_cons, List.length_nil] at hq ⊢
        have h1 : mergeFreqAt nodes k = f := by rw [mergeFreqAt, hk]; rfl
        have h3 : freqOf nodes k = f := freqOf_of_nodeAt hk
        have h4 := ht.merge_freq hk
        rw [h1, ← hq, h3, h4]
        ring)
      (code := []) (pops := nodes.length) hv rfl (by simp) (by simp)
    have hg : generate p nodes root = walk p nodes nodes.length [(root, [])] [] := by
      simp only [generate, hroot]
    rw [hg, hw] at h
    cases h
    rw [internalSum_eq, ← (hall.map (mergeFreqAt nodes)).sum_eq, ← hq]
    simp

/-- Kraft's equality: the codes of a walked tree are complete (R160 item 7). -/
theorem generate_kraft {p : Params} {nodes : List Node} {root l r f : Nat}
    {out : List (Symbol × Bits)} (hroot : nodeAt nodes root = some (.internal l r f))
    (h : generate p nodes root = .ok out) : kraft (out.map (fun e => e.2.length)) = 1 := by
  simp only [generate, hroot] at h
  have := walk_keeps (Q := fun st code =>
    kraft (code.map (fun e => e.2.length)) + kraft (st.map (fun e => e.2.length)) = 1) ?_ ?_ h
    (by simp [kraft])
  · simpa [kraft] using this
  · intro n path st code sym f _ hq
    simp only [List.map_append, List.map_cons, List.map_nil, kraft_append, kraft_cons] at hq ⊢
    have h0 : kraft [] = 0 := rfl
    rw [h0]
    linarith
  · intro n path st code l r f _ hq
    simp only [List.map_cons, kraft_cons, List.length_append, List.length_cons, List.length_nil,
      pow_succ] at hq ⊢
    linarith

/-- No code of a tree with N leaves, two or more, is longer than N - 1 (R160 item 5). -/
theorem generate_length {p : Params} {nodes : List Node} {root : Nat} (ht : IsTree nodes root)
    (h2 : 2 ≤ (leafSymbols nodes).length) {out : List (Symbol × Bits)}
    (h : generate p nodes root = .ok out) :
    ∀ e ∈ out, e.2.length + 1 ≤ (leafSymbols nodes).length := by
  obtain ⟨c, f, rfl, rfl⟩ | ⟨-, l, r, f, hroot⟩ := ht.root_node
  · simp [leafSymbols, Node.sym?] at h2
  · have hsize := ht.2.1
    have hlast := ht.2.2.1
    simp only [generate, hroot] at h
    refine (walk_keeps (Q := fun st code =>
      (∀ e ∈ st, e.2.length + 1 ≤ (leafSymbols nodes).length ∧ e.1 + e.2.length ≤ root) ∧
      ∀ e ∈ code, e.2.length + 1 ≤ (leafSymbols nodes).length) ?_ ?_ h
      ⟨by simp; omega, by simp⟩).2
    · rintro n path st code sym f _ ⟨h1, h3⟩
      refine ⟨fun e he => h1 e (List.mem_cons_of_mem _ he), fun e he => ?_⟩
      rcases List.mem_append.mp he with he | he
      · exact h3 e he
      · rw [List.mem_singleton.mp he]; exact (h1 (n, path) (by simp)).1
    · rintro n path st code l r f hn ⟨h1, h3⟩
      refine ⟨fun e he => ?_, h3⟩
      have hp := h1 (n, path) (by simp)
      have hl := ht.child_lt (k := n) (c := l) (by rw [childrenAt, hn]; simp [Node.children])
      have hr := ht.child_lt (k := n) (c := r) (by rw [childrenAt, hn]; simp [Node.children])
      have hin : (leafSymbols nodes).length ≤ n := by
        by_contra hlt
        have := ht.2.2.2.1 n hl.2
        rw [if_pos (by omega), isLeafAt, hn] at this
        cases this
      simp only at hp
      rcases List.mem_cons.mp he with rfl | he
      · simp only [List.length_append, List.length_singleton]; omega
      · rcases List.mem_cons.mp he with rfl | he
        · simp only [List.length_append, List.length_singleton]; omega
        · exact h1 e (List.mem_cons_of_mem _ he)

/-! ### The total of a table, symbol by symbol -/

theorem codeOf?_of_mem {table : List (Symbol × Bits)} (hn : (table.map (·.1)).Nodup)
    {e : Symbol × Bits} (he : e ∈ table) : codeOf? table e.1 = some e.2 := by
  obtain ⟨code, hc⟩ := Option.isSome_iff_exists.mp
    (codeOf?_isSome.mpr (List.mem_map_of_mem (f := fun e : Symbol × Bits => e.1) he))
  have hm := mem_of_codeOf? hc
  have : (e.1, code) = e := List.inj_on_of_nodup_map hn hm he rfl
  rw [hc, ← this]

/-- The weighted length of a table over the same symbols is the sum over its own pairs. -/
theorem weightedLength_eq {freq : List (Symbol × Nat)} {table : List (Symbol × Bits)}
    (hp : (table.map (·.1)).Perm (freq.map (·.1))) (hn : (freq.map (·.1)).Nodup)
    {count : Symbol → Nat} (hcount : ∀ e ∈ freq, count e.1 = e.2) :
    weightedLength freq table = (table.map (fun e => count e.1 * e.2.length)).sum := by
  have h1 : weightedLength freq table =
      ((freq.map (·.1)).map (fun c => count c * ((codeOf? table c).getD []).length)).sum := by
    rw [weightedLength, List.map_map]
    congr 1
    exact List.map_congr_left (fun e he => by simp [hcount e he])
  rw [h1, ← (hp.map _).sum_eq, List.map_map]
  congr 1
  refine List.map_congr_left (fun e he => ?_)
  simp [codeOf?_of_mem (hp.nodup_iff.mpr hn) he]

/-- The lengths another prefix code gives the symbols of a frequency table meet Kraft's
inequality. -/
theorem kraft_of_isPrefixCode {freq : List (Symbol × Nat)} {table : List (Symbol × Bits)}
    (h : IsPrefixCode table) (hn : (freq.map (·.1)).Nodup)
    (hk : ∀ e ∈ freq, (codeOf? table e.1).isSome = true) :
    kraft (freq.map (fun e => ((codeOf? table e.1).getD []).length)) ≤ 1 := by
  have hm : ∀ e ∈ freq, (e.1, (codeOf? table e.1).getD []) ∈ table := by
    intro e he
    obtain ⟨code, hc⟩ := Option.isSome_iff_exists.mp (hk e he)
    rw [hc]; exact mem_of_codeOf? hc
  have hlist : freq.map (fun e => ((codeOf? table e.1).getD []).length)
      = (freq.map (fun e => (codeOf? table e.1).getD [])).map List.length := by
    rw [List.map_map]; rfl
  rw [hlist]
  set l := freq.map (fun e => (codeOf? table e.1).getD []) with hl
  obtain ⟨n, hlen⟩ : ∃ n, ∀ c ∈ l, c.length ≤ n := by
    refine ⟨(l.map List.length).sum, fun c hc => ?_⟩
    exact List.single_le_sum (by simp) _ (List.mem_map_of_mem hc)
  refine kraft_le_one n l hlen ?_
  rw [hl, List.pairwise_map]
  have hpw : freq.Pairwise (fun a b => a.1 ≠ b.1) := List.pairwise_map.mp hn
  refine List.Pairwise.imp_of_mem ?_ hpw
  intro a b ha hb hab
  constructor
  · intro hpre
    have := h.eq_of_isPrefix (hm a ha) (hm b hb) hpre
    exact hab (congrArg (fun x : Symbol × Bits => x.1) this)
  · intro hpre
    have := h.eq_of_isPrefix (hm b hb) (hm a ha) hpre
    exact hab (congrArg (fun x : Symbol × Bits => x.1) this).symm

end Sys2Proof.Machine
end

