-- ==== Sys2Proof/Laws/Step.lean ====
section
/-! SUPPORT. What a load can do (spec/20_memory.md R65) and what a step can do
(spec/30_encoding.md R85, spec/20_memory.md R64), as rules. -/

namespace Sys2Proof.Machine

/-- A load that is refused, in one record. -/
theorem runLoad_err_eq (f : Machine.Flag) (c : ResultCode) (hc : c ≠ .ok) (store) (s : State) :
  runLoad f (some c) store s = { (s.invalidate f).spoil f with ctl := errControl (some f) c s.ctl } := by
  rw [runLoad_error, State.mk.injEq]
  refine ⟨by simp, by simp, ?_, by simp, by simp, by simp⟩
  exact endErr_ctl (some f) c s _ hc (by simp [State.invalidateOutput])

/-- A load that is accepted, in one record. -/
theorem runLoad_ok_eq (f : Machine.Flag) (store : State → State) (s : State)
    (h : ∀ t, (store t).ctl = t.ctl) :
  runLoad f none store s = { store (s.invalidate f) with ctl := okControl (some f) s.ctl } := by
  rw [runLoad_ok, State.mk.injEq]
  refine ⟨by simp, by simp, ?_, by simp, by simp, by simp⟩
  exact endOk_ctl (some f) s _ (h _)

/-- The control registers after a load. -/
theorem load_ctl (f) (c : Option ResultCode) (hc : c ≠ some .ok) (store : State → State) (s : State)
    (h : ∀ t, (store t).ctl = t.ctl) :
   (runLoad f c store s).ctl = match c with
     | none => okControl (some f) s.ctl
     | some c => errControl (some f) c s.ctl := by
  cases c with
  | none => simp only; rw [runLoad_ok_eq f store s h]
  | some c => simp only; rw [runLoad_err_eq f c (fun h => hc (by rw [h])) store s]

/-- A load keeps the parameters. -/
theorem load_params (f) (c : Option ResultCode) (store : State → State) (s : State)
    (h : ∀ t, (store t).params = t.params) :
    (runLoad f c store s).params = s.params := by
  cases c with
  | none => simp [runLoad, h]
  | some c => simp [runLoad]

/-- The flags after a load. -/
theorem load_flag (f g : Machine.Flag) (c : Option ResultCode) (store : State → State) (s : State)
    (h : ∀ t, (store t).ctl = t.ctl) :
  (runLoad f c store s).flag g = if f = g then c.isNone else s.flag g := by
  cases c with
  | none =>
    have := State.flag_setFlag (store (s.invalidate f)) f g
    have h2 : (store (s.invalidate f)).flag g = (s.invalidate f).flag g := by simp only [State.flag, h]
    rw [runLoad_ok, State.endWith_flag, this, h2, State.flag_invalidate]
    by_cases hfg : f = g <;> simp [hfg]
  | some c =>
    have h2 : ((s.invalidate f).spoil f).flag g = (s.invalidate f).flag g := by
      simp only [State.flag, State.spoil_ctl]
    rw [runLoad_error, State.endWith_flag, h2, State.flag_invalidate]
    by_cases hfg : f = g <;> simp [hfg]

/-- The loads leave CMD alone. -/
theorem loads_cmd (s : State) (h : s.ctl.cmd = none) :
   (∀ v, (loadText v s).ctl.cmd = none) ∧ (∀ v, (loadFreq v s).ctl.cmd = none) ∧
    (∀ v, (loadData v s).ctl.cmd = none) ∧ (∀ v, (loadCtab v s).ctl.cmd = none) := by
  have key : ∀ f c st, (∀ t : State, (st t).ctl = t.ctl) → (runLoad f c st s).ctl.cmd = none := by
    intro f c st hst
    cases c with
    | none => simp [runLoad, hst, h]
    | some c => simp [runLoad, h]
  exact ⟨fun v => key _ _ _ (fun _ => rfl), fun v => key _ _ _ (fun _ => rfl),
    fun v => key _ _ _ (fun _ => rfl), fun v => key _ _ _ (fun _ => rfl)⟩

/-- With no word in CMD nothing is taken. -/
theorem take_none {s : State} (h : s.ctl.cmd = none) : takeCommand s = .next s := by simp [takeCommand, h]

/-- A property that every part of a step keeps is kept by the step: say once what a step can do. -/
theorem step_keeps (P : State → Prop)
  (hhost : ∀ s h, P s → P { s with host := h })
  (hcmd : ∀ s w, P s → P { s with ctl := { s.ctl with cmd := w } })
  (hexec : ∀ i s t, P s → exec i s = .next t → P t)
  (hill : ∀ s, P s → P (s.endWith .illegalCommand))
  (h1 : ∀ v s, P s → P (loadText v s)) (h2 : ∀ v s, P s → P (loadFreq v s))
  (h3 : ∀ v s, P s → P (loadData v s)) (h4 : ∀ v s, P s → P (loadCtab v s))
  (h5 : ∀ s, P s → P (applyReset s)) :
  ∀ s t, P s → step s = .next t → P t := by
  have htake : ∀ s t, P s → takeCommand s = .next t → P t := by
    intro s t hs h
    unfold takeCommand at h
    split at h
    · next w hw =>
      unfold runWord at h
      split at h
      · cases h; exact hill _ (hcmd s none hs)
      · exact hexec _ _ _ (hcmd s none hs) h
    · cases h; exact hs
  have hissue : ∀ ws s, P s → P (issueNext ws s) := by
    intro ws s hs
    cases ws with
    | nil => exact hs
    | cons w ws => exact hcmd _ _ (hhost s _ hs)
  intro s t hs h
  unfold step advance at h
  split at h
  · exact htake _ _ hs h
  · cases h; exact hs
  · next a rest _ _ =>
    split at h
    · cases h
    · refine htake _ _ ?_ h
      have hs' := hhost s { s.host with pending := rest } hs
      cases a with
      | ldtext v => exact h1 _ _ hs'
      | ldfreq v => exact h2 _ _ hs'
      | lddata v => exact h3 _ _ hs'
      | ldctab v => exact h4 _ _ hs'
      | rd x => exact hhost _ _ hs'
      | command w => exact hcmd _ _ hs'
      | script ws => exact hissue _ _ hs'
      | scriptRest ws =>
        show P (if _ then _ else _)
        split
        · exact hissue _ _ hs'
        · exact hs'
      | reset => exact h5 _ hs'

end Sys2Proof.Machine
end

