-- ==== Sys2Proof/Tests/Slice0.lean ====
section
/-! SUPPORT. Small tests, each with a result taken from spec/95_test_vectors.md or from a rule, and
for each statement with hypotheses a witness that meets them. -/

namespace Sys2Proof.Tests

open Sys2Proof.Machine

/-! ### Helpers -/

/-- A symbol of one byte. -/
def one (b : Byte) : Sys2Proof.Symbol := ⟨b, []⟩

def symA : Sys2Proof.Symbol := one 0x61#8
def symB : Sys2Proof.Symbol := one 0x62#8
def symC : Sys2Proof.Symbol := one 0x63#8
def symD : Sys2Proof.Symbol := one 0x64#8
def symR : Sys2Proof.Symbol := one 0x72#8
def symX : Sys2Proof.Symbol := one 0x78#8

/-- Every capacity and width `INF`, `TIEBREAK = REF`: the setting of spec/95_test_vectors.md. -/
def open_ : Params := ⟨.inf, .inf, .inf, .inf, .inf, .inf, .inf, .ref⟩

/-- The state after reset of a machine with the parameters `p`. -/
def fresh (p : Params) : State := { State.reset with params := p }

/-- A state with these contents and valid flags. -/
def given (p : Params) (valid : BitVec 10) (f : Memory → Memory) : State :=
  { fresh p with mem := f (fresh p).mem, ctl := { (fresh p).ctl with valid := valid } }

/-- What `f` says of the next state, when there is one. -/
def after {α : Type} (o : Host.Outcome State Fault Refusal) (f : State → α) : Option α :=
  match o with
  | .next t    => some (f t)
  | .fault _   => none
  | .refused _ => none

/-- The result code and what `f` says of the next state. -/
def ends {α : Type} (i : Instr) (s : State) (f : State → α) : Option (ResultCode × α) :=
  after (exec i s) (fun t => (t.ctl.err, f t))

/-- The text `abracadabra` (V1). -/
def abracadabra : List Sys2Proof.Symbol :=
  [symA, symB, symR, symA, symC, symA, symD, symA, symB, symR, symA]

/-- V1's frequency table. -/
def freqV1 : List (Sys2Proof.Symbol × Nat) := [(symA, 5), (symB, 2), (symR, 2), (symC, 1), (symD, 1)]

/-- V1's arena. -/
def nodesV1 : List Node :=
  [.leaf symA 5, .leaf symB 2, .leaf symR 2, .leaf symC 1, .leaf symD 1,
   .internal 3 4 2, .internal 1 5 4, .internal 2 6 6, .internal 0 7 11]

def o : Bool := false
def l : Bool := true

/-- V1's code table. -/
def codeV1 : List (Sys2Proof.Symbol × Bits) :=
  [(symA, [o]), (symR, [l, o]), (symB, [l, l, o]), (symC, [l, l, l, o]), (symD, [l, l, l, l])]

/-- V1's bitstream, 23 bits. -/
def bitsV1 : Bits :=
  [o, l, l, o, l, o, o, l, l, l, o, o, l, l, l, l, o, l, l, o, l, o, o]

/-- V1's data artifact. -/
def dataV1 : List Byte := [0x01#8, 0x69#8, 0xCF#8, 0x68#8]

/-- V1's code-table artifact, 29 bytes. -/
def ctabV1 : List Byte :=
  [0x01#8, 0x61#8, 0x01#8, 0x30#8, 0x01#8, 0x72#8, 0x02#8, 0x31#8, 0x30#8,
   0x01#8, 0x62#8, 0x03#8, 0x31#8, 0x31#8, 0x30#8, 0x01#8, 0x63#8, 0x04#8, 0x31#8, 0x31#8, 0x31#8, 0x30#8,
   0x01#8, 0x64#8, 0x04#8, 0x31#8, 0x31#8, 0x31#8, 0x31#8]

/-- The state of V30 to V39: V1's tree, and a heap. -/
def heapState (h : List Nat) : State :=
  { given open_ 0x04#10 (fun m => { m with node := nodesV1, heap := h }) with regs := ⟨8, 0, 0⟩ }

/-! ### Well-formedness -/

theorem test_wellFormed_hinit_top : (Instr.hinit 16777215).wellFormed = true := by decide
theorem test_illFormed_hinit : (Instr.hinit 16777216).wellFormed = false := by decide
theorem test_wellFormed_hpush_top : (Instr.hpush 16777215).wellFormed = true := by decide
theorem test_illFormed_hpush : (Instr.hpush 16777216).wellFormed = false := by decide

/-! ### Decoding: words written out from R85, R88 and V15 to V26 -/

theorem test_decode_hinit : decodeWord 0x00000501#32 = .ok (.hinit 5) := by rfl
theorem test_decode_hpush : decodeWord 0x00000702#32 = .ok (.hpush 7) := by rfl
theorem test_decode_hpush_top : decodeWord 0xFFFFFF02#32 = .ok (.hpush 16777215) := by rfl
theorem test_decode_hpop : decodeWord 0x00000003#32 = .ok .hpop := by rfl
theorem test_decode_count : decodeWord 0x00000010#32 = .ok .count := by rfl
theorem test_decode_build : decodeWord 0x00000011#32 = .ok .build := by rfl
theorem test_decode_gencodes : decodeWord 0x00000020#32 = .ok .gencodes := by rfl
theorem test_decode_encode : decodeWord 0x00000030#32 = .ok .encode := by rfl
theorem test_decode_decode : decodeWord 0x00000031#32 = .ok .decode := by rfl
theorem test_decode_verify : decodeWord 0x00000032#32 = .ok .verify := by rfl
theorem test_decode_serdata : decodeWord 0x00000040#32 = .ok .serdata := by rfl
theorem test_decode_sertab : decodeWord 0x00000041#32 = .ok .sertab := by rfl
theorem test_decode_desdata : decodeWord 0x00000042#32 = .ok .desdata := by rfl
theorem test_decode_destab : decodeWord 0x00000043#32 = .ok .destab := by rfl
theorem test_decode_zero : decodeWord 0x00000000#32 = .error (.unassignedOpcode 0x00#8) := by rfl
theorem test_decode_count_with_arg :
    decodeWord 0x00000110#32 = .error (.nonzeroArg 0x10#8 1) := by rfl
theorem test_encode_hinit : encodeInstr (.hinit 9) = 0x00000901#32 := by decide
theorem test_encode_sertab : encodeInstr .sertab = 0x00000041#32 := by decide
theorem test_tableWord_hpush : decodeTableWord 32 0x302 = some (.hpush 3) := by rfl
theorem test_tableWord_illegal : decodeTableWord 32 0x12 = none := by rfl

/-! ### The step runs the word in CMD -/

/-- V140, through the step and the placed word, on this machine's own reset state. -/
theorem test_step_count_after_reset :
    after (step (State.reset.withFetchWord 32 0x10)) (fun t => (t.ctl.err, t.ctl.errlog, t.ctl.cmd))
      = some (.notReady, 0x0200#16, none) := by rfl

/-- V141: the decoding precedes the input check. -/
theorem test_step_illegal_after_reset :
    after (step (State.reset.withFetchWord 32 0x110)) (fun t => (t.ctl.err, t.ctl.errlog))
      = some (.illegalCommand, 0x0100#16) := by rfl

/-! ### The heap commands (V30 to V39) -/

theorem test_hinit_nine : ends (.hinit 9) (heapState []) (·.mem.heap)
    = some (.ok, [3, 4, 2, 1, 0, 5, 6, 7, 8]) := by decide
theorem test_hinit_out_of_range : ends (.hinit 10) (heapState [8]) (·.mem.heap)
    = some (.illegalCommand, [8]) := by decide
theorem test_hpush_sifts_up : ends (.hpush 3) (heapState [1, 0, 2, 8]) (·.mem.heap)
    = some (.ok, [3, 1, 2, 8, 0]) := by decide
theorem test_hpush_out_of_range : ends (.hpush 9) (heapState [8]) (·.mem.heap)
    = some (.illegalCommand, [8]) := by decide
theorem test_hpop_sifts_down :
    ends .hpop (heapState [4, 1, 2, 0]) (fun t => (t.regs.hres, t.mem.heap))
      = some (.ok, 4, [1, 0, 2]) := by decide
theorem test_hpop_empty : ends .hpop (heapState []) (fun t => (t.flag .hres, t.mem.heap))
    = some (.emptyQueue, false, []) := by decide

/-! ### COUNT, BUILD and GENCODES (V1, V6, V3, V142) -/

theorem test_count_v1 :
    ends .count (given open_ 0x01#10 (fun m => { m with text := abracadabra })) (·.mem.freq)
      = some (.ok, freqV1) := by decide
/-- V146. -/
theorem test_count_capacity :
    ends .count (given { open_ with nsymMax := .fin 2 } 0x01#10
      (fun m => { m with text := [symA, symB, symC] })) (·.flag .freq)
      = some (.capacity, false) := by rfl

theorem test_build_v1 :
    ends .build (given open_ 0x02#10 (fun m => { m with freq := freqV1 }))
      (fun t => (t.mem.node, t.regs.root, t.mem.heap)) = some (.ok, nodesV1, 8, []) := by decide
/-- V6: after the first pop the last element stays at the top of the heap. -/
theorem test_build_v6 :
    ends .build (given open_ 0x02#10 (fun m => { m with
        freq := [(symA, 1), (symB, 1), (symC, 1)] })) (fun t => t.mem.node.drop 3)
      = some (.ok, [.internal 0 2 2, .internal 1 3 3]) := by decide

theorem test_gencodes_v1 :
    ends .gencodes { given open_ 0x04#10 (fun m => { m with node := nodesV1 }) with
      regs := ⟨8, 0, 0⟩ } (·.mem.code) = some (.ok, codeV1) := by decide
/-- V3: a root that is a leaf has the code "0". -/
theorem test_gencodes_single :
    ends .gencodes (given open_ 0x04#10 (fun m => { m with node := [.leaf symA 4] })) (·.mem.code)
      = some (.ok, [(symA, [o])]) := by decide

/-! ### ENCODE, DECODE and VERIFY (V90 to V124) -/

theorem test_encode_v90 :
    ends .encode (given open_ 0x09#10 (fun m => { m with text := abracadabra, code := codeV1 }))
      (·.mem.bits) = some (.ok, bitsV1) := by decide
/-- V94. -/
theorem test_encode_unknown_symbol :
    ends .encode (given open_ 0x19#10 (fun m => { m with text := [symX, symA], code := codeV1 }))
      (·.flag .bits) = some (.unknownSymbol, false) := by rfl

/-- V110: the shorter code matches first. -/
theorem test_decode_v110 :
    ends .decode (given open_ 0x90#10 (fun m => { m with
        bits := [o, l], inv := [([o], symA), ([o, l], symB), ([l], symC)] })) (·.mem.out)
      = some (.ok, [symA, symC]) := by decide
/-- V106. -/
theorem test_decode_leftover :
    ends .decode (given open_ 0x190#10 (fun m => { m with
        bits := [o, l, l], inv := [([o], symA), ([l, o], symR), ([l, l, o], symB)] }))
      (·.flag .out) = some (.undecodableStream, false) := by rfl

/-- V120. -/
theorem test_verify_equal :
    ends .verify (given open_ 0x101#10 (fun m => { m with text := abracadabra, out := abracadabra }))
      (·.ctl.status) = some (.ok, 0#2) := by decide
/-- V122. -/
theorem test_verify_differs :
    ends .verify (given open_ 0x101#10 (fun m => { m with
        text := [symA, symB, symC], out := [symA, symB, symD] })) (·.ctl.errlog)
      = some (.roundTripMismatch, 0x0080#16) := by decide

/-! ### SERDATA, SERTAB, DESDATA and DESTAB (V40 to V84) -/

/-- V45. -/
theorem test_serdata_v45 :
    ends .serdata (given open_ 0x10#10 (fun m => { m with bits := [l, o, l, l, o, o, l, l, l] }))
      (fun t => (t.regs.pad, t.mem.data)) = some (.ok, 7, [0x07#8, 0xB3#8, 0x80#8]) := by decide
/-- V40. -/
theorem test_serdata_v40 :
    ends .serdata (given open_ 0x10#10 id) (fun t => (t.regs.pad, t.mem.data))
      = some (.ok, 0, [0x00#8]) := by decide

/-- V63. -/
theorem test_sertab_v63 :
    ends .sertab (given open_ 0x08#10 (fun m => { m with code := codeV1 })) (·.mem.ctab)
      = some (.ok, ctabV1) := by decide
/-- V67. -/
theorem test_sertab_v67 :
    ends .sertab (given { open_ with ctabMax := .fin 28 } 0x48#10 (fun m => { m with code := codeV1 }))
      (·.flag .ctab) = some (.capacity, false) := by rfl

/-- V58: the padding bit is dropped unchecked. -/
theorem test_desdata_v58 :
    ends .desdata (given open_ 0x20#10 (fun m => { m with data := [0x01#8, 0x69#8, 0xCF#8, 0x69#8] }))
      (·.mem.bits) = some (.ok, bitsV1) := by decide
/-- V53. -/
theorem test_desdata_v53 :
    ends .desdata (given open_ 0x30#10 (fun m => { m with data := [0x03#8] })) (·.flag .bits)
      = some (.corruptArtifact, false) := by rfl

/-- V81: the later record replaces the symbol. -/
theorem test_destab_v81 :
    ends .destab (given open_ 0x40#10 (fun m => { m with
        ctab := [0x01#8, 0x61#8, 0x01#8, 0x30#8, 0x01#8, 0x62#8, 0x01#8, 0x30#8] })) (·.mem.inv)
      = some (.ok, [([o], symB)]) := by decide
/-- V80. -/
theorem test_destab_v80 :
    ends .destab (given open_ 0xC0#10 (fun m => { m with
        ctab := [0x01#8, 0x61#8, 0x01#8, 0x30#8, 0x01#8] })) (·.flag .inv)
      = some (.corruptArtifact, false) := by rfl

/-! ### Witnesses

For each statement with hypotheses, states and operands that meet them, where capacities matter at
the capacity itself and one beyond it. -/

/-- A machine whose capacities the text `aab` fills exactly. -/
def tight : Params := ⟨.fin 1, .fin 3, .fin 2, .fin 3, .fin 2, .fin 8, .fin 2, .ref⟩

def textT : List Sys2Proof.Symbol := [symA, symA, symB]

def freqT : List (Sys2Proof.Symbol × Nat) := [(symA, 2), (symB, 1)]

def codeT : List (Sys2Proof.Symbol × Bits) := [(symB, [o]), (symA, [l])]

def ctabT : List Byte := [0x01#8, 0x62#8, 0x01#8, 0x30#8, 0x01#8, 0x61#8, 0x01#8, 0x31#8]

/-- Every buffer as the whole pipeline on `aab` leaves it. -/
def memT : Memory where
  text := textT
  freq := freqT
  node := [.leaf symA 2, .leaf symB 1, .internal 1 0 3]
  heap := []
  code := codeT
  inv  := [([o], symB), ([l], symA)]
  bits := [l, l, o]
  data := [0x05#8, 0xC0#8]
  ctab := ctabT
  out  := textT

/-- The state that holds them, every flag but HRES set. -/
def full (p : Params) : State :=
  { given p 0x1FF#10 (fun _ => memT) with regs := ⟨2, 0, 5⟩ }

/-- The same with one buffer or more changed. -/
def fullWith (p : Params) (f : Memory → Memory) : State :=
  { full p with mem := f (full p).mem }

/-- The same with these host actions pending. -/
def fullHost (p : Params) (as : List HostAction) : State := { full p with host := ⟨as, []⟩ }

theorem witness_full_meets_the_invariants : MachineInv (full tight) ∧ SymbolsOk (full tight) :=
  ⟨⟨by decide, by decide, by decide, by decide, by decide, by decide, by decide, by decide⟩, by decide⟩

/-- Also in a state whose heap is not empty and whose last command failed. -/
theorem witness_invariants_after_an_error :
    MachineInv { fullWith tight (fun m => { m with heap := [1, 0, 2] }) with
      ctl := ⟨0x1FF#10, 2#2, .capacity, 0x0500#16, none⟩ } :=
  ⟨by decide, by decide, by decide, by decide, by decide, by decide, by decide, by decide⟩

/-- A capacity of 0 is no legal setting (D2), and the smallest legal one is. -/
theorem test_parameters_are_positive :
    paramsLegal { open_ with textMax := .fin 0 } = false ∧
    paramsLegal { open_ with bitsMax := .fin 0 } = false ∧
    paramsLegal { open_ with ctabMax := .fin 0 } = false ∧
    paramsLegal ⟨.fin 1, .fin 1, .fin 1, .fin 1, .fin 1, .fin 1, .fin 1, .any⟩ = true := by decide

theorem witness_ResetMeetsTheInvariants_step : ∃ t, step State.reset = .next t := ⟨_, rfl⟩

theorem witness_DecodeOfEncodeIsTheCommand :
    (Instr.hinit 0).wellFormed = true ∧ (Instr.hinit 16777215).wellFormed = true ∧
    (Instr.hpush 16777215).wellFormed = true ∧ Instr.destab.wellFormed = true := by decide

theorem witness_EncodeOfDecodeIsTheWord :
    decodeWord 0xFFFFFF01#32 = .ok (.hinit 16777215) ∧ decodeWord 0x00000043#32 = .ok .destab :=
  ⟨rfl, rfl⟩

theorem witness_IllegalWordsAndOperands :
    (∃ e, decodeWord 0x00000044#32 = .error e) ∧ (∃ e, decodeWord 0x00000142#32 = .error e) ∧
    opcOf 0xFFFFFF01#32 = 0x01#8 ∧ opcOf 0x00000002#32 = 0x02#8 ∧
    (full tight).mem.node.length < 4 ∧ (full tight).mem.node.length ≤ 3 :=
  ⟨⟨_, rfl⟩, ⟨_, rfl⟩, by decide, by decide, by decide, by decide⟩

theorem witness_StepExecutesTheWordInCmd :
    (withWordInCmd (full tight) 0x00000010#32).ctl.cmd = some 0x00000010#32 ∧
    decodeWord 0x00000010#32 = .ok .count := ⟨rfl, rfl⟩

theorem witness_CmdIssuesAndHoldsNothing :
    (fullHost tight [.command 0x00000010#32]).ctl.cmd = none ∧
    (fullHost tight [.command 0x00000010#32]).busy = false ∧
    (fullHost tight [.command 0x00000010#32]).host.pending = [.command 0x00000010#32] ∧
    ∃ t, step (fullHost tight [.command 0x00000010#32]) = .next t :=
  ⟨rfl, rfl, rfl, _, rfl⟩

theorem witness_HostActsOnlyWhenHuffIsIdle :
    ((full tight).ctl.cmd = none ∧ (full tight).host.pending = []) ∧
    (let s := { fullHost tight [.rd .err] with ctl := ⟨0#10, 1#2, .ok, 0#16, none⟩ }
     s.ctl.cmd = none ∧ s.busy = true ∧ s.host.pending = [.rd .err] ∧
      HostAction.rd .err ≠ .reset) := by decide

theorem witness_NotReadyExactlyWhenAnInputIsInvalid :
    (neededFlags .count).all (fresh tight).flag = false ∧
    ∃ t, exec .count (fresh tight) = .next t ∧ t.ctl.err = .notReady := ⟨rfl, _, rfl, rfl⟩

theorem witness_EndOfCommandSetsTheControlRegisters :
    (∃ t, exec .build (full tight) = .next t ∧ t.ctl.err = .ok) ∧
    (∃ t, exec .build (fresh tight) = .next t ∧ t.ctl.err ≠ .ok) :=
  ⟨⟨_, rfl, by decide⟩, _, rfl, by decide⟩

theorem witness_CommandsWriteOnlyTheirOutputs :
    Space.heap ∉ writtenSpaces .gencodes ∧ outputFlag .gencodes ≠ some .text ∧
    ∃ t, exec .gencodes (full tight) = .next t := ⟨by decide, by decide, _, rfl⟩

theorem witness_FailedCommandIsPrecise :
    (∃ t, exec .count (fresh tight) = .next t ∧ t.ctl.err ≠ .ok ∧
      (neededFlags .count).all (fresh tight).flag = false) ∧
    (∃ t, exec .build (fullWith tight (fun m => { m with freq := [] })) = .next t ∧
      t.ctl.err ≠ .ok ∧
      (neededFlags .build).all (fullWith tight (fun m => { m with freq := [] })).flag = true) ∧
    (∃ t, exec .hpop (full tight) = .next t ∧ t.ctl.err ≠ .ok ∧
      (neededFlags .hpop).all (full tight).flag = true ∧ outputFlag .hpop = some .hres) :=
  ⟨⟨_, rfl, by decide, by decide⟩, ⟨_, rfl, by decide, by decide⟩, _, rfl, by decide, by decide, rfl⟩

theorem witness_ResultCodesAreThoseOfTheTable :
    MachineInv (full tight) ∧ ∃ t, exec .verify (full tight) = .next t :=
  ⟨witness_full_meets_the_invariants.1, _, rfl⟩

theorem witness_ResetLeavesTheStatedValues :
    (fullHost tight [.reset]).ctl.cmd = none ∧
    (fullHost tight [.reset]).host.pending = [.reset] ∧
    ∃ t, step (fullHost tight [.reset]) = .next t := ⟨rfl, rfl, _, rfl⟩

theorem witness_HinitBuildsAnOrderedHeap :
    0 ≤ (full tight).mem.node.length ∧ 3 ≤ (full tight).mem.node.length := by decide

theorem witness_HpushAddsOneOccurrence :
    (let s := fullWith tight (fun m => { m with heap := [1, 0] })
     2 < s.mem.node.length ∧ HeapOk s ∧ s.params.nnodeMax.admits (s.mem.heap.length + 1) = true) ∧
    (let s := fullWith tight (fun m => { m with heap := [1, 0, 2] })
     2 < s.mem.node.length ∧ HeapOk s ∧
       s.params.nnodeMax.admits (s.mem.heap.length + 1) = false) := by decide

theorem witness_HpopRemovesAMinimum :
    (let s := fullWith tight (fun m => { m with heap := [1, 0, 2] }); s.mem.heap ≠ [] ∧ HeapOk s) ∧
    (let s := fullWith tight (fun m => { m with heap := [2] }); s.mem.heap ≠ [] ∧ HeapOk s) := by
  decide

theorem witness_EmptyQueueErrorExactlyOnAnEmptyHeap :
    (full tight).mem.heap = [] ∧
    ∃ t, exec .hpop (full tight) = .next t ∧ t.ctl.err = .emptyQueue := ⟨rfl, _, rfl, rfl⟩

theorem witness_AnyTieOrderIsReached :
    ([1, 0].Perm [0, 1] ∧ heapOrdered (fun _ => 5) [1, 0] = true) ∧
    ([1, 0] ≠ [] ∧ 0 ∈ [1, 0] ∧ ∀ x ∈ [1, 0], (fun _ => 5) 0 ≤ (fun _ => 5) x) := by decide

theorem witness_HeapCommandsStopOnADanglingEntry :
    (let s := fullWith tight (fun m => { m with heap := [3] })
     2 < s.mem.node.length ∧ s.params.nnodeMax.admits (s.mem.heap.length + 1) = true ∧
       heapInRange s = false) := by decide

theorem witness_CountGivesTheFrequencyTable :
    ((full tight).flag .text = true ∧
      (full tight).params.nsymMax.admits (full tight).mem.text.eraseDups.length = true) ∧
    (let s := full { tight with nsymMax := .fin 1 }
     s.flag .text = true ∧ s.params.nsymMax.admits s.mem.text.eraseDups.length = false) := by
  decide

theorem witness_EmptyInputErrorExactlyOnAnEmptyTable :
    (let s := fullWith tight (fun m => { m with freq := [] })
     s.flag .freq = true ∧ s.mem.freq = [] ∧
     ∃ t, exec .build s = .next t ∧ t.ctl.err = .emptyInput) := ⟨rfl, rfl, _, rfl, rfl⟩

/-- The total is 4, one more than two bits hold. -/
theorem witness_BuildOverTotal :
    (let s := fullWith tight (fun m => { m with freq := [(symA, 3), (symB, 1)] })
     s.flag .freq = true ∧ s.mem.freq ≠ [] ∧
       s.params.freqFits (totalCount s.mem.freq) = false) := by decide

/-- The total is 3 and the table has `NSYM_MAX` entries. -/
theorem witness_BuildMakesAStrictBinaryTree :
    (full tight).flag .freq = true ∧ (full tight).mem.freq ≠ [] ∧
    (full tight).params.freqFits (totalCount (full tight).mem.freq) = true ∧
    (full tight).params.nsymMax.admits (full tight).mem.freq.length = true := by decide

theorem witness_BuildOfOneSymbolIsALeaf :
    (let s := fullWith { tight with nsymMax := .fin 1 } (fun m => { m with freq := [(symA, 3)] })
     s.flag .freq = true ∧ s.mem.freq = [(symA, 3)] ∧ s.params.freqFits 3 = true ∧
       s.params.nnodeMax.admits 1 = true) := by decide

theorem witness_MergeJoinsTheTwoSmallest :
    (let w : Forest := ⟨[.leaf symA 2, .leaf symB 1], [1, 0], 0⟩
     2 ≤ w.heap.length ∧ (∀ k ∈ w.heap, k < w.nodes.length) ∧
       heapOrdered (freqOf w.nodes) w.heap = true ∧
       tight.nnodeMax.admits (w.nodes.length + 1) = true ∧
       tight.nnodeMax.admits w.heap.length = true) := by decide

theorem witness_GencodesOnARootLeaf :
    (let s := { fullWith { tight with nsymMax := .fin 1 }
        (fun m => { m with node := [.leaf symA 3] }) with regs := ⟨0, 0, 0⟩ }
     s.flag .tree = true ∧ nodeAt s.mem.node s.regs.root = some (.leaf symA 3) ∧
       s.params.nsymMax.admits 1 = true) := by decide

theorem witness_GencodesGivesAPrefixCode :
    (full tight).flag .tree = true ∧ IsTree (full tight).mem.node (full tight).regs.root ∧
    (full tight).params.nsymMax.admits (leafSymbols (full tight).mem.node).length = true ∧
    2 ≤ (leafSymbols (full tight).mem.node).length := by decide

/-- A tree of one leaf is a tree. -/
theorem witness_single_leaf_is_a_tree : IsTree [.leaf symA 4] 0 := by decide

theorem witness_GencodesEmitsInLexicographicOrder :
    ∃ t, exec .gencodes (full tight) = .next t ∧ t.ctl.err = .ok := ⟨_, rfl, by decide⟩

theorem witness_CodeLengthsAndCompleteness :
    (full tight).flag .tree = true ∧ IsTree (full tight).mem.node (full tight).regs.root ∧
    2 ≤ (leafSymbols (full tight).mem.node).length ∧
    ∃ t, exec .gencodes (full tight) = .next t ∧ t.ctl.err = .ok :=
  ⟨by decide, by decide, by decide, _, rfl, by decide⟩

theorem witness_CodesHaveMinimalTotalLength :
    ((full tight).flag .freq = true ∧ (full tight).mem.freq ≠ [] ∧
      ((full tight).mem.freq.map (·.1)).Nodup ∧
      (full tight).params.freqFits (totalCount (full tight).mem.freq) = true ∧
      (full tight).params.nsymMax.admits (full tight).mem.freq.length = true) ∧
    IsPrefixCode [(symA, [l, o]), (symB, [o])] ∧
    ∀ e ∈ (full tight).mem.freq, (codeOf? [(symA, [l, o]), (symB, [o])] e.1).isSome = true := by
  decide

theorem witness_EncodeConcatenatesTheCodes :
    (full tight).flag .text = true ∧ (full tight).flag .code = true ∧
    (∀ c ∈ (full tight).mem.text, (codeOf? (full tight).mem.code c).isSome = true) ∧
    (full tight).params.bitsMax.admits
      (bitstreamOf (full tight).mem.code (full tight).mem.text).length = true := by decide

theorem witness_EncodeStopsAtTheFirstBadSymbol :
    (let s := fullWith tight (fun m => { m with text := [symA, symX, symB] })
     s.flag .text = true ∧ s.flag .code = true ∧ s.mem.text = [symA] ++ symX :: [symB] ∧
       (∀ x ∈ [symA], (codeOf? s.mem.code x).isSome = true) ∧
       s.params.bitsMax.admits (bitstreamOf s.mem.code [symA]).length = true ∧
       codeOf? s.mem.code symX = none) ∧
    (let s := full { tight with bitsMax := .fin 2 }
     s.flag .text = true ∧ s.flag .code = true ∧ s.mem.text = [symA, symA] ++ symB :: [] ∧
       (∀ x ∈ [symA, symA], (codeOf? s.mem.code x).isSome = true) ∧
       s.params.bitsMax.admits (bitstreamOf s.mem.code [symA, symA]).length = true ∧
       codeOf? s.mem.code symB = some [o] ∧
       s.params.bitsMax.admits ((bitstreamOf s.mem.code [symA, symA]).length + [o].length) = false) := by
  decide

theorem witness_DecodeMatchesGreedily :
    (full tight).flag .bits = true ∧ (full tight).flag .inv = true ∧
    (∀ b ∈ [[l], [l], [o]], IsGreedyMatch (full tight).mem.inv b) ∧
    (full tight).mem.bits = [[l], [l], [o]].flatten ∧
    (full tight).params.textMax.admits [[l], [l], [o]].length = true := by decide

theorem witness_DecodeStopsOnLeftoverBitsOrFullOutput :
    (let s := fullWith tight (fun m => { m with
        inv := [([o], symB), ([l, o, o], symA)], bits := [o, l, o] })
     s.flag .bits = true ∧ s.flag .inv = true ∧ (∀ b ∈ [[o]], IsGreedyMatch s.mem.inv b) ∧
       s.mem.bits = [[o]].flatten ++ [l, o] ∧ [l, o] ≠ [] ∧ HasNoMatch s.mem.inv [l, o] ∧
       s.params.textMax.admits [[o]].length = true) ∧
    (let s := full { tight with textMax := .fin 2 }
     s.flag .bits = true ∧ s.flag .inv = true ∧ (∀ b ∈ [[l], [l]], IsGreedyMatch s.mem.inv b) ∧
       IsGreedyMatch s.mem.inv [o] ∧ s.mem.bits = [[l], [l]].flatten ++ [o] ++ [] ∧
       s.params.textMax.admits [[l], [l]].length = true ∧
       s.params.textMax.admits ([[l], [l]].length + 1) = false) := by decide

theorem witness_DecodeUndoesEncode :
    (full tight).flag .text = true ∧ (full tight).flag .code = true ∧
    (full tight).flag .inv = true ∧ IsPrefixCode (full tight).mem.code ∧
    (full tight).mem.inv = inverseTable (full tight).mem.code ∧
    (∀ c ∈ (full tight).mem.text, (codeOf? (full tight).mem.code c).isSome = true) ∧
    (full tight).params.bitsMax.admits
      (bitstreamOf (full tight).mem.code (full tight).mem.text).length = true ∧
    (full tight).params.textMax.admits (full tight).mem.text.length = true := by decide

theorem witness_VerifyComparesOutWithText :
    ((full tight).flag .text = true ∧ (full tight).flag .out = true ∧
      (full tight).mem.out = (full tight).mem.text) ∧
    (let s := fullWith tight (fun m => { m with out := [symA, symA] })
     s.flag .text = true ∧ s.flag .out = true ∧ s.mem.out ≠ s.mem.text) := by decide

theorem witness_SerdataWritesThePaddedArtifact :
    ((full tight).flag .bits = true ∧ (full tight).params.dataMax.admits
      (1 + ((full tight).mem.bits.length + (8 - (full tight).mem.bits.length % 8) % 8) / 8)
        = true) ∧
    (let s := full { tight with dataMax := .fin 1 }
     s.flag .bits = true ∧ s.params.dataMax.admits
       (1 + (s.mem.bits.length + (8 - s.mem.bits.length % 8) % 8) / 8) = false) := by decide

/-- Padding lengths 5, 7 and 6 over one byte; the last leaves one bit more than `BITS_MAX`. -/
theorem witness_DesdataUnpacksAndStrips :
    ((full tight).flag .data = true ∧ (full tight).mem.data = 0x05#8 :: [0xC0#8] ∧
      (0x05#8).toNat ≤ 7 ∧ (0x05#8).toNat ≤ 8 * [0xC0#8].length ∧
      (full tight).params.bitsMax.admits (8 * [0xC0#8].length - (0x05#8).toNat) = true) ∧
    (let s := fullWith { tight with bitsMax := .fin 1 } (fun m => { m with data := [0x07#8, 0x80#8] })
     s.flag .data = true ∧ s.mem.data = 0x07#8 :: [0x80#8] ∧ (0x07#8).toNat ≤ 7 ∧
       (0x07#8).toNat ≤ 8 * [0x80#8].length ∧
       s.params.bitsMax.admits (8 * [0x80#8].length - (0x07#8).toNat) = true) ∧
    (let s := fullWith { tight with bitsMax := .fin 1 } (fun m => { m with data := [0x06#8, 0x80#8] })
     s.flag .data = true ∧ s.mem.data = 0x06#8 :: [0x80#8] ∧ (0x06#8).toNat ≤ 7 ∧
       (0x06#8).toNat ≤ 8 * [0x80#8].length ∧
       s.params.bitsMax.admits (8 * [0x80#8].length - (0x06#8).toNat) = false) := by decide

theorem witness_DesdataCorruptCases :
    (full tight).flag .data = true ∧
    ((fullWith tight (fun m => { m with data := [] })).mem.data = []) ∧
    7 < (0x08#8).toNat ∧ 8 * ([] : List Byte).length < (0x01#8).toNat := by decide

theorem witness_DesdataUndoesSerdata :
    (full tight).flag .bits = true ∧ (full tight).params.dataMax.admits
      (1 + ((full tight).mem.bits.length + (8 - (full tight).mem.bits.length % 8) % 8) / 8) = true ∧
    (full tight).params.bitsMax.admits (full tight).mem.bits.length = true := by decide

theorem witness_SertabWritesTheRecords :
    (full tight).flag .code = true ∧ (∀ e ∈ (full tight).mem.code, FitsFormat e) ∧
    (full tight).params.ctabMax.admits (tableArtifact (full tight).mem.code).length = true := by
  decide

/-- A symbol of 256 bytes, and a record that is one byte too long. -/
theorem witness_SertabStopsAtTheFirstBadPair :
    (let e : Sys2Proof.Symbol × Bits := (⟨0#8, List.replicate 255 0#8⟩, [l])
     let s := fullWith tight (fun m => { m with code := [(symB, [o])] ++ e :: [] })
     s.flag .code = true ∧ s.mem.code = [(symB, [o])] ++ e :: [] ∧
       (∀ x ∈ [(symB, [o])], FitsFormat x) ∧
       s.params.ctabMax.admits (tableArtifact [(symB, [o])]).length = true ∧ ¬ FitsFormat e) ∧
    (let s := full { tight with ctabMax := .fin 7 }
     s.flag .code = true ∧ s.mem.code = [(symB, [o])] ++ (symA, [l]) :: [] ∧
       (∀ x ∈ [(symB, [o])], FitsFormat x) ∧
       s.params.ctabMax.admits (tableArtifact [(symB, [o])]).length = true ∧
       FitsFormat (symA, [l]) ∧
       s.params.ctabMax.admits
         ((tableArtifact [(symB, [o])]).length + (tableRecord symA [l]).length) = false) := by
  decide +kernel

/-- The longest symbol and code a record can hold. -/
theorem witness_FitsFormat_boundary :
    FitsFormat (⟨0#8, List.replicate 254 0#8⟩, List.replicate 255 true) := by
  decide +kernel

theorem witness_DestabRebuildsTheInverseTable :
    (full tight).flag .ctab = true ∧ (full tight).mem.ctab = tableArtifact codeT ∧
    (∀ e ∈ codeT, FitsFormat e ∧ e.2 ≠ []) ∧
    symbolsFit (full tight).params (codeT.map (·.1)) = true ∧
    (full tight).params.nsymMax.admits (codeT.map (·.2)).eraseDups.length = true := by decide

/-- The common hypotheses of both clauses of the statement. -/
theorem witness_DestabStopsAtTheFirstBadRecord :
    (full tight).flag .ctab = true ∧
    (∀ e ∈ [(symB, [o])], FitsFormat e ∧ e.2 ≠ []) ∧
    symbolsFit (full tight).params ([(symB, [o])].map (·.1)) = true ∧
    (full tight).params.nsymMax.admits ([(symB, [o])].map (·.2)).eraseDups.length = true ∧
    (fullWith tight (fun m => { m with ctab := [0x01#8, 0x62#8, 0x01#8, 0x30#8, 0x00#8] })).mem.ctab
      = tableArtifact [(symB, [o])] ++ [0x00#8] := by decide

/-- The malformed records of V73, V74, V75, V76, V77 and V79, cases a to f. -/
theorem witness_DestabStopsAtTheFirstBadRecord_corrupt :
    BadRecord [0x00#8, 0x61#8, 0x01#8, 0x30#8] ∧ BadRecord [0x02#8, 0x61#8] ∧
    BadRecord [0x01#8, 0x61#8] ∧ BadRecord [0x01#8, 0x61#8, 0x00#8] ∧
    BadRecord [0x01#8, 0x61#8, 0x01#8] ∧ BadRecord [0x01#8, 0x61#8, 0x01#8, 0x32#8] :=
  ⟨.symbolLengthZero _, .symbolTruncated _ _ (by decide),
   .noCodeLength _ _ (by decide) (by decide),
   .codeLengthZero _ [0x61#8] [] (by decide) (by decide),
   .codeTruncated _ [0x61#8] _ [] (by decide) (by decide) (by decide),
   .codeByte _ [0x61#8] _ [0x32#8] [] (by decide) (by decide) (by decide) (by decide)⟩

/-- A symbol of two bytes, and a second code where `NSYM_MAX` is 1. -/
theorem witness_DestabStopsAtTheFirstBadRecord_capacity :
    (let e : Sys2Proof.Symbol × Bits := (⟨0xC3#8, [0xA9#8]⟩, [l])
     FitsFormat e ∧ e.2 ≠ [] ∧
       (fullWith tight (fun m => { m with ctab := [0x02#8, 0xC3#8, 0xA9#8, 0x01#8, 0x31#8] })).mem.ctab
         = tableArtifact [] ++ tableRecord e.1 e.2 ++ [] ∧
       tight.symlenMax.admits e.1.len = false) ∧
    (let s := full { tight with nsymMax := .fin 1 }
     (∀ e ∈ [(symB, [o])], FitsFormat e ∧ e.2 ≠ []) ∧
       symbolsFit s.params ([(symB, [o])].map (·.1)) = true ∧
       s.params.nsymMax.admits ([(symB, [o])].map (·.2)).eraseDups.length = true ∧
       FitsFormat (symA, [l]) ∧
       s.mem.ctab = tableArtifact [(symB, [o])] ++ tableRecord symA [l] ++ [] ∧
       [l] ∉ [(symB, [o])].map (·.2) ∧
       s.params.nsymMax.admits (([(symB, [o])].map (·.2)).eraseDups.length + 1) = false) := by
  decide

theorem witness_DestabUndoesSertab :
    (full tight).flag .code = true ∧ (∀ e ∈ (full tight).mem.code, FitsFormat e) ∧
    IsPrefixCode (full tight).mem.code ∧
    (full tight).params.ctabMax.admits (tableArtifact (full tight).mem.code).length = true ∧
    symbolsFit (full tight).params ((full tight).mem.code.map (·.1)) = true ∧
    (full tight).params.nsymMax.admits (full tight).mem.code.length = true := by decide

theorem witness_LoadOfText :
    ((full tight).params.textMax.admits textT.length = true ∧
      ∀ c ∈ textT, (full tight).params.symlenMax.admits c.len = true) ∧
    (full tight).params.textMax.admits (symA :: textT).length = false ∧
    ∃ c ∈ [(⟨0xC3#8, [0xA9#8]⟩ : Sys2Proof.Symbol)],
      (full tight).params.symlenMax.admits c.len = false := by decide

/-- Counts 0, 3 and 4 with `W_FREQ = 2`, a repeated symbol, and one entry too many. -/
theorem witness_LoadOfFrequencyTable :
    (∃ e ∈ [(symA, 0)], e.2 = 0 ∨ (full tight).params.freqFits e.2 = false) ∧
    (∃ e ∈ [(symA, 4)], e.2 = 0 ∨ (full tight).params.freqFits e.2 = false) ∧
    ¬ ([(symA, 1), (symA, 2)].map (·.1)).Nodup ∧
    ((∀ e ∈ [(symA, 3), (symB, 3)], e.2 ≠ 0 ∧ (full tight).params.freqFits e.2 = true) ∧
      ([(symA, 3), (symB, 3)].map (·.1)).Nodup ∧
      (full tight).params.nsymMax.admits [(symA, 3), (symB, 3)].length = true ∧
      ∀ e ∈ [(symA, 3), (symB, 3)], (full tight).params.symlenMax.admits e.1.len = true) ∧
    ((∀ e ∈ [(symA, 1), (symB, 1), (symC, 1)], e.2 ≠ 0 ∧ (full tight).params.freqFits e.2 = true) ∧
      ([(symA, 1), (symB, 1), (symC, 1)].map (·.1)).Nodup ∧
      (full tight).params.nsymMax.admits [(symA, 1), (symB, 1), (symC, 1)].length = false) := by
  decide

theorem witness_LoadOfArtifacts :
    (full tight).params.dataMax.admits [0x05#8, 0xC0#8].length = true ∧
    (full tight).params.dataMax.admits [0x05#8, 0xC0#8, 0x00#8].length = false ∧
    (full tight).params.ctabMax.admits ctabT.length = true ∧
    (full tight).params.ctabMax.admits (0x01#8 :: ctabT).length = false := by decide

theorem witness_StepPerformsHostTransactions :
    (full tight).ctl.cmd = none ∧ (full tight).busy = false ∧
    (fullHost tight [.ldtext textT]).host.pending = [.ldtext textT] ∧
    (fullHost tight [.ldfreq freqT]).host.pending = [.ldfreq freqT] ∧
    (fullHost tight [.lddata []]).host.pending = [.lddata []] ∧
    (fullHost tight [.ldctab ctabT]).host.pending = [.ldctab ctabT] ∧
    (fullHost tight [.rd .root]).host.pending = [.rd .root] := by decide

theorem witness_MacrosStopAtTheFirstError :
    (let s := fullHost tight [.script deserScript]
     s.ctl.cmd = none ∧ s.busy = false ∧
       s.host.pending = [.script (0x42#32 :: [0x43#32])]) ∧
    (let s := fullHost tight [.scriptRest [0x43#32]]
     s.ctl.cmd = none ∧ s.busy = false ∧ s.host.pending = [.scriptRest (0x43#32 :: [])] ∧
       s.ctl.err = .ok) ∧
    (let s := { fullHost tight [.scriptRest [0x43#32]] with
        ctl := ⟨0#10, 2#2, .corruptArtifact, 0x40#16, none⟩ }
     s.ctl.cmd = none ∧ s.busy = false ∧ s.host.pending = [.scriptRest (0x43#32 :: [])] ∧
       s.ctl.err ≠ .ok) := by decide

theorem witness_EveryStepKeepsTheInvariants :
    MachineInv (fullHost tight [.command 0x00000011#32]) ∧
    SymbolsOk (fullHost tight [.command 0x00000011#32]) ∧
    StatusOk (fullHost tight [.command 0x00000011#32]).ctl ∧
    (fullHost tight [.command 0x00000011#32]).mem.wf tight = true ∧
    ∃ t, step (fullHost tight [.command 0x00000011#32]) = .next t :=
  ⟨⟨by decide, by decide, by decide, by decide, by decide, by decide, by decide, by decide⟩,
   by decide, by decide, by decide, _, rfl⟩

theorem witness_RoundTripGivesBackTheText :
    MachineInv (full tight) ∧ (full tight).flag .text = true ∧ (full tight).mem.text ≠ [] :=
  ⟨witness_full_meets_the_invariants.1, by decide, by decide⟩

end Sys2Proof.Tests
end

section
/-! ## The step, STATUS and reset

The parts of a step that the statements about CMD (R36), STATUS, ERR and ERRLOG (R37 to R39) and
reset (R44) are made from. -/

namespace Sys2Proof.Machine

/-! ### The control registers at the end of an action -/

/-- The two ways a command's end can leave the control registers (R237 step 5, R238). -/
theorem exec_ctl {i : Instr} {s t : State} (h : exec i s = .next t) :
    t.ctl = okControl (outputFlag i) s.ctl ∨
    ∃ out c, c ≠ .ok ∧ t.ctl = errControl out c s.ctl := by
  rcases exec_ok h with ⟨-, rfl⟩ | ⟨-, u, hb, rfl⟩ | ⟨-, c, hb, rfl⟩
  · exact .inr ⟨none, .notReady, by decide, endErr_ctl none _ s s (by decide) rfl⟩
  · exact .inl (endOk_ctl _ _ _ (body_frame hb).1)
  · have hc := (body_error hb).1
    exact .inr ⟨_, c, hc, endErr_ctl _ _ _ _ hc (State.spoilOutput_ctl _ _)⟩

/-- A command leaves CMD alone. -/
theorem exec_cmd {i : Instr} {s t : State} (h : exec i s = .next t) : t.ctl.cmd = s.ctl.cmd := by
  rcases exec_ctl h with hc | ⟨out, c, -, hc⟩ <;> rw [hc] <;> rfl

/-- A consistent STATUS has BUSY 0 (R37, R43 item 1). -/
theorem StatusOk.busy_clear {c : Control} (h : StatusOk c) : c.status &&& 1#2 = 0#2 := by
  rw [h.1]; split <;> rfl

/-- An action that ends with code 0 keeps STATUS, ERR and ERRLOG consistent. -/
theorem StatusOk.okControl {c : Control} (h : StatusOk c) (out : Option Flag) :
    StatusOk (okControl out c) :=
  ⟨h.busy_clear, fun hne => absurd rfl hne, h.2.2⟩

/-- The ERRLOG bit of an error is none of the bits that stay 0 (R39). -/
theorem errlogBit_reserved {code : ResultCode} (h : code ≠ .ok) :
    (1#16 <<< code.toNat) &&& 0xF801#16 = 0#16 := by
  revert h; cases code <;> decide

/-- An action that ends with an error keeps STATUS, ERR and ERRLOG consistent. -/
theorem StatusOk.errControl {c : Control} (h : StatusOk c) (out : Option Flag) {code : ResultCode}
    (hc : code ≠ .ok) : StatusOk (errControl out code c) := by
  have hlog := h.2.2
  refine ⟨?_, fun _ => ?_, ?_⟩
  · show c.status &&& 1#2 ||| 2#2 = if code = .ok then 0#2 else 2#2
    rw [h.busy_clear, if_neg hc]
    rfl
  · show (c.errlog ||| 1#16 <<< code.toNat).getLsbD code.toNat = true
    rw [BitVec.getLsbD_or, logMask_bit (by have := code.toNat_lt; omega)]
    simp
  · show (c.errlog ||| 1#16 <<< code.toNat) &&& 0xF801#16 = 0#16
    rw [BitVec.and_or_distrib_right, hlog, errlogBit_reserved hc]
    rfl

theorem exec_statusOk {i : Instr} {s t : State} (hs : StatusOk s.ctl) (h : exec i s = .next t) :
    StatusOk t.ctl := by
  rcases exec_ctl h with hc | ⟨out, c, hne, hc⟩ <;> rw [hc]
  · exact hs.okControl _
  · exact hs.errControl _ hne

theorem endWith_statusOk {s : State} (hs : StatusOk s.ctl) {c : ResultCode} (hc : c ≠ .ok) :
    StatusOk (s.endWith c).ctl := by
  rw [endErr_ctl none c s s hc rfl]
  exact hs.errControl _ hc

theorem applyReset_statusOk (s : State) : StatusOk (applyReset s).ctl := by
  show StatusOk State.reset.ctl
  decide

/-! ### What a load stores, and what its check says -/

/-- The space whose contents a flag vouches for (R35). -/
def Flag.buffer : Flag → Option Space
  | .text => some .text
  | .freq => some .freq
  | .tree => some .node
  | .code => some .code
  | .bits => some .bits
  | .data => some .data
  | .ctab => some .ctab
  | .inv  => some .inv
  | .out  => some .out
  | .hres => none

/-- `store` writes nothing but the buffer of flag `f` (R65). -/
structure StoresOnly (f : Flag) (store : State → State) : Prop where
  ctl      : ∀ t, (store t).ctl = t.ctl
  params   : ∀ t, (store t).params = t.params
  root     : ∀ t, (store t).regs.root = t.regs.root
  contents : ∀ t x, f.buffer ≠ some x → contentsOf x (store t) = contentsOf x t

theorem storeText_only (v : List Symbol) :
    StoresOnly .text (fun t => { t with mem := { t.mem with text := v } }) :=
  ⟨fun _ => rfl, fun _ => rfl, fun _ => rfl, fun _ x hx => by cases x <;> trivial⟩

theorem storeFreq_only (v : List (Symbol × Nat)) :
    StoresOnly .freq (fun t => { t with mem := { t.mem with freq := v } }) :=
  ⟨fun _ => rfl, fun _ => rfl, fun _ => rfl, fun _ x hx => by cases x <;> trivial⟩

theorem storeData_only (v : List Byte) :
    StoresOnly .data (fun t => { t with mem := { t.mem with data := v } }) :=
  ⟨fun _ => rfl, fun _ => rfl, fun _ => rfl, fun _ x hx => by cases x <;> trivial⟩

theorem storeCtab_only (v : List Byte) :
    StoresOnly .ctab (fun t => { t with mem := { t.mem with ctab := v } }) :=
  ⟨fun _ => rfl, fun _ => rfl, fun _ => rfl, fun _ x hx => by cases x <;> trivial⟩

theorem ldtextCheck_none {p : Params} {v : List Symbol} (h : ldtextCheck p v = none) :
    p.textMax.admits v.length = true ∧ symbolsFit p v = true := by
  unfold ldtextCheck at h
  split at h
  · next hv => exact Bool.and_eq_true_iff.mp hv
  · cases h

theorem ldfreqCheck_none {p : Params} {v : List (Symbol × Nat)} (h : ldfreqCheck p v = none) :
    (v.map (·.1)).Nodup ∧ (∀ e ∈ v, countOk p e.2 = true) ∧ symbolsFit p (v.map (·.1)) = true := by
  unfold ldfreqCheck at h
  split at h
  · next hv =>
    split at h
    · next hfit =>
      rw [Bool.and_eq_true, List.all_eq_true] at hv
      rw [Bool.and_eq_true] at hfit
      exact ⟨of_decide_eq_true hv.2, hv.1, hfit.2⟩
    · cases h
  · cases h

/-- A check never reports success as an error. -/
theorem loadChecks_ne_ok (p : Params) :
    (∀ v, ldtextCheck p v ≠ some .ok) ∧ (∀ v, ldfreqCheck p v ≠ some .ok) ∧
    (∀ v, lddataCheck p v ≠ some .ok) ∧ (∀ v, ldctabCheck p v ≠ some .ok) := by
  refine ⟨fun v => ?_, fun v => ?_, fun v => ?_, fun v => ?_⟩
  · unfold ldtextCheck; split <;> simp
  · unfold ldfreqCheck; split
    · split <;> simp
    · simp
  · unfold lddataCheck; split <;> simp
  · unfold ldctabCheck; split <;> simp

theorem runLoad_statusOk {f : Flag} {check : Option ResultCode} (hc : check ≠ some .ok)
    {store : State → State} (hst : StoresOnly f store) {s : State} (hs : StatusOk s.ctl) :
    StatusOk (runLoad f check store s).ctl := by
  rw [load_ctl f check hc store s hst.ctl]
  cases check with
  | none => exact hs.okControl _
  | some c => exact hs.errControl _ (fun h => hc (by rw [h]))

/-! ### The host's part of a step -/

/-- With CMD empty, HUFF accepts the host's next action when it is not busy, and reset always
(R64, R260). -/
theorem step_hostAct {s : State} {a : HostAction} {rest : List HostAction}
    (hcmd : s.ctl.cmd = none) (hp : s.host.pending = a :: rest) (ha : s.busy = false ∨ a = .reset) :
    step s = takeCommand (hostAct a { s with host := { s.host with pending := rest } }) := by
  unfold step advance
  rw [hcmd, hp]
  rcases ha with ha | rfl
  · simp [ha]
  · simp

/-- CMD holds nothing once HUFF has taken its word (R36). -/
theorem takeCommand_cmd {s t : State} (h : takeCommand s = .next t) : t.ctl.cmd = none := by
  unfold takeCommand at h
  split at h
  · unfold runWord at h
    split at h
    · cases h; rfl
    · exact exec_cmd h
  · next hc => cases h; exact hc

/-- CMD holds nothing after a step (R36). -/
theorem step_cmd {s t : State} (h : step s = .next t) : t.ctl.cmd = none := by
  unfold step advance at h
  split at h
  · exact takeCommand_cmd h
  · next hc _ => cases h; exact hc
  · split at h
    · cases h
    · exact takeCommand_cmd h

/-- Settles O7: the word the host writes is taken in the same step, which leaves CMD empty. -/
theorem cmdIssuesAndHoldsNothing : Obligations.CmdIssuesAndHoldsNothing := by
  refine ⟨fun s w rest hcmd hbusy hp => ?_, fun _ _ => step_cmd, fun _ => rfl⟩
  rw [step_hostAct hcmd hp (.inl hbusy)]
  show runWord w { s with
    ctl := { s.ctl with cmd := none }, host := { s.host with pending := rest } } = _
  rw [← hcmd]

/-- Settles O55: every end of an action keeps the three registers consistent. -/
theorem everyStepKeepsStatusConsistent : Obligations.EveryStepKeepsStatusConsistent := by
  refine step_keeps (fun s => StatusOk s.ctl) (fun _ _ h => h) (fun _ _ h => h)
    (fun _ _ _ => exec_statusOk) (fun _ h => endWith_statusOk h (by decide)) ?_ ?_ ?_ ?_
    (fun s _ => applyReset_statusOk s)
  · exact fun v s => runLoad_statusOk ((loadChecks_ne_ok s.params).1 v) (storeText_only v)
  · exact fun v s => runLoad_statusOk ((loadChecks_ne_ok s.params).2.1 v) (storeFreq_only v)
  · exact fun v s => runLoad_statusOk ((loadChecks_ne_ok s.params).2.2.1 v) (storeData_only v)
  · exact fun v s => runLoad_statusOk ((loadChecks_ne_ok s.params).2.2.2 v) (storeCtab_only v)

/-! ### Reset -/

/-- Every flag is 0 after reset (R44). -/
@[simp] theorem applyReset_flag (s : State) (f : Flag) : (applyReset s).flag f = false :=
  BitVec.getLsbD_zero

/-- Settles O14: the reset action is taken whatever BUSY holds, and leaves the stated values. -/
theorem resetLeavesTheStatedValues : Obligations.ResetLeavesTheStatedValues := by
  refine ⟨fun s rest hcmd hp => ?_, rfl, fun x => by cases x <;> rfl, rfl, rfl, rfl, rfl⟩
  refine ⟨applyReset { s with host := { s.host with pending := rest } }, ?_, rfl,
    fun x => by cases x <;> rfl, rfl, rfl, rfl, rfl, fun x hx => ?_, ?_, ?_, ?_, rfl, rfl⟩
  · rw [step_hostAct hcmd hp (.inr rfl)]
    exact take_none rfl
  · cases x
    case heap => exact absurd rfl hx
    all_goals simp [hostRead, replyIf, spaceReadable]
  all_goals simp [hostRead, replyIf]

end Sys2Proof.Machine
end

section
/-! ## BUILD on a table within the capacities -/

namespace Sys2Proof.Machine

/-- A table within `NSYM_MAX` leaves room for the nodes of its tree (R144). -/
theorem nnodeMax_admits_tree {p : Params} {n : Nat} (hn : 1 ≤ n) (h : p.nsymMax.admits n = true) :
    p.nnodeMax.admits (2 * n - 1) = true := by
  rw [Params.nnodeMax_admits hn]
  · exact h
  · intro h0
    rw [h0, Bound.admits, decide_eq_true_eq] at h
    omega

/-- What BUILD's body leaves on a table within the capacities (R137 to R145), in terms of the
state that BUILD starts from. -/
theorem build_runs {s : State} (hne : s.mem.freq ≠ [])
    (hfit : s.params.freqFits (totalCount s.mem.freq) = true)
    (hcap : s.params.nsymMax.admits s.mem.freq.length = true) :
    ∃ w, Growing s.mem.freq w ∧ w.heap = [2 * s.mem.freq.length - 2] ∧
      IsTree w.nodes (2 * s.mem.freq.length - 2) ∧
      ∃ k, buildBody (s.invalidate .tree) = .ok { s.invalidate .tree with
        mem := { s.mem with node := w.nodes, heap := [] },
        regs := { s.regs with root := 2 * s.mem.freq.length - 2 }, tick := k } :=
  buildBody_spec (s := s.invalidate .tree) rfl hne hfit
    (nnodeMax_admits_tree (List.length_pos_iff.mpr hne) hcap)

/-- Settles O26: the merge loop leaves one node in the heap, the root of a tree over the leaves. -/
theorem buildMakesAStrictBinaryTree : Obligations.BuildMakesAStrictBinaryTree := by
  intro s hflag hne hfit hcap
  obtain ⟨w, hgrown, hheap, htree, k, hbody⟩ := build_runs hne hfit hcap
  have hneeds : (neededFlags .build).all s.flag = true := by simp [neededFlags, hflag]
  refine ⟨w.nodes, k, run_ok hneeds hbody, htree, ?_, hgrown.leaves, hgrown.symbols, ?_⟩
  · have hsize := hgrown.size
    rw [hheap, List.length_singleton] at hsize
    omega
  · have htotal := hgrown.total
    rw [hheap] at htotal
    simpa [sumFreq] using htotal

end Sys2Proof.Machine
end

section
/-! ## What an action leaves of each buffer

For each flag of V: after a command or a load the buffer it vouches for is as it was, or is invalid,
or is the one that the action has just made. The invariants of the buffers rest on this. -/

namespace Sys2Proof.Machine

/-! ### Buffers -/

theorem Flag.buffer_injective {f g : Flag} {x : Space} (hf : f.buffer = some x)
    (hg : g.buffer = some x) : f = g := by
  have h : f.buffer = g.buffer := hf.trans hg.symm
  clear hf hg
  cases f <;> cases g <;> simp_all [Flag.buffer]

/-- HEAP has no flag (R25). -/
theorem Flag.buffer_ne_heap (f : Flag) : f.buffer ≠ some .heap := by
  cases f <;> simp [Flag.buffer]

/-- A command writes the buffer of its output flag, and HEAP (R61). -/
theorem mem_writtenSpaces {i : Instr} {x : Space} (h : x ∈ writtenSpaces i) :
    x = .heap ∨ ∃ g, outputFlag i = some g ∧ g.buffer = some x := by
  cases i <;> simp_all [writtenSpaces, outputFlag, Flag.buffer]
  exact h.symm.imp_right Eq.symm

theorem buffer_not_written {i : Instr} {f : Flag} {x : Space} (ho : outputFlag i ≠ some f)
    (hx : f.buffer = some x) : x ∉ writtenSpaces i := by
  intro hw
  rcases mem_writtenSpaces hw with rfl | ⟨g, hg, hgx⟩
  · exact f.buffer_ne_heap hx
  · exact ho (Flag.buffer_injective hx hgx ▸ hg)

/-- The contents of a space are a matter of memory alone. -/
theorem contentsOf_congr {s t : State} (h : t.mem = s.mem) (x : Space) :
    contentsOf x t = contentsOf x s := by
  cases x <;> simp [contentsOf, h]

@[simp] theorem contentsOf_endWith (x : Space) (c : ResultCode) (s : State) :
    contentsOf x (s.endWith c) = contentsOf x s := contentsOf_congr rfl x

@[simp] theorem contentsOf_setFlag (x : Space) (f : Flag) (s : State) :
    contentsOf x (s.setFlag f) = contentsOf x s := contentsOf_congr rfl x

@[simp] theorem contentsOf_commitOutput (x : Space) (out : Option Flag) (s : State) :
    contentsOf x (s.commitOutput out) = contentsOf x s := contentsOf_congr (by simp) x

theorem State.invalidate_contents {f : Flag} {s : State} {x : Space} (hx : f.buffer ≠ some x)
    (hh : f = .tree → x ≠ .heap) : contentsOf x (s.invalidate f) = contentsOf x s := by
  cases f
  case tree => cases x <;> simp_all [Flag.buffer, contentsOf, State.invalidate, State.clearFlag]
  all_goals rfl

theorem State.invalidateOutput_contents {out : Option Flag} {s : State} {x : Space}
    (hx : ∀ g, out = some g → g.buffer ≠ some x) (hh : x ≠ .heap) :
    contentsOf x (s.invalidateOutput out) = contentsOf x s := by
  cases out with
  | none => rfl
  | some g => exact State.invalidate_contents (hx g rfl) (fun _ => hh)

theorem State.spoil_contents {f : Flag} {s : State} {x : Space} (hx : f.buffer ≠ some x) :
    contentsOf x (s.spoil f) = contentsOf x s := by
  cases f <;> cases x <;> trivial

theorem State.spoil_root {f : Flag} {s : State} (hf : f ≠ .tree) :
    (s.spoil f).regs.root = s.regs.root := by
  cases f <;> trivial

/-- The flags are a matter of V alone. -/
theorem State.flag_congr {s t : State} (h : t.ctl = s.ctl) (f : Flag) : t.flag f = s.flag f := by
  rw [State.flag, h, State.flag]

@[simp] theorem State.flag_spoilOutput (out : Option Flag) (s : State) (f : Flag) :
    (s.spoilOutput out).flag f = s.flag f :=
  State.flag_congr (State.spoilOutput_ctl out s) f

theorem State.spoilOutput_contents {out : Option Flag} {s : State} {x : Space}
    (hx : ∀ g, out = some g → g.buffer ≠ some x) :
    contentsOf x (s.spoilOutput out) = contentsOf x s := by
  cases out with
  | none => rfl
  | some g => cases g <;> exact State.spoil_contents (hx _ rfl)

theorem State.spoilOutput_root {out : Option Flag} {s : State} (ho : out ≠ some .tree) :
    (s.spoilOutput out).regs.root = s.regs.root := by
  cases out with
  | none => rfl
  | some g =>
    cases g
    case tree => exact absurd rfl ho
    all_goals rfl

/-! ### A buffer that an action leaves as it was -/

/-- The flag `f`, the buffer it vouches for, ROOT with the tree, and the parameters are the same. -/
structure SameBuffer (f : Flag) (s t : State) : Prop where
  flag     : t.flag f = s.flag f
  params   : t.params = s.params
  contents : ∀ x, f.buffer = some x → contentsOf x t = contentsOf x s
  root     : f = .tree → t.regs.root = s.regs.root

/-- What a command leaves of the buffer of a flag: what was there, an invalid buffer (BUILD's is
empty then, R43 item 3), or what its body has made (R237, R238). -/
theorem exec_buffer (f : Flag) {i : Instr} {s t : State} (h : exec i s = .next t) :
    SameBuffer f s t ∨
    (t.flag f = false ∧ (f = .tree → t.mem.node = [])) ∨
    (outputFlag i = some f ∧ (neededFlags i).all s.flag = true ∧
      ∃ u, bodyOf i (s.invalidate f) = .ok u ∧ t = (u.setFlag f).endWith .ok) := by
  have hother : outputFlag i ≠ some f → ∀ x, f.buffer = some x →
      ∀ g, outputFlag i = some g → g.buffer ≠ some x :=
    fun ho x hx g hg hgx => ho (Flag.buffer_injective hx hgx ▸ hg)
  have hheap : ∀ x, f.buffer = some x → x ≠ .heap :=
    fun x hx hh => f.buffer_ne_heap (hh ▸ hx)
  rcases exec_ok h with ⟨-, rfl⟩ | ⟨hn, u, hb, rfl⟩ | ⟨-, c, hb, rfl⟩
  · exact .inl ⟨rfl, rfl, fun _ _ => rfl, fun _ => rfl⟩
  · by_cases ho : outputFlag i = some f
    · rw [ho] at hb ⊢
      exact .inr (.inr ⟨rfl, hn, u, hb, rfl⟩)
    · obtain ⟨hctl, hparams, -, hcont, hroot, -⟩ := body_frame hb
      refine .inl ⟨by simp [State.flag_congr hctl, ho], by simp [hparams], fun x hx => ?_,
        fun hf => ?_⟩
      · simp [hcont x (buffer_not_written ho hx),
          State.invalidateOutput_contents (hother ho x hx) (hheap x hx)]
      · have hi : i ≠ .build := by rintro rfl; exact ho (hf ▸ rfl)
        simp [hroot hi]
  · by_cases ho : outputFlag i = some f
    · refine .inr (.inl ⟨by simp [ho], fun hf => ?_⟩)
      simp [State.invalidateOutput_mem, ho, hf]
    · refine .inl ⟨by simp [ho], by simp, fun x hx => ?_, fun hf => ?_⟩
      · simp [State.spoilOutput_contents (hother ho x hx),
          State.invalidateOutput_contents (hother ho x hx) (hheap x hx)]
      · simp [State.spoilOutput_root (hf ▸ ho)]

/-! ### The loads -/

/-- A load writes no space but its own buffer (R61, R65). -/
theorem runLoad_contents {f : Flag} {check : Option ResultCode} {store : State → State} {s : State}
    {x : Space} (hst : StoresOnly f store) (hf : f ≠ .tree) (hx : f.buffer ≠ some x) :
    contentsOf x (runLoad f check store s) = contentsOf x s := by
  have hinv : contentsOf x (s.invalidate f) = contentsOf x s :=
    State.invalidate_contents hx (fun h => absurd h hf)
  cases check with
  | none =>
    rw [runLoad_ok, contentsOf_endWith, contentsOf_setFlag, hst.contents _ x hx, hinv]
  | some c =>
    rw [runLoad_error, contentsOf_endWith, State.spoil_contents hx, hinv]

/-- What a load leaves of the buffers of the other flags. -/
theorem runLoad_sameBuffer {f g : Flag} {check : Option ResultCode} {store : State → State}
    {s : State} (hst : StoresOnly f store) (hf : f ≠ .tree) (hfg : f ≠ g) :
    SameBuffer g s (runLoad f check store s) := by
  refine ⟨?_, load_params f check store s hst.params, fun x hx => ?_, fun _ => ?_⟩
  · rw [load_flag f g check store s hst.ctl, if_neg hfg]
  · exact runLoad_contents hst hf (fun h => hfg (Flag.buffer_injective h hx))
  · cases check with
    | none => simp [runLoad_ok, hst.root]
    | some c => simp [runLoad_error, State.spoil_root hf]

end Sys2Proof.Machine
end

section
/-! ## The invariants of the machine

One rule per invariant and kind of action; a step is made of these (`step_keeps`). -/

namespace Sys2Proof.Machine

/-! ### Invariants of a buffer that an action leaves as it was -/

theorem FreqOk.of_same {s t : State} (h : SameBuffer .freq s t) (hs : FreqOk s) : FreqOk t := by
  have hc : t.mem.freq = s.mem.freq := ReadValue.freqTable.inj (h.contents .freq rfl)
  rw [FreqOk, h.flag, h.params, hc]
  exact hs

theorem InvTableOk.of_same {s t : State} (h : SameBuffer .inv s t) (hs : InvTableOk s) :
    InvTableOk t := by
  have hc : t.mem.inv = s.mem.inv := ReadValue.inverseTable.inj (h.contents .inv rfl)
  rw [InvTableOk, h.flag, hc]
  exact hs

theorem CodeOk.of_same {s t : State} (h : SameBuffer .code s t) (hs : CodeOk s) : CodeOk t := by
  have hc : t.mem.code = s.mem.code := ReadValue.codeTable.inj (h.contents .code rfl)
  rw [CodeOk, h.flag, hc]
  exact hs

theorem TreeOk.of_same {s t : State} (h : SameBuffer .tree s t) (hs : TreeOk s) : TreeOk t := by
  have hc : t.mem.node = s.mem.node := ReadValue.nodes.inj (h.contents .node rfl)
  rw [TreeOk, h.flag, h.params, hc, h.root rfl]
  exact hs

theorem HeapOk.congr {s t : State} (hn : t.mem.node = s.mem.node) (hh : t.mem.heap = s.mem.heap)
    (hs : HeapOk s) : HeapOk t := by
  rw [HeapOk, heapInRange, hn, hh]
  exact hs

theorem HeapOk.of_contents {s t : State} (hn : contentsOf .node t = contentsOf .node s)
    (hh : contentsOf .heap t = contentsOf .heap s) (hs : HeapOk s) : HeapOk t :=
  hs.congr (ReadValue.nodes.inj hn) (ReadValue.indices.inj hh)

/-- The empty heap is in range and ordered. -/
theorem HeapOk.of_empty {s : State} (h : s.mem.heap = []) : HeapOk s := by
  simp [HeapOk, heapInRange, heapOrdered, h]

/-! ### FREQ and COUNT -/

theorem nsymMax_ne_zero {p : Params} (hp : paramsLegal p = true) : p.nsymMax ≠ .fin 0 := by
  obtain ⟨-, -, h, -⟩ := paramsLegal_iff.mp hp
  intro h0
  rw [h0] at h
  cases h

/-- A number of occurrences in a text that fits fits `W_FREQ` bits (D3). -/
theorem freqFits_of_text {p : Params} (hp : paramsLegal p = true) {n : Nat}
    (hn : p.textMax.admits n = true) : p.freqFits n = true := by
  obtain ⟨-, -, -, -, -, -, -, -, h⟩ := paramsLegal_iff.mp hp
  unfold Params.freqFits
  split
  · next w hw =>
    rw [hw] at h
    cases ht : p.textMax with
    | inf => rw [ht] at h; cases h
    | fin m =>
      rw [ht] at h hn
      simp only [textCountsFit, Bound.admits, decide_eq_true_eq] at h hn ⊢
      omega
  · rfl

theorem mem_tableOf {text : List Symbol} {e : Symbol × Nat} (h : e ∈ tableOf text) :
    e.1 ∈ text ∧ e.2 = text.count e.1 := by
  obtain ⟨c, hc, rfl⟩ := List.mem_map.mp h
  exact ⟨List.mem_eraseDups.mp hc, rfl⟩

theorem tableOf_symbols (text : List Symbol) : (tableOf text).map (·.1) = text.eraseDups :=
  List.map_map.trans (List.map_id _)

/-- COUNT's body makes the table of TEXT (R135). -/
theorem countBody_freq {s t : State} (h : countBody s = .ok t) :
    t = { s with mem := { s.mem with freq := tableOf s.mem.text } } := by
  obtain ⟨l, hl, rfl⟩ := countBody_ok h
  rw [countLoop_text] at hl
  split at hl
  · cases hl; rfl
  · cases hl

theorem exec_freqOk {i : Instr} {s t : State} (hi : MachineInv s) (h : exec i s = .next t) :
    FreqOk t := by
  obtain ⟨hparams, hwf, -, hfreq, -⟩ := hi
  rcases exec_buffer .freq h with hsame | ⟨hinvalid, -⟩ | ⟨ho, -, u, hb, rfl⟩
  · exact hfreq.of_same hsame
  · exact fun hvalid => absurd hvalid (by simp [hinvalid])
  · obtain rfl : i = .count := by cases i <;> simp_all [outputFlag]
    obtain rfl := countBody_freq hb
    intro _
    show ((tableOf s.mem.text).map (·.1)).Nodup ∧
      ∀ e ∈ tableOf s.mem.text, countOk s.params e.2 = true
    refine ⟨tableOf_symbols _ ▸ nodup_eraseDups _, fun e he => ?_⟩
    obtain ⟨hmem, hcount⟩ := mem_tableOf he
    have hpos : 0 < s.mem.text.count e.1 := List.count_pos_iff.mpr hmem
    have hfits : s.params.freqFits (s.mem.text.count e.1) = true :=
      freqFits_of_text hparams (Bound.admits_mono List.count_le_length (Memory.wf_iff.mp hwf).1)
    simp [countOk, hcount, hfits, hpos.ne']

/-! ### INV and DESTAB -/

theorem exec_invTableOk {i : Instr} {s t : State} (hs : InvTableOk s) (h : exec i s = .next t) :
    InvTableOk t := by
  rcases exec_buffer .inv h with hsame | ⟨hinvalid, -⟩ | ⟨ho, -, u, hb, rfl⟩
  · exact hs.of_same hsame
  · exact fun hvalid => absurd hvalid (by simp [hinvalid])
  · obtain rfl : i = .destab := by cases i <;> simp_all [outputFlag]
    obtain ⟨l, hl, rfl⟩ := destabBody_ok hb
    obtain ⟨-, hnodup, hlen, -⟩ := destabLoop_ok hl (by simp) (by simp) (by simp) rfl
    exact fun _ => ⟨hnodup, hlen⟩

/-! ### NODE and BUILD -/

/-- The tree that BUILD's body makes from a table that FREQ may hold (R137 to R145). -/
theorem buildBody_tree {s u : State} (hcap : s.params.nsymMax.admits s.mem.freq.length = true)
    (hb : buildBody (s.invalidate .tree) = .ok u) :
    IsTree u.mem.node u.regs.root ∧ leafSymbols u.mem.node = s.mem.freq.map (·.1) ∧
    (∀ n ∈ u.mem.node, s.params.freqFits n.freq = true) ∧ u.mem.heap = [] := by
  obtain ⟨hne, hfit, -⟩ := buildBody_ok hb
  obtain ⟨w, hgrown, -, htree, k, hrun⟩ := build_runs (s := s) hne hfit hcap
  rw [hb] at hrun
  cases hrun
  exact ⟨htree, hgrown.symbols, fun n hn => Params.freqFits_mono (hgrown.bounded n hn) hfit, rfl⟩

theorem IsTree.ne_nil {nodes : List Node} {root : Nat} (h : IsTree nodes root) : nodes ≠ [] := by
  rintro rfl
  cases h.1

theorem TreeOk.of_invalid {s : State} (hf : s.flag .tree = false) (hn : s.mem.node = []) :
    TreeOk s := by
  simp [TreeOk, hf, hn]

theorem exec_treeOk {i : Instr} {s t : State} (hi : MachineInv s) (h : exec i s = .next t) :
    TreeOk t := by
  obtain ⟨-, hwf, -, hfreq, -, htree, -⟩ := hi
  rcases exec_buffer .tree h with hsame | ⟨hinvalid, hempty⟩ | ⟨ho, hneeds, u, hb, rfl⟩
  · exact htree.of_same hsame
  · exact TreeOk.of_invalid hinvalid (hempty rfl)
  · obtain rfl : i = .build := by cases i <;> simp_all [outputFlag]
    have hvalid : s.flag .freq = true := by simpa [neededFlags] using hneeds
    obtain ⟨hmade, hsymbols, hfits, -⟩ := buildBody_tree (Memory.wf_iff.mp hwf).2.1 hb
    obtain ⟨-, hparams, -⟩ := body_frame (i := .build) hb
    rw [State.invalidate_params] at hparams
    refine ⟨by simp [hmade.ne_nil], fun _ => ⟨hmade, ?_, ?_⟩⟩
    · rw [State.endWith_mem, State.setFlag_mem, hsymbols]
      exact (hfreq hvalid).1
    · rw [State.endWith_params, State.setFlag_params, hparams]
      exact hfits

/-! ### CODE and GENCODES -/

/-- The leaves of a tree within `NNODE_MAX` are within `NSYM_MAX` (R144). -/
theorem leafSymbols_admits {s : State} (hparams : paramsLegal s.params = true)
    (hwf : s.mem.wf s.params = true) {root : Nat} (ht : IsTree s.mem.node root) :
    s.params.nsymMax.admits (leafSymbols s.mem.node).length = true := by
  obtain ⟨-, -, hnode, -⟩ := Memory.wf_iff.mp hwf
  obtain ⟨hpos, hlen, -⟩ := ht
  rwa [hlen, Params.nnodeMax_admits hpos (nsymMax_ne_zero hparams)] at hnode

theorem exec_codeOk {i : Instr} {s t : State} (hi : MachineInv s) (h : exec i s = .next t) :
    CodeOk t := by
  obtain ⟨hparams, hwf, -, -, -, htree, -, hcode⟩ := hi
  rcases exec_buffer .code h with hsame | ⟨hinvalid, -⟩ | ⟨ho, hneeds, u, hb, rfl⟩
  · exact hcode.of_same hsame
  · exact fun hvalid => absurd hvalid (by simp [hinvalid])
  · obtain rfl : i = .gencodes := by cases i <;> simp_all [outputFlag]
    have hvalid : s.flag .tree = true := by simpa [neededFlags] using hneeds
    obtain ⟨hist, hnodup, -⟩ := htree.2 hvalid
    obtain ⟨l, hl, rfl⟩ := gencodesBody_ok hb
    obtain ⟨out, hgen, hperm, hprefix, -⟩ :=
      generate_spec hist (leafSymbols_admits hparams hwf hist)
    obtain rfl : out = l := Except.ok.inj (hgen.symm.trans hl)
    refine fun _ => ⟨?_, hperm.nodup_iff.mpr hnodup, hprefix⟩
    rintro (rfl : out = [])
    have hlen := hperm.length_eq
    have hpos := hist.1
    simp only [List.map_nil, List.length_nil] at hlen
    omega

/-! ### HEAP and the heap commands -/

theorem heapInRange_iff {s : State} :
    heapInRange s = true ↔ ∀ k ∈ s.mem.heap, k < s.mem.node.length := by
  simp [heapInRange]

/-- The body of a command other than BUILD keeps HEAP a heap of nodes (R25, R120 to R122). -/
theorem bodyOf_heapOk {i : Instr} {s u : State} (hi : i ≠ .build) (hs : HeapOk s)
    (hb : bodyOf i s = .ok u) : HeapOk u := by
  obtain ⟨hrange, hord⟩ := id hs
  rw [heapInRange_iff] at hrange
  by_cases hw : Space.heap ∈ writtenSpaces i
  · cases i with
    | hinit n =>
      obtain ⟨hn, rfl⟩ := hinitBody_ok hb
      obtain ⟨hperm, hordered⟩ := heapInit_spec (f := freqOf s.mem.node) s.params n s.tick
      refine ⟨heapInRange_iff.mpr fun k hk => ?_, hordered⟩
      exact (List.mem_range.mp (hperm.mem_iff.mp hk)).trans_le hn
    | hpush k =>
      obtain ⟨hk, -, l, hl, rfl⟩ := hpushBody_ok hb
      obtain ⟨hperm, hordered, -⟩ := heapPush_ok hord hl
      refine ⟨heapInRange_iff.mpr fun j hj => ?_, hordered⟩
      rcases List.mem_append.mp (hperm.mem_iff.mp hj) with hj | hj
      · exact hrange j hj
      · exact List.mem_singleton.mp hj ▸ hk
    | hpop =>
      obtain ⟨-, v, l, hl, rfl⟩ := hpopBody_ok hb
      obtain ⟨-, hperm, hordered⟩ := heapPop_ok hord hl
      refine ⟨heapInRange_iff.mpr fun j hj => ?_, hordered⟩
      exact hrange j (hperm.mem_iff.mpr (List.mem_cons_of_mem _ hj))
    | build => exact absurd rfl hi
    | _ => simp [writtenSpaces] at hw
  · obtain ⟨-, -, -, hcont, -⟩ := body_frame hb
    have hnode : Space.node ∉ writtenSpaces i := by cases i <;> simp_all [writtenSpaces]
    exact hs.of_contents (hcont .node hnode) (hcont .heap hw)

theorem exec_heapOk {i : Instr} {s t : State} (hi : MachineInv s) (h : exec i s = .next t) :
    HeapOk t := by
  obtain ⟨-, hwf, -, -, -, -, hheap, -⟩ := hi
  have hstart : HeapOk (s.invalidateOutput (outputFlag i)) := by
    by_cases ho : outputFlag i = some .tree
    · exact HeapOk.of_empty (by simp [State.invalidateOutput_mem, ho])
    · refine hheap.congr ?_ ?_ <;> rw [State.invalidateOutput_mem, if_neg ho]
  rcases exec_ok h with ⟨-, rfl⟩ | ⟨-, u, hb, rfl⟩ | ⟨-, c, -, rfl⟩
  · exact hheap
  · have hu : HeapOk u := by
      by_cases hbuild : i = .build
      · subst hbuild
        exact HeapOk.of_empty (buildBody_tree (Memory.wf_iff.mp hwf).2.1 hb).2.2.2
      · exact bodyOf_heapOk hbuild hstart hb
    exact hu.congr (by simp) (by simp)
  · exact hstart.congr (by simp) (by simp)

/-! ### A step -/

theorem exec_params {i : Instr} {s t : State} (h : exec i s = .next t) : t.params = s.params := by
  rcases exec_ok h with ⟨-, rfl⟩ | ⟨-, u, hb, rfl⟩ | ⟨-, c, -, rfl⟩
  · rfl
  · simp [(body_frame hb).2.1]
  · simp

/-- A command keeps every space within its capacity (R61, R62). -/
theorem exec_wf {i : Instr} {s t : State} (hs : s.mem.wf s.params = true)
    (h : exec i s = .next t) : t.mem.wf t.params = true := by
  rw [exec_params h]
  have hstart := State.invalidateOutput_wf hs (outputFlag i)
  rw [← State.invalidateOutput_params (outputFlag i) s] at hstart
  rcases exec_ok h with ⟨-, rfl⟩ | ⟨-, u, hb, rfl⟩ | ⟨-, c, -, rfl⟩
  · exact hs
  · simpa using (bodyOf_wf hb hstart).1
  · simpa using State.spoilOutput_wf hstart (outputFlag i)

/-- A command keeps the invariants. -/
theorem exec_inv {i : Instr} {s t : State} (hi : MachineInv s) (h : exec i s = .next t) :
    MachineInv t := by
  obtain ⟨hparams, hwf, hstatus, -, hinv, -⟩ := id hi
  exact ⟨exec_params h ▸ hparams, exec_wf hwf h, exec_statusOk hstatus h, exec_freqOk hi h,
    exec_invTableOk hinv h, exec_treeOk hi h, exec_heapOk hi h, exec_codeOk hi h⟩

/-- An illegal word writes STATUS, ERR and ERRLOG alone (R89). -/
theorem endWith_inv {s : State} (hi : MachineInv s) {c : ResultCode} (hc : c ≠ .ok) :
    MachineInv (s.endWith c) := by
  obtain ⟨hparams, hwf, hstatus, hrest⟩ := hi
  exact ⟨hparams, hwf, endWith_statusOk hstatus hc, hrest⟩

/-- The invariants after a load: only its own buffer is to be looked at, and that has an invariant
of its own only when it is FREQ. -/
theorem runLoad_inv {f : Flag} {check : Option ResultCode} {store : State → State} {s : State}
    (hi : MachineInv s) (hst : StoresOnly f store) (hf : f ∈ [Flag.text, .freq, .data, .ctab])
    (hc : check ≠ some .ok) (hwf : (runLoad f check store s).mem.wf s.params = true)
    (hfreq : f = .freq → FreqOk (runLoad f check store s)) :
    MachineInv (runLoad f check store s) := by
  obtain ⟨hparams, -, hstatus, hfr, hinv, htree, hheap, hcode⟩ := hi
  have hp := load_params f check store s hst.params
  have hne : ∀ g ∈ [Flag.tree, .inv, .code], f ≠ g := by
    rintro g hg rfl
    simp only [List.mem_cons, List.not_mem_nil, or_false] at hf hg
    rcases hg with rfl | rfl | rfl <;> simp at hf
  have hsame : ∀ g, f ≠ g → SameBuffer g s (runLoad f check store s) := fun g hg =>
    runLoad_sameBuffer hst (hne .tree (by simp)) hg
  refine ⟨by rw [hp]; exact hparams, by rw [hp]; exact hwf, runLoad_statusOk hc hst hstatus, ?_,
    hinv.of_same (hsame _ (hne _ (by simp))), htree.of_same (hsame _ (hne _ (by simp))), ?_,
    hcode.of_same (hsame _ (hne _ (by simp)))⟩
  · by_cases hff : f = .freq
    · exact hfreq hff
    · exact hfr.of_same (hsame _ hff)
  · exact hheap.of_contents ((hsame _ (hne .tree (by simp))).contents .node rfl)
      (runLoad_contents hst (hne _ (by simp)) f.buffer_ne_heap)

/-- FREQ after LDFREQ (R23, R67). -/
theorem loadFreq_freqOk (v : List (Symbol × Nat)) (s : State) : FreqOk (loadFreq v s) := by
  unfold loadFreq
  intro hvalid
  rw [load_flag .freq .freq _ _ s (storeFreq_only v).ctl, if_pos rfl, Option.isNone_iff_eq_none]
    at hvalid
  obtain ⟨hnodup, hcounts, -⟩ := ldfreqCheck_none hvalid
  rw [hvalid]
  exact ⟨hnodup, hcounts⟩

/-- The state after reset meets the invariants, whatever came before (R43, R44). -/
theorem applyReset_inv {s : State} (hparams : paramsLegal s.params = true) :
    MachineInv (applyReset s) :=
  ⟨hparams, applyReset_wf s, applyReset_statusOk s, by simp [FreqOk], by simp [InvTableOk],
    TreeOk.of_invalid (applyReset_flag s _) rfl, HeapOk.of_empty rfl, by simp [CodeOk]⟩

/-- Settles O54: `State.reset` is what reset leaves of itself. -/
theorem resetMeetsTheInvariants : Obligations.ResetMeetsTheInvariants := by
  have hreset : applyReset State.reset = State.reset := rfl
  refine ⟨?_, ?_⟩ <;> rw [← hreset]
  · exact applyReset_inv (legalise_legal Config.rawParams)
  · simp [SymbolsOk]

/-- Settles O58: every part of a step keeps the invariants. -/
theorem everyStepKeepsTheInvariants : Obligations.EveryStepKeepsTheInvariants := by
  refine step_keeps MachineInv (fun _ _ h => h) (fun _ _ h => h) (fun _ _ _ => exec_inv)
    (fun _ h => endWith_inv h (by decide)) ?_ ?_ ?_ ?_ (fun _ h => applyReset_inv h.1)
  · exact fun v s h => runLoad_inv h (storeText_only v) (by simp) ((loadChecks_ne_ok _).1 v)
      (loadText_wf h.2.1 v) (by simp)
  · exact fun v s h => runLoad_inv h (storeFreq_only v) (by simp) ((loadChecks_ne_ok _).2.1 v)
      (loadFreq_wf h.2.1 v) (fun _ => loadFreq_freqOk v s)
  · exact fun v s h => runLoad_inv h (storeData_only v) (by simp) ((loadChecks_ne_ok _).2.2.1 v)
      (loadData_wf h.2.1 v) (by simp)
  · exact fun v s h => runLoad_inv h (storeCtab_only v) (by simp) ((loadChecks_ne_ok _).2.2.2 v)
      (loadCtab_wf h.2.1 v) (by simp)

end Sys2Proof.Machine
end

section
/-! ## Symbols within `SYMLEN_MAX` -/

namespace Sys2Proof.Machine

/-- The symbols in the buffer that a flag vouches for (R21). -/
def symbolsOf (f : Flag) (s : State) : List Symbol :=
  match f with
  | .text => s.mem.text
  | .freq => s.mem.freq.map (·.1)
  | .tree => leafSymbols s.mem.node
  | .code => s.mem.code.map (·.1)
  | .inv  => s.mem.inv.map (·.2)
  | .out  => s.mem.out
  | .bits => []
  | .data => []
  | .ctab => []
  | .hres => []

theorem symbolsOk_iff {s : State} : SymbolsOk s ↔
    ∀ f : Flag, s.flag f = true → symbolsFit s.params (symbolsOf f s) = true := by
  constructor
  · rintro ⟨htext, hfreq, htree, hcode, hinv, hout⟩ f
    cases f
    case text => exact htext
    case freq => exact hfreq
    case tree => exact htree
    case code => exact hcode
    case inv => exact hinv
    case out => exact hout
    all_goals exact fun _ => rfl
  · exact fun h => ⟨h .text, h .freq, h .tree, h .code, h .inv, h .out⟩

theorem symbolsOf_of_same {f : Flag} {s t : State} (h : SameBuffer f s t) :
    symbolsOf f t = symbolsOf f s := by
  have hc := h.contents
  cases f <;> simp_all [symbolsOf, Flag.buffer, contentsOf]

theorem symbolsFit_iff {p : Params} {l : List Symbol} :
    symbolsFit p l = true ↔ ∀ c ∈ l, p.symlenMax.admits c.len = true :=
  List.all_eq_true

/-- Symbols taken from symbols within their length are so too. -/
theorem symbolsFit_subset {p : Params} {l m : List Symbol} (hm : symbolsFit p m = true)
    (h : ∀ c ∈ l, c ∈ m) : symbolsFit p l = true :=
  symbolsFit_iff.mpr fun c hc => symbolsFit_iff.mp hm c (h c hc)

/-! ### The symbols that a body puts into its output come from its input -/

/-- A round of the merge loop adds no leaf (R139). -/
theorem mergeOnce_leafSymbols {p : Params} {w w' : Forest} (h : mergeOnce p w = .ok w') :
    leafSymbols w'.nodes = leafSymbols w.nodes := by
  simp only [mergeOnce] at h
  split at h
  · cases h
  · split at h
    · cases h
    · split at h
      · cases h
      · next nodes hnodes =>
        split at h
        · cases h
        · cases h
          simp [(memAppend_ok hnodes).1, leafSymbols, Node.sym?]

theorem mergeLoop_leafSymbols {p : Params} {rounds : Nat} {w w' : Forest}
    (h : mergeLoop p rounds w = .ok w') : leafSymbols w'.nodes = leafSymbols w.nodes := by
  induction rounds generalizing w with
  | zero => cases h; rfl
  | succ n ih =>
    unfold mergeLoop at h
    split at h
    · cases h; rfl
    · split at h
      · cases h
      · next w1 hm => exact (ih h).trans (mergeOnce_leafSymbols hm)

/-- BUILD's leaves hold the symbols of FREQ (R138), whatever FREQ holds. -/
theorem buildBody_leafSymbols {s u : State} (hb : buildBody (s.invalidate .tree) = .ok u) :
    leafSymbols u.mem.node = s.mem.freq.map (·.1) := by
  obtain ⟨-, -, leaves, w, root, rest, hl, hw, -, rfl⟩ := buildBody_ok hb
  have hleaves : leaves = leavesOf s.mem.freq := (memAppend_ok hl).1
  calc leafSymbols w.nodes = leafSymbols leaves := mergeLoop_leafSymbols hw
    _ = s.mem.freq.map (·.1) := by rw [hleaves, leafSymbols_leavesOf]

theorem mem_leafSymbols {nodes : List Node} {k : Nat} {c : Symbol} {f : Nat}
    (h : nodeAt nodes k = some (.leaf c f)) : c ∈ leafSymbols nodes :=
  List.mem_filterMap.mpr ⟨_, List.mem_of_getElem? h, rfl⟩

/-- GENCODES gives codes to symbols of leaves only, whatever NODE holds (R155). -/
theorem generate_symbols {p : Params} {nodes : List Node} {root : Nat}
    {out : List (Symbol × Bits)} (h : generate p nodes root = .ok out) :
    ∀ e ∈ out, e.1 ∈ leafSymbols nodes := by
  unfold generate at h
  split at h
  · cases h
  · next c f hroot =>
    obtain ⟨rfl, -⟩ := memAppend_ok h
    simpa using mem_leafSymbols hroot
  · refine walk_keeps (Q := fun _ code => ∀ e ∈ code, e.1 ∈ leafSymbols nodes)
      (fun n path st code sym f hn hq e he => ?_) (fun _ _ _ _ _ _ _ _ hq => hq) h (by simp)
    rcases List.mem_append.mp he with he | he
    · exact hq e he
    · rw [List.mem_singleton.mp he]
      exact mem_leafSymbols hn

/-- What the body of a command puts into its output buffer is within `SYMLEN_MAX`, when the inputs
it needs are. -/
theorem body_symbols {f : Flag} {i : Instr} {s u : State} (hs : SymbolsOk s)
    (ho : outputFlag i = some f) (hneeds : (neededFlags i).all s.flag = true)
    (hb : bodyOf i (s.invalidate f) = .ok u) : symbolsFit s.params (symbolsOf f u) = true := by
  obtain ⟨htext, hfreq, htree, -, hinv, -⟩ := hs
  cases i <;> cases ho
  case hpop | encode | serdata | sertab | desdata => rfl
  case count =>
    obtain rfl := countBody_freq hb
    refine symbolsFit_subset (htext (by simpa [neededFlags] using hneeds)) fun c hc => ?_
    obtain ⟨e, he, rfl⟩ := List.mem_map.mp hc
    exact (mem_tableOf he).1
  case build =>
    show symbolsFit s.params (leafSymbols u.mem.node) = true
    rw [buildBody_leafSymbols hb]
    exact hfreq (by simpa [neededFlags] using hneeds)
  case gencodes =>
    obtain ⟨l, hl, rfl⟩ := gencodesBody_ok hb
    refine symbolsFit_subset (htree (by simpa [neededFlags] using hneeds)) fun c hc => ?_
    obtain ⟨e, he, rfl⟩ := List.mem_map.mp hc
    exact generate_symbols hl e he
  case decode =>
    obtain ⟨-, hvalid⟩ : s.flag .bits = true ∧ s.flag .inv = true := by
      simpa [neededFlags] using hneeds
    obtain ⟨l, hl, rfl⟩ := decodeBody_ok hb
    exact symbolsFit_subset (hinv hvalid) (decodeLoop_ok hl (by simp) (by simp)).2
  case destab =>
    obtain ⟨l, hl, rfl⟩ := destabBody_ok hb
    exact (destabLoop_ok hl (by simp) (by simp) (by simp) rfl).2.2.2

/-! ### A step -/

theorem exec_symbolsOk {i : Instr} {s t : State} (hs : SymbolsOk s) (h : exec i s = .next t) :
    SymbolsOk t := by
  refine symbolsOk_iff.mpr fun f hvalid => ?_
  rw [exec_params h]
  rcases exec_buffer f h with hsame | ⟨hinvalid, -⟩ | ⟨ho, hneeds, u, hb, rfl⟩
  · rw [symbolsOf_of_same hsame]
    exact symbolsOk_iff.mp hs f (hsame.flag ▸ hvalid)
  · exact absurd hvalid (by simp [hinvalid])
  · have hu : symbolsOf f ((u.setFlag f).endWith .ok) = symbolsOf f u := by cases f <;> rfl
    rw [hu]
    exact body_symbols hs ho hneeds hb

/-- A load keeps the symbols within their length when what it stores is so. -/
theorem runLoad_symbolsOk {f : Flag} {check : Option ResultCode} {store : State → State}
    {s : State} (hs : SymbolsOk s) (hst : StoresOnly f store) (hf : f ≠ .tree)
    (hstored : check = none → symbolsFit s.params (symbolsOf f (runLoad f check store s)) = true) :
    SymbolsOk (runLoad f check store s) := by
  refine symbolsOk_iff.mpr fun g hvalid => ?_
  rw [load_params f check store s hst.params]
  by_cases hfg : f = g
  · subst hfg
    rw [load_flag f f check store s hst.ctl, if_pos rfl, Option.isNone_iff_eq_none] at hvalid
    exact hstored hvalid
  · have hsame := runLoad_sameBuffer (check := check) (s := s) hst hf hfg
    rw [symbolsOf_of_same hsame]
    exact symbolsOk_iff.mp hs g (hsame.flag ▸ hvalid)

theorem loadText_symbolsOk (v : List Symbol) {s : State} (hs : SymbolsOk s) :
    SymbolsOk (loadText v s) := by
  refine runLoad_symbolsOk hs (storeText_only v) (by simp) fun hc => ?_
  rw [hc]
  exact (ldtextCheck_none hc).2

theorem loadFreq_symbolsOk (v : List (Symbol × Nat)) {s : State} (hs : SymbolsOk s) :
    SymbolsOk (loadFreq v s) := by
  refine runLoad_symbolsOk hs (storeFreq_only v) (by simp) fun hc => ?_
  rw [hc]
  exact (ldfreqCheck_none hc).2.2

/-- Settles O57: a valid buffer after a step is an old one, or its symbols come from one or were
checked. -/
theorem everyStepKeepsSymbolsWithinTheirLength :
    Obligations.EveryStepKeepsSymbolsWithinTheirLength := by
  refine step_keeps SymbolsOk (fun _ _ h => h) (fun _ _ h => h) (fun _ _ _ => exec_symbolsOk)
    (fun _ h => h) (fun v _ => loadText_symbolsOk v) (fun v _ => loadFreq_symbolsOk v) ?_ ?_ ?_
  · exact fun v s h => runLoad_symbolsOk h (storeData_only v) (by simp) (fun _ => rfl)
  · exact fun v s h => runLoad_symbolsOk h (storeCtab_only v) (by simp) (fun _ => rfl)
  · exact fun s _ => by simp [SymbolsOk]

end Sys2Proof.Machine
end

section
/-! ## The frame of a command

What the table of R61 does not let a command write is the same after every part of its execution
frame (R237, R238), and so after the command. -/

namespace Sys2Proof.Machine

/-- What command `i` may not write is the same in `t` as in `s` (R61, R35, R239). -/
structure OthersKept (i : Instr) (s t : State) : Prop where
  contents : ∀ x, x ∉ writtenSpaces i → contentsOf x t = contentsOf x s
  root     : i ≠ .build → t.regs.root = s.regs.root
  hres     : i ≠ .hpop → t.regs.hres = s.regs.hres
  pad      : i ≠ .serdata → t.regs.pad = s.regs.pad
  flag     : ∀ f, outputFlag i ≠ some f → t.flag f = s.flag f
  busy     : t.busy = s.busy
  cmd      : t.ctl.cmd = s.ctl.cmd
  params   : t.params = s.params
  host     : t.host = s.host

theorem OthersKept.trans {i : Instr} {s t u : State} (hst : OthersKept i s t)
    (htu : OthersKept i t u) : OthersKept i s u where
  contents x hx := (htu.contents x hx).trans (hst.contents x hx)
  root hi := (htu.root hi).trans (hst.root hi)
  hres hi := (htu.hres hi).trans (hst.hres hi)
  pad hi := (htu.pad hi).trans (hst.pad hi)
  flag f hf := (htu.flag f hf).trans (hst.flag f hf)
  busy := htu.busy.trans hst.busy
  cmd := htu.cmd.trans hst.cmd
  params := htu.params.trans hst.params
  host := htu.host.trans hst.host

/-! ### The output of a command and what it may write -/

theorem outputFlag_tree {i : Instr} (h : outputFlag i = some .tree) : i = .build := by
  cases i <;> simp_all [outputFlag]

theorem outputFlag_hres {i : Instr} (h : outputFlag i = some .hres) : i = .hpop := by
  cases i <;> simp_all [outputFlag]

theorem outputFlag_data {i : Instr} (h : outputFlag i = some .data) : i = .serdata := by
  cases i <;> simp_all [outputFlag]

/-- The buffer of a command's output is a space that it writes (R35, R61). -/
theorem output_mem_writtenSpaces {i : Instr} {g : Flag} {x : Space} (hg : outputFlag i = some g)
    (hx : g.buffer = some x) : x ∈ writtenSpaces i := by
  cases i <;> cases hg <;> cases hx <;> simp [writtenSpaces]

theorem State.spoilOutput_hres {out : Option Flag} {s : State} (ho : out ≠ some .hres) :
    (s.spoilOutput out).regs.hres = s.regs.hres := by
  cases out with
  | none => rfl
  | some g => cases g <;> trivial

theorem State.spoilOutput_pad {out : Option Flag} {s : State} (ho : out ≠ some .data) :
    (s.spoilOutput out).regs.pad = s.regs.pad := by
  cases out with
  | none => rfl
  | some g => cases g <;> trivial

@[simp] theorem State.invalidateOutput_status (out : Option Flag) (s : State) :
    (s.invalidateOutput out).ctl.status = s.ctl.status := by
  cases out <;> simp [State.invalidateOutput]

@[simp] theorem State.invalidateOutput_cmd (out : Option Flag) (s : State) :
    (s.invalidateOutput out).ctl.cmd = s.ctl.cmd := by
  cases out <;> simp [State.invalidateOutput]

/-! ### The parts of the execution frame -/

section parts
variable (i : Instr) (s : State)

theorem invalidateOutput_othersKept : OthersKept i s (s.invalidateOutput (outputFlag i)) where
  contents x hx := by
    cases ho : outputFlag i with
    | none => rfl
    | some g =>
      refine State.invalidate_contents (fun hg => hx (output_mem_writtenSpaces ho hg)) ?_
      rintro rfl rfl
      cases outputFlag_tree ho
      simp [writtenSpaces] at hx
  root _ := by simp
  hres _ := by simp
  pad _ := by simp
  flag f hf := by simp [hf]
  busy := by simp [State.busy]
  cmd := by simp
  params := by simp
  host := by simp

theorem commitOutput_othersKept : OthersKept i s (s.commitOutput (outputFlag i)) where
  contents x _ := by simp
  root _ := by simp
  hres _ := by simp
  pad _ := by simp
  flag f hf := by simp [hf]
  busy := by simp [State.busy]
  cmd := by simp
  params := by simp
  host := by simp

theorem spoilOutput_othersKept : OthersKept i s (s.spoilOutput (outputFlag i)) where
  contents x hx := State.spoilOutput_contents fun _ ho hg => hx (output_mem_writtenSpaces ho hg)
  root hi := State.spoilOutput_root fun ho => hi (outputFlag_tree ho)
  hres hi := State.spoilOutput_hres fun ho => hi (outputFlag_hres ho)
  pad hi := State.spoilOutput_pad fun ho => hi (outputFlag_data ho)
  flag f _ := by simp
  busy := by simp [State.busy]
  cmd := by simp
  params := by simp
  host := by simp

theorem endWith_othersKept (c : ResultCode) : OthersKept i s (s.endWith c) where
  contents x _ := by simp
  root _ := rfl
  hres _ := rfl
  pad _ := rfl
  flag f _ := by simp
  busy := by simp
  cmd := rfl
  params := rfl
  host := rfl

end parts

theorem body_othersKept {i : Instr} {s t : State} (h : bodyOf i s = .ok t) : OthersKept i s t := by
  obtain ⟨hctl, hparams, hhost, hcontents, hroot, hhres, hpad⟩ := body_frame h
  exact ⟨hcontents, hroot, hhres, hpad, fun f _ => State.flag_congr hctl f,
    by rw [State.busy, hctl, State.busy], by rw [hctl], hparams, hhost⟩

/-- The frame of a command, through the parts of each of its three ends. -/
theorem exec_othersKept {i : Instr} {s t : State} (h : exec i s = .next t) : OthersKept i s t := by
  have hstart := invalidateOutput_othersKept i s
  rcases exec_ok h with ⟨-, rfl⟩ | ⟨-, u, hb, rfl⟩ | ⟨-, c, -, rfl⟩
  · exact endWith_othersKept i s _
  · exact ((hstart.trans (body_othersKept hb)).trans (commitOutput_othersKept i u)).trans
      (endWith_othersKept i _ _)
  · exact (hstart.trans (spoilOutput_othersKept i _)).trans (endWith_othersKept i _ _)

/-- Settles O11: every part of the execution frame leaves the rest of the state alone. -/
theorem commandsWriteOnlyTheirOutputs : Obligations.CommandsWriteOnlyTheirOutputs := by
  intro i s t h
  have hk := exec_othersKept h
  exact ⟨hk.contents, hk.root, hk.hres, hk.pad, hk.flag, hk.busy, hk.cmd, hk.params, hk.host⟩

end Sys2Proof.Machine
end

section
/-! ## The loads

What each validation answers (R66 to R69), and with it the state that each load leaves (R65). -/

namespace Sys2Proof.Machine

/-! ### What the validations answer -/

theorem countOk_iff {p : Params} {n : Nat} :
    countOk p n = true ↔ n ≠ 0 ∧ p.freqFits n = true := by
  simp [countOk]

theorem ldtextCheck_eq (p : Params) (v : List Symbol) :
    ldtextCheck p v =
      if p.textMax.admits v.length = true ∧ ∀ c ∈ v, p.symlenMax.admits c.len = true then none
      else some .capacity := by
  simp only [ldtextCheck, Bool.and_eq_true, symbolsFit_iff]

theorem ldfreqCheck_eq (p : Params) (v : List (Symbol × Nat)) :
    ldfreqCheck p v =
      if (∀ e ∈ v, e.2 ≠ 0 ∧ p.freqFits e.2 = true) ∧ (v.map (·.1)).Nodup then
        if p.nsymMax.admits v.length = true ∧ ∀ e ∈ v, p.symlenMax.admits e.1.len = true then none
        else some .capacity
      else some .illegalCommand := by
  simp only [ldfreqCheck, Bool.and_eq_true, List.all_eq_true, countOk_iff, distinctSymbols,
    decide_eq_true_eq, symbolsFit_iff, List.forall_mem_map]

/-! ### What the loads leave -/

section loads
variable {s : State} {c : ResultCode}

theorem loadText_accepted {v : List Symbol} (h : ldtextCheck s.params v = none) :
    loadText v s =
      { s with mem := { s.mem with text := v }, ctl := okControl (some .text) s.ctl } := by
  rw [loadText, h, runLoad_ok_eq _ _ _ (storeText_only v).ctl]
  rfl

theorem loadText_refused {v : List Symbol} (hc : c ≠ .ok) (h : ldtextCheck s.params v = some c) :
    ∃ l k, loadText v s = { s with
      mem := { s.mem with text := l }, ctl := errControl (some .text) c s.ctl, tick := k } := by
  rw [loadText, h, runLoad_err_eq _ _ hc]
  exact ⟨_, _, rfl⟩

theorem loadFreq_accepted {v : List (Symbol × Nat)} (h : ldfreqCheck s.params v = none) :
    loadFreq v s =
      { s with mem := { s.mem with freq := v }, ctl := okControl (some .freq) s.ctl } := by
  rw [loadFreq, h, runLoad_ok_eq _ _ _ (storeFreq_only v).ctl]
  rfl

theorem loadFreq_refused {v : List (Symbol × Nat)} (hc : c ≠ .ok)
    (h : ldfreqCheck s.params v = some c) :
    ∃ l k, loadFreq v s = { s with
      mem := { s.mem with freq := l }, ctl := errControl (some .freq) c s.ctl, tick := k } := by
  rw [loadFreq, h, runLoad_err_eq _ _ hc]
  exact ⟨_, _, rfl⟩

theorem loadData_accepted {v : List Byte} (h : lddataCheck s.params v = none) :
    loadData v s =
      { s with mem := { s.mem with data := v }, ctl := okControl (some .data) s.ctl } := by
  rw [loadData, h, runLoad_ok_eq _ _ _ (storeData_only v).ctl]
  rfl

theorem loadData_refused {v : List Byte} (hc : c ≠ .ok) (h : lddataCheck s.params v = some c) :
    ∃ l k, loadData v s = { s with
      mem := { s.mem with data := l }, ctl := errControl (some .data) c s.ctl, tick := k } := by
  rw [loadData, h, runLoad_err_eq _ _ hc]
  exact ⟨_, _, rfl⟩

theorem loadCtab_accepted {v : List Byte} (h : ldctabCheck s.params v = none) :
    loadCtab v s =
      { s with mem := { s.mem with ctab := v }, ctl := okControl (some .ctab) s.ctl } := by
  rw [loadCtab, h, runLoad_ok_eq _ _ _ (storeCtab_only v).ctl]
  rfl

theorem loadCtab_refused {v : List Byte} (hc : c ≠ .ok) (h : ldctabCheck s.params v = some c) :
    ∃ l k, loadCtab v s = { s with
      mem := { s.mem with ctab := l }, ctl := errControl (some .ctab) c s.ctl, tick := k } := by
  rw [loadCtab, h, runLoad_err_eq _ _ hc]
  exact ⟨_, _, rfl⟩

end loads

/-- A sequence over its capacity, or with a member that breaks the bound of one, does not meet
both bounds. -/
theorem not_within_bounds {α : Type} {b : Bool} {v : List α} {q : α → Bool}
    (h : b = false ∨ ∃ e ∈ v, q e = false) : ¬ (b = true ∧ ∀ e ∈ v, q e = true) := by
  rintro ⟨hb, hq⟩
  rcases h with h | ⟨e, he, h⟩
  · simp [hb] at h
  · simp [hq e he] at h

/-- Settles O48: the validation of R66 decides between the two ends of a load. -/
theorem loadOfText : Obligations.LoadOfText := by
  refine fun s v => ⟨fun hlen hsym => loadText_accepted ?_, fun hover =>
    loadText_refused (by decide) ?_⟩
  · rw [ldtextCheck_eq, if_pos ⟨hlen, hsym⟩]
  · rw [ldtextCheck_eq, if_neg (not_within_bounds hover)]

/-- Settles O49: the validation of R67 looks at the legality of the table before the capacity. -/
theorem loadOfFrequencyTable : Obligations.LoadOfFrequencyTable := by
  refine fun s v => ⟨fun hillegal => loadFreq_refused (by decide) ?_, fun hcount hnodup =>
    ⟨fun hlen hsym => loadFreq_accepted ?_, fun hover => loadFreq_refused (by decide) ?_⟩⟩
  · rw [ldfreqCheck_eq, if_neg]
    rintro ⟨hcount, hnodup⟩
    rcases hillegal with ⟨e, he, h0 | hbig⟩ | hdup
    · exact (hcount e he).1 h0
    · simp [(hcount e he).2] at hbig
    · exact hdup hnodup
  · rw [ldfreqCheck_eq, if_pos ⟨hcount, hnodup⟩, if_pos ⟨hlen, hsym⟩]
  · rw [ldfreqCheck_eq, if_pos ⟨hcount, hnodup⟩, if_neg (not_within_bounds hover)]

/-- Settles O50: a capacity is all that LDDATA and LDCTAB validate (R68, R69). -/
theorem loadOfArtifacts : Obligations.LoadOfArtifacts := by
  intro s v
  refine ⟨fun h => loadData_accepted ?_, fun h => loadData_refused (by decide) ?_,
    fun h => loadCtab_accepted ?_, fun h => loadCtab_refused (by decide) ?_⟩
  · simp [lddataCheck, h]
  · simp [lddataCheck, h]
  · simp [ldctabCheck, h]
  · simp [ldctabCheck, h]

end Sys2Proof.Machine
end

section
/-! ## The memory and the host at a step

Every part of a step keeps the parameters and the capacities (R6, R61, R62); what the host's
transactions do (R64, R70) and where the heap commands fault (log entry 11). -/

namespace Sys2Proof.Machine

/-! ### Parameters and capacities -/

section loads
variable (s : State)

@[simp] theorem loadText_params (v : List Symbol) : (loadText v s).params = s.params :=
  load_params _ _ _ s (storeText_only v).params

@[simp] theorem loadFreq_params (v : List (Symbol × Nat)) : (loadFreq v s).params = s.params :=
  load_params _ _ _ s (storeFreq_only v).params

@[simp] theorem loadData_params (v : List Byte) : (loadData v s).params = s.params :=
  load_params _ _ _ s (storeData_only v).params

@[simp] theorem loadCtab_params (v : List Byte) : (loadCtab v s).params = s.params :=
  load_params _ _ _ s (storeCtab_only v).params

end loads

/-- No step writes the parameters (log entry 3). -/
theorem step_params {s t : State} (h : step s = .next t) : t.params = s.params :=
  step_keeps (fun u => u.params = s.params) (fun _ _ hu => hu) (fun _ _ hu => hu)
    (fun _ _ _ hu hx => (exec_params hx).trans hu) (fun _ hu => hu)
    (fun v u hu => (loadText_params u v).trans hu) (fun v u hu => (loadFreq_params u v).trans hu)
    (fun v u hu => (loadData_params u v).trans hu) (fun v u hu => (loadCtab_params u v).trans hu)
    (fun _ hu => hu) s t rfl h

/-- Settles O56: every command, load and reset keeps the spaces within their capacities. -/
theorem everyStepKeepsMemoryWellFormed : Obligations.EveryStepKeepsMemoryWellFormed := by
  refine ⟨fun s t => step_params, step_keeps (fun s => s.mem.wf s.params = true) (fun _ _ h => h)
    (fun _ _ h => h) (fun _ _ _ => exec_wf) (fun _ h => h) ?_ ?_ ?_ ?_ (fun s _ => applyReset_wf s)⟩
  · exact fun v s h => (loadText_params s v).symm ▸ loadText_wf h v
  · exact fun v s h => (loadFreq_params s v).symm ▸ loadFreq_wf h v
  · exact fun v s h => (loadData_params s v).symm ▸ loadData_wf h v
  · exact fun v s h => (loadCtab_params s v).symm ▸ loadCtab_wf h v

/-! ### The host -/

/-- With nothing to do HUFF is idle (R261). -/
theorem step_idle {s : State} (hcmd : s.ctl.cmd = none) (hp : s.host.pending = []) :
    step s = .next s := by
  simp [step, advance, hcmd, hp]

/-- A busy HUFF accepts no action but reset (R64). -/
theorem step_busy {s : State} {a : HostAction} {rest : List HostAction}
    (hcmd : s.ctl.cmd = none) (hbusy : s.busy = true) (hp : s.host.pending = a :: rest)
    (ha : a ≠ .reset) : step s = .refused .hostActionWhileBusy := by
  simp [step, advance, hcmd, hp, hbusy, ha]

/-- An action that leaves CMD empty is all that the step does (R64). -/
theorem step_transaction {s : State} {a : HostAction} {rest : List HostAction}
    (hcmd : s.ctl.cmd = none) (hbusy : s.busy = false) (hp : s.host.pending = a :: rest)
    (ha : (hostAct a { s with host := { s.host with pending := rest } }).ctl.cmd = none) :
    step s = .next (hostAct a { s with host := { s.host with pending := rest } }) := by
  rw [step_hostAct hcmd hp (.inl hbusy), take_none ha]

/-- Settles O8: the two cases in which no action is taken. -/
theorem hostActsOnlyWhenHuffIsIdle : Obligations.HostActsOnlyWhenHuffIsIdle :=
  ⟨fun _ => step_idle, fun _ _ _ => step_busy⟩

/-- Settles O51: loads and reads leave CMD empty, so they are all that their step does. -/
theorem stepPerformsHostTransactions : Obligations.StepPerformsHostTransactions := by
  intro s rest hcmd hbusy
  obtain ⟨htext, hfreq, hdata, hctab⟩ :=
    loads_cmd { s with host := { s.host with pending := rest } } hcmd
  exact ⟨fun v hp => step_transaction hcmd hbusy hp (htext v),
    fun v hp => step_transaction hcmd hbusy hp (hfreq v),
    fun v hp => step_transaction hcmd hbusy hp (hdata v),
    fun v hp => step_transaction hcmd hbusy hp (hctab v),
    fun x hp => step_transaction hcmd hbusy hp hcmd⟩

/-- ERR holds the code's number, which fits its 4 bits (R38, R225). -/
theorem ResultCode.word_toNat (c : ResultCode) : c.word.toNat = c.toNat := by
  cases c <;> rfl

/-- Settles O52: one row of the read table for each target. -/
theorem hostReadsValidBuffersOnly : Obligations.HostReadsValidBuffersOnly := by
  intro s
  refine ⟨rfl, rfl, rfl, rfl, rfl, rfl, rfl, rfl, rfl, ?_, rfl, rfl, rfl, fun _ => rfl, rfl, rfl,
    rfl, ?_, rfl⟩
  · simp [hostRead, replyIf, spaceReadable, contentsOf]
  · simp [hostRead, ResultCode.word_toNat]

/-! ### A dangling heap entry -/

theorem runFrame_of_fault {needs : List Flag} {out : Option Flag}
    {body : State → Except Stop State} {s : State} {f : Fault} (h : needs.all s.flag = true)
    (hb : body (s.invalidateOutput out) = .error (.fault f)) :
    runFrame needs out body s = .fault f := by
  simp [runFrame, h, hb]

/-- HPUSH's operand and the room in the heap are looked at before the entries of HEAP. -/
theorem hpushBody_dangling {k : Nat} {s : State} (hk : k < s.mem.node.length)
    (hroom : s.params.nnodeMax.admits (s.mem.heap.length + 1) = true)
    (hr : heapInRange s = false) : hpushBody k s = .error (.fault .danglingHeapEntry) := by
  obtain ⟨l, hl⟩ := heapPush_succeeds (f := freqOf s.mem.node) (k := k) s.tick hroom
  simp [hpushBody, hpushOperandOk, hk, hl, hr]

/-- A heap with a dangling entry is not empty, so HPOP finds an element before it faults. -/
theorem hpopBody_dangling {s : State} (hr : heapInRange s = false) :
    hpopBody s = .error (.fault .danglingHeapEntry) := by
  have hne : s.mem.heap ≠ [] := by
    intro h
    simp [heapInRange, h] at hr
  obtain ⟨v, l, hl⟩ := heapPop_succeeds (p := s.params) (f := freqOf s.mem.node) s.tick hne
  simp [hpopBody, hl, hr]

/-- Settles O21: both commands have no input flag, and their bodies fault. -/
theorem heapCommandsStopOnADanglingEntry : Obligations.HeapCommandsStopOnADanglingEntry := by
  refine ⟨fun k s hk hroom hr => ?_, fun s hr => ?_⟩ <;> rw [exec_eq]
  · exact runFrame_of_fault rfl (hpushBody_dangling hk hroom hr)
  · exact runFrame_of_fault rfl (hpopBody_dangling (s := s.invalidate .hres) hr)

end Sys2Proof.Machine
end

section
/-! ## The command word

What a row of the opcode map accepts and what the decoder answers, said once through the encoder
(R85 to R89), then the statements about encoding and about the macros (R105, R106). -/

namespace Sys2Proof

/-! ### The encoder and the fields of a word -/

/-- The two fields of a command's encoding (R85). -/
theorem encodeInstr_fields (i : Instr) :
    opcOf (encodeInstr i) = i.opcode ∧ argOf (encodeInstr i) = i.arg % 2 ^ 24 :=
  Laws.EncodingFields.of_fields i.arg i.opcode

/-- A word is the encoding of a command exactly when its fields are the command's OPC and ARG. -/
theorem encodeInstr_eq_iff {i : Instr} {w : Word} (hi : ArgFits i.arg) :
    encodeInstr i = w ↔ opcOf w = i.opcode ∧ argOf w = i.arg := by
  obtain ⟨hopc, harg⟩ := encodeInstr_fields i
  rw [Nat.mod_eq_of_lt hi] at harg
  constructor
  · rintro rfl
    exact ⟨hopc, harg⟩
  · rintro ⟨ho, ha⟩
    exact word_ext (hopc.trans ho.symm) (harg.trans ha.symm)

theorem Instr.wellFormed_iff {i : Instr} : i.wellFormed = true ↔ ArgFits i.arg := by
  cases i <;> simp [Instr.wellFormed, Instr.arg]

/-- A command takes ARG as its operand or has no operand. -/
theorem Instr.arg_withArg (i : Instr) (a : Nat) :
    (i.withArg a).arg = a ∨ (i.withArg a).arg = 0 := by
  cases i <;> simp [Instr.withArg, Instr.arg]

theorem Instr.withArg_fits (i : Instr) {a : Nat} (ha : ArgFits a) : ArgFits (i.withArg a).arg := by
  rcases i.arg_withArg a with h | h
  · rwa [h]
  · rw [h]; decide

@[simp] theorem Instr.opcode_withArg (i : Instr) (a : Nat) : (i.withArg a).opcode = i.opcode := by
  cases i <;> rfl

/-! ### The rows of the opcode map -/

/-- The match of a row (R87). -/
theorem OpcodeRow.accepts_eq_true {r : OpcodeRow} {w : Word} :
    r.accepts w = true ↔ w &&& r.mask = r.pattern :=
  beq_iff_eq

/-- The two kinds of row in R88: the row of a command with an operand looks at OPC alone, and the
row of a command without one looks at the whole word. -/
theorem opcodeMap_kinds : ∀ r ∈ opcodeMap,
    (r.mask = 0x000000FF#32 ∧ r.pattern = r.instr.opcode.setWidth 32 ∧
      ∀ a, (r.instr.withArg a).arg = a) ∨
    (r.mask = 0xFFFFFFFF#32 ∧ r.pattern = encodeInstr r.instr ∧
      ∀ a, r.instr.withArg a = r.instr) := by
  simp [opcodeMap, Instr.withArg, Instr.arg, Instr.opcode, encodeInstr]

/-- Every command has a row of the map. -/
theorem exists_row (i : Instr) : ∃ r ∈ opcodeMap, r.instr.withArg i.arg = i := by
  cases i <;> simp [opcodeMap, Instr.withArg, Instr.arg]

/-- A row accepts exactly the words that encode its command with their own ARG: the mask and
pattern of R87 and the fields of R85 say the same. -/
theorem OpcodeRow.accepts_iff {r : OpcodeRow} (hr : r ∈ opcodeMap) (w : Word) :
    r.accepts w = true ↔ encodeInstr (r.instr.withArg (argOf w)) = w := by
  rw [OpcodeRow.accepts_eq_true]
  rcases opcodeMap_kinds r hr with ⟨hm, hp, ha⟩ | ⟨hm, hp, ha⟩
  · rw [hm, hp, and_opcMask, encodeInstr_eq_iff (Instr.withArg_fits _ (argOf_lt w)), ha,
      Instr.opcode_withArg]
    exact ⟨fun h => ⟨by simpa using congrArg (BitVec.setWidth 8) h, rfl⟩, fun h => by rw [h.1]⟩
  · rw [hm, hp, and_allOnes, ha, eq_comm]

/-- No two rows accept one word (R87). -/
theorem row_unique {r q : OpcodeRow} (hr : r ∈ opcodeMap) (hq : q ∈ opcodeMap) {w : Word}
    (hrw : r.accepts w = true) (hqw : q.accepts w = true) : q = r := by
  by_contra hne
  have hsymm : Std.Symm fun a b : OpcodeRow =>
      (a.pattern ^^^ b.pattern) &&& (a.mask &&& b.mask) ≠ 0#32 :=
    ⟨fun a b h => by rwa [BitVec.xor_comm, BitVec.and_comm b.mask]⟩
  exact opcodeMap_disjoint.forall hq hr hne (agree_of_accepts hqw hrw)

/-! ### The decoder -/

/-- A word that a row accepts decodes to that row's command (R87). -/
theorem decodeWord_of_accepts {r : OpcodeRow} (hr : r ∈ opcodeMap) {w : Word}
    (h : r.accepts w = true) : decodeWord w = .ok (r.instr.withArg (argOf w)) := by
  unfold decodeWord
  cases hfind : opcodeMap.find? (·.accepts w) with
  | none => exact absurd h (List.find?_eq_none.mp hfind r hr)
  | some q =>
    have hq : q.accepts w = true := by simpa using List.find?_some hfind
    rw [row_unique hr (List.mem_of_find?_eq_some hfind) h hq]

/-- A word that no row accepts is illegal (R89). -/
theorem decodeWord_of_not_accepts {w : Word} (h : ∀ r ∈ opcodeMap, ¬ r.accepts w = true) :
    decodeWord w = .error (illegalWord w) := by
  rw [decodeWord, List.find?_eq_none.mpr h]

/-- The two answers of the decoder, each with its reason. -/
theorem decodeWord_cases (w : Word) :
    (∃ r ∈ opcodeMap, r.accepts w = true ∧ decodeWord w = .ok (r.instr.withArg (argOf w))) ∨
    ((∀ r ∈ opcodeMap, ¬ r.accepts w = true) ∧ decodeWord w = .error (illegalWord w)) := by
  by_cases h : ∃ r ∈ opcodeMap, r.accepts w = true
  · obtain ⟨r, hr, hw⟩ := h
    exact .inl ⟨r, hr, hw, decodeWord_of_accepts hr hw⟩
  · have h' : ∀ r ∈ opcodeMap, ¬ r.accepts w = true := fun r hr hw => h ⟨r, hr, hw⟩
    exact .inr ⟨h', decodeWord_of_not_accepts h'⟩

/-- The round trip from a command: its own row accepts its encoding. -/
theorem decodeWord_encodeInstr {i : Instr} (hi : ArgFits i.arg) :
    decodeWord (encodeInstr i) = .ok i := by
  obtain ⟨r, hr, hri⟩ := exists_row i
  have harg : argOf (encodeInstr i) = i.arg :=
    (encodeInstr_fields i).2.trans (Nat.mod_eq_of_lt hi)
  have hacc : r.accepts (encodeInstr i) = true := by
    rw [OpcodeRow.accepts_iff hr, harg, hri]
  rw [decodeWord_of_accepts hr hacc, harg, hri]

/-- The round trip from a word: it decodes to `i` exactly when it is the encoding of a well-formed
`i`. -/
theorem decodeWord_eq_ok_iff {w : Word} {i : Instr} :
    decodeWord w = .ok i ↔ ArgFits i.arg ∧ encodeInstr i = w := by
  constructor
  · intro h
    rcases decodeWord_cases w with ⟨r, hr, hacc, hdec⟩ | ⟨-, hdec⟩
    · obtain rfl : r.instr.withArg (argOf w) = i := by simpa [hdec] using h
      exact ⟨Instr.withArg_fits _ (argOf_lt w), (OpcodeRow.accepts_iff hr w).mp hacc⟩
    · simp [hdec] at h
  · rintro ⟨hi, rfl⟩
    exact decodeWord_encodeInstr hi

/-- A word with the fields of a command decodes to it. -/
theorem decodeWord_of_fields {w : Word} {i : Instr} (hopc : opcOf w = i.opcode)
    (harg : argOf w = i.arg) : decodeWord w = .ok i :=
  have hfit : ArgFits i.arg := harg ▸ argOf_lt w
  decodeWord_eq_ok_iff.mpr ⟨hfit, (encodeInstr_eq_iff hfit).mpr ⟨hopc, harg⟩⟩

theorem decodeWord_hinit {w : Word} (h : opcOf w = 0x01#8) : decodeWord w = .ok (.hinit (argOf w)) :=
  decodeWord_of_fields h rfl

theorem decodeWord_hpush {w : Word} (h : opcOf w = 0x02#8) : decodeWord w = .ok (.hpush (argOf w)) :=
  decodeWord_of_fields h rfl

/-! ### Illegal words -/

/-- The eleven commands without an operand (R88, R89). -/
def bareInstrs : List Instr :=
  [.hpop, .count, .build, .gencodes, .encode, .decode, .verify, .serdata, .sertab, .desdata, .destab]

/-- Their OPC values. -/
def bareOpcodes : List (BitVec 8) := bareInstrs.map Instr.opcode

theorem bareInstrs_arg : ∀ i ∈ bareInstrs, i.arg = 0 := by decide

/-- A command has an operand or is one of the eleven. -/
theorem Instr.operand_or_bare (i : Instr) :
    i = .hinit i.arg ∨ i = .hpush i.arg ∨ i ∈ bareInstrs := by
  cases i <;> simp [Instr.arg, bareInstrs]

/-- The legal words, by their fields (R88). -/
theorem legal_iff {w : Word} : (∃ i, decodeWord w = .ok i) ↔
    opcOf w = 0x01#8 ∨ opcOf w = 0x02#8 ∨ (opcOf w ∈ bareOpcodes ∧ argOf w = 0) := by
  constructor
  · rintro ⟨i, h⟩
    obtain ⟨hfit, henc⟩ := decodeWord_eq_ok_iff.mp h
    obtain ⟨hopc, harg⟩ := (encodeInstr_eq_iff hfit).mp henc
    rcases i.operand_or_bare with hi | hi | hi
    · exact .inl (by rw [hopc, hi]; rfl)
    · exact .inr (.inl (by rw [hopc, hi]; rfl))
    · exact .inr (.inr ⟨hopc ▸ List.mem_map_of_mem hi, harg.trans (bareInstrs_arg i hi)⟩)
  · rintro (h | h | ⟨hmem, harg⟩)
    · exact ⟨_, decodeWord_hinit h⟩
    · exact ⟨_, decodeWord_hpush h⟩
    · obtain ⟨i, hi, hopc⟩ := List.mem_map.mp hmem
      exact ⟨i, decodeWord_of_fields hopc.symm (harg.trans (bareInstrs_arg i hi).symm)⟩

/-- The fields that are not legal, in the two cases of R89: no command with an operand shares
its OPC with one that has none. -/
theorem not_legal_fields_iff {o : BitVec 8} {a : Nat} :
    ¬ (o = 0x01#8 ∨ o = 0x02#8 ∨ (o ∈ bareOpcodes ∧ a = 0)) ↔
      o ∉ 0x01#8 :: 0x02#8 :: bareOpcodes ∨ (o ∈ bareOpcodes ∧ a ≠ 0) := by
  by_cases ho : o ∈ bareOpcodes
  · have h1 : o ≠ 0x01#8 := ne_of_mem_of_not_mem ho (by decide)
    have h2 : o ≠ 0x02#8 := ne_of_mem_of_not_mem ho (by decide)
    simp [ho, h1, h2]
  · simp [ho]

/-- A word is illegal when it is not legal. -/
theorem illegal_iff {w : Word} :
    (∃ e, decodeWord w = .error e) ↔ ¬ ∃ i, decodeWord w = .ok i := by
  cases decodeWord w <;> simp

/-! ### The statements about encoding -/

/-- Settles O2: a command's own row accepts its encoding, and no other row can. -/
theorem decodeOfEncodeIsTheCommand : Obligations.DecodeOfEncodeIsTheCommand :=
  fun _ hi => decodeWord_encodeInstr (Instr.wellFormed_iff.mp hi)

/-- Settles O3: a row accepts only encodings of its command. -/
theorem encodeOfDecodeIsTheWord : Obligations.EncodeOfDecodeIsTheWord := by
  intro w i h
  obtain ⟨hfit, henc⟩ := decodeWord_eq_ok_iff.mp h
  exact ⟨Instr.wellFormed_iff.mpr hfit, henc⟩

/-- Settles O4: the accepting row is unique, and without one the word is illegal. -/
theorem everyWordIsOneRowOrIllegal : Obligations.EveryWordIsOneRowOrIllegal := by
  intro w
  simp only [Ne, ← OpcodeRow.accepts_eq_true]
  rcases decodeWord_cases w with ⟨r, hr, hacc, hdec⟩ | ⟨hnone, hdec⟩
  · exact .inl ⟨r, hr, hacc, fun q hq hq' => row_unique hr hq hacc hq', hdec⟩
  · exact .inr ⟨hnone, _, hdec⟩

/-- Settles O1: the model evaluates each listed word. -/
theorem sampleWordsDecodeAsListed : Obligations.SampleWordsDecodeAsListed := by
  refine ⟨?_, ?_, ?_, ?_, ?_, ?_, ?_, ?_, ?_, ?_, ?_, ?_, ?_, ?_, ?_, ?_, ?_, ?_, ?_⟩ <;> rfl

end Sys2Proof

namespace Sys2Proof.Machine

/-! ### What illegal words and operands do -/

/-- A word that does not decode ends with code 8, and only the control registers show it (R89). -/
theorem runWord_illegal {w : Word} {e : IllegalWord} (s : State) (h : decodeWord w = .error e) :
    runWord w s = .next { s with ctl := errControl none .illegalCommand s.ctl } := by
  rw [runWord, h]
  rfl

/-- A command without an output whose body raises changes the control registers alone (R238). -/
theorem exec_raise_of_no_output {i : Instr} {s : State} {c : ResultCode}
    (hn : neededFlags i = []) (ho : outputFlag i = none) (hb : bodyOf i s = .error (.raise c)) :
    exec i s = .next { s with ctl := errControl none c s.ctl } := by
  have := run_err (i := i) (s := s) (c := c) (by simp [hn]) (by rwa [ho])
  rwa [ho] at this

theorem exec_hinit_out_of_range {n : Nat} {s : State} (h : s.mem.node.length < n) :
    exec (.hinit n) s = .next { s with ctl := errControl none .illegalCommand s.ctl } :=
  exec_raise_of_no_output rfl rfl (by simp [bodyOf, hinitBody, hinitOperandOk, h])

theorem exec_hpush_out_of_range {k : Nat} {s : State} (h : s.mem.node.length ≤ k) :
    exec (.hpush k) s = .next { s with ctl := errControl none .illegalCommand s.ctl } :=
  exec_raise_of_no_output rfl rfl (by simp [bodyOf, hpushBody, hpushOperandOk, h])

/-- Settles O5: a word is illegal when its fields are not those of a command; illegal words and
operands out of range raise code 8 before anything is written. -/
theorem illegalWordsAndOperands : Obligations.IllegalWordsAndOperands := by
  refine ⟨fun w => ?_, ⟨_, rfl⟩, ⟨_, rfl⟩, fun _ _ s => runWord_illegal s, fun _ => decodeWord_hinit,
    fun _ => decodeWord_hpush, fun _ _ => exec_hinit_out_of_range,
    fun _ _ => exec_hpush_out_of_range⟩
  rw [illegal_iff, legal_iff]
  exact not_legal_fields_iff

/-! ### Macros -/

/-- HUFF takes a word written to an empty CMD at once (R36). -/
theorem takeCommand_writeCmd {w : Word} {s : State} (hcmd : s.ctl.cmd = none) :
    takeCommand (writeCmd w s) = runWord w s := by
  show runWord w { s with ctl := { s.ctl with cmd := none } } = _
  rw [← hcmd]

/-- Settles O53: the next word of a macro is written to CMD, and after a non-zero code none is. -/
theorem macrosStopAtTheFirstError : Obligations.MacrosStopAtTheFirstError := by
  refine ⟨by decide, by decide, by decide, by decide, fun s w ws rest hcmd hbusy => ⟨?_, ?_, ?_⟩⟩
  · intro hp
    rw [step_hostAct hcmd hp (.inl hbusy)]
    exact takeCommand_writeCmd hcmd
  · intro hp herr
    rw [step_hostAct hcmd hp (.inl hbusy), hostAct, if_pos herr]
    exact takeCommand_writeCmd hcmd
  · intro hp herr
    have hact : hostAct (.scriptRest (w :: ws)) { s with host := { s.host with pending := rest } } =
        { s with host := { s.host with pending := rest } } := if_neg herr
    rw [step_transaction hcmd hbusy hp (by rw [hact]; exact hcmd), hact]

end Sys2Proof.Machine
end

section
/-! ## The heap commands

HINIT, HPUSH and HPOP from start to end (R120 to R122): each body runs its heap procedure, whose
effect on HEAP is said in Laws/Heap under both settings of TIEBREAK (R115, R117). -/

namespace Sys2Proof.Machine

/-! ### The bodies -/

section bodies
variable {s : State}

/-- HINIT with its operand in range runs heap_init. -/
theorem hinitBody_of_le {n : Nat} (hn : n ≤ s.mem.node.length) :
    hinitBody n s = .ok { s with
      mem := { s.mem with heap := heapInit s.params (freqOf s.mem.node) n s.tick },
      tick := s.tick + 1 } :=
  if_pos (decide_eq_true hn)

/-- HPUSH with its operand in range and no dangling entry runs heap_push. -/
theorem hpushBody_of_heapPush {k : Nat} {l : List Nat} (hk : k < s.mem.node.length)
    (hr : heapInRange s = true)
    (hl : heapPush s.params (freqOf s.mem.node) s.mem.heap k s.tick = .ok l) :
    hpushBody k s = .ok { s with mem := { s.mem with heap := l }, tick := s.tick + 1 } := by
  simp [hpushBody, hpushOperandOk, hk, hl, hr]

/-- HPUSH with its operand in range raises CapacityError on a full heap (R121). -/
theorem hpushBody_of_full {k : Nat} (hk : k < s.mem.node.length)
    (hfull : s.params.nnodeMax.admits (s.mem.heap.length + 1) = false) :
    hpushBody k s = .error (.raise .capacity) := by
  simp [hpushBody, hpushOperandOk, hk, heapPush, memAppend_of_not_admits, hfull]

/-- HPOP without a dangling entry runs heap_pop. -/
theorem hpopBody_of_heapPop {v : Nat} {l : List Nat} (hr : heapInRange s = true)
    (hl : heapPop s.params (freqOf s.mem.node) s.mem.heap s.tick = .ok (v, l)) :
    hpopBody s = .ok { s with
      mem := { s.mem with heap := l }, regs := { s.regs with hres := v }, tick := s.tick + 1 } := by
  simp [hpopBody, hl, hr]

end bodies

/-! ### The statements about the priority queue -/

/-- Settles O16: the body cannot fail, and heap_init arranges 0 .. n-1. -/
theorem hinitBuildsAnOrderedHeap : Obligations.HinitBuildsAnOrderedHeap := by
  intro n s hn
  have hrun := run_ok (i := .hinit n) rfl (hinitBody_of_le hn)
  exact ⟨_, _, hrun, heapInit_spec s.params n s.tick⟩

/-- Settles O17: the capacity alone decides whether heap_push succeeds. -/
theorem hpushAddsOneOccurrence : Obligations.HpushAddsOneOccurrence := by
  rintro k s hk ⟨hr, hord⟩
  refine ⟨fun hroom => ?_,
    fun hfull => exec_raise_of_no_output rfl rfl (hpushBody_of_full hk hfull)⟩
  obtain ⟨l, hl⟩ := heapPush_succeeds (f := freqOf s.mem.node) (k := k) s.tick hroom
  obtain ⟨hperm, hordered, -⟩ := heapPush_ok hord hl
  have hrun := run_ok (i := .hpush k) rfl (hpushBody_of_heapPush hk hr hl)
  exact ⟨l, _, hrun, hperm.trans (List.perm_append_singleton k _), hordered⟩

/-- Settles O18: heap_pop succeeds on a heap that is not empty, and clearing V.HRES before it leaves
NODE and HEAP alone. -/
theorem hpopRemovesAMinimum : Obligations.HpopRemovesAMinimum := by
  rintro s hne ⟨hr, hord⟩
  obtain ⟨v, l, hl⟩ := heapPop_succeeds (p := s.params) (f := freqOf s.mem.node) s.tick hne
  obtain ⟨hmin, hperm, hordered⟩ := heapPop_ok hord hl
  obtain ⟨hmem, hle⟩ := isMinimal_iff.mp hmin
  have hrun := run_ok (i := .hpop) (s := s) rfl
    (hpopBody_of_heapPop (s := s.invalidate .hres) hr hl)
  exact ⟨v, l, _, hrun, hmem, hle, hperm, hordered⟩

/-- A free value that is an arrangement with the heap order is taken (R117). -/
theorem anyArrangement_of_ordered {f : Nat → Nat} {wish members : List Nat}
    (hperm : wish.Perm members) (hord : heapOrdered f wish = true) :
    anyArrangement f wish members = wish :=
  if_pos (Bool.and_eq_true_iff.mpr ⟨List.isPerm_iff.mpr hperm, hord⟩)

/-- A free value that is a member of smallest frequency is taken (R117). -/
theorem anyMinimal_of_isMinimal {f : Nat → Nat} {wish : Nat} {h : List Nat}
    (hmin : isMinimal f h wish = true) : anyMinimal f wish h = wish :=
  if_pos hmin

/-- Settles O20: what is taken is legal whatever the free value, and a legal free value is taken. -/
theorem anyTieOrderIsReached : Obligations.AnyTieOrderIsReached := by
  constructor
  · intro f wish members
    obtain ⟨hperm, hord⟩ := anyArrangement_spec (f := f) wish members
    exact ⟨hperm, hord, anyArrangement_of_ordered⟩
  · intro f wish h hne
    obtain ⟨hmem, hle⟩ := isMinimal_iff.mp (anyMinimal_spec (f := f) wish hne)
    exact ⟨hmem, hle, fun hw hmin => anyMinimal_of_isMinimal (isMinimal_iff.mpr ⟨hw, hmin⟩)⟩

end Sys2Proof.Machine
end

section
/-! ## COUNT and BUILD

COUNT from start to end (R135, R136), the ends of BUILD outside the general case (R137, R142, R145)
and one round of the merge loop (R139, R140), through what Laws/Builder says of the loops. -/

namespace Sys2Proof.Machine

/-! ### COUNT -/

/-- COUNT's body makes the table of TEXT, or raises CapacityError when it is too long (R135). -/
theorem countBody_eq (s : State) :
    countBody s = if s.params.nsymMax.admits s.mem.text.eraseDups.length then
      .ok { s with mem := { s.mem with freq := tableOf s.mem.text } }
      else .error (.raise .capacity) := by
  by_cases hroom : s.params.nsymMax.admits s.mem.text.eraseDups.length
  · simp only [countBody, countLoop_text, if_pos hroom]
  · simp only [countBody, countLoop_text, if_neg hroom]

/-- Settles O22: the number of distinct symbols decides which of its two ends COUNT has. -/
theorem countGivesTheFrequencyTable : Obligations.CountGivesTheFrequencyTable := by
  intro s hflag
  have hneeds : (neededFlags .count).all s.flag = true := by simp [neededFlags, hflag]
  have hbody := countBody_eq (s.invalidate .freq)
  constructor
  · intro hroom
    exact run_ok (i := .count) hneeds (hbody.trans (if_pos hroom))
  · intro hfull
    have hrun := run_err (i := .count) hneeds (hbody.trans (if_neg (ne_true_of_eq_false hfull)))
    exact ⟨_, _, hrun⟩

/-! ### BUILD -/

/-- A BUILD whose body raises leaves NODE and HEAP empty, V.TREE 0 and ROOT free (R238, R43). -/
theorem exec_build_raise {s : State} {c : ResultCode} (hflag : s.flag .freq = true)
    (hb : buildBody (s.invalidate .tree) = .error (.raise c)) :
    ∃ r k, exec .build s = .next { s with
      mem := { s.mem with node := [], heap := [] }, regs := { s.regs with root := r },
      ctl := errControl (some .tree) c s.ctl, tick := k } :=
  ⟨_, _, run_err (i := .build) (by simp [neededFlags, hflag]) hb⟩

/-- A total that `W_FREQ` bits do not hold is found before anything is written (R137, R145). -/
theorem buildBody_over_total {s : State} (hne : s.mem.freq ≠ [])
    (hover : s.params.freqFits (totalCount s.mem.freq) = false) :
    buildBody s = .error (.raise .capacity) := by
  simp [buildBody, hne, hover]

/-- Settles O24: clearing NODE and HEAP before the body leaves FREQ and the parameters alone. -/
theorem buildOverTotal : Obligations.BuildOverTotal := fun s hflag hne hover =>
  exec_build_raise hflag (buildBody_over_total (s := s.invalidate .tree) hne hover)

/-- BUILD's body on a table of one symbol: the arena has `2N - 1 = 1` nodes, and its first `N` are the
leaves (R138, R142, R144). -/
theorem buildBody_of_one {s : State} {c : Symbol} {n : Nat} (hnode : s.mem.node = [])
    (hfreq : s.mem.freq = [(c, n)]) (hfit : s.params.freqFits n = true)
    (hcap : s.params.nnodeMax.admits 1 = true) :
    ∃ k, buildBody s = .ok { s with
      mem := { s.mem with node := [.leaf c n], heap := [] }, regs := { s.regs with root := 0 },
      tick := k } := by
  obtain ⟨w, hgrown, hheap, -, k, hbody⟩ := buildBody_spec hnode (by simp [hfreq])
    (by simpa [hfreq, totalCount] using hfit) (by simpa [hfreq] using hcap)
  rw [hfreq] at hgrown hheap hbody
  have hone : w.nodes.length = 1 := by simpa [hheap] using hgrown.size
  have hnodes : w.nodes = [.leaf c n] := by
    rw [← List.take_of_length_le hone.le]
    exact hgrown.leaves
  rw [hnodes] at hbody
  exact ⟨k, hbody⟩

/-- Settles O25: BUILD completes when its body does. -/
theorem buildOfOneSymbolIsALeaf : Obligations.BuildOfOneSymbolIsALeaf := by
  intro s c n hflag hfreq hfit hcap
  obtain ⟨k, hbody⟩ := buildBody_of_one (s := s.invalidate .tree) rfl hfreq hfit hcap
  exact ⟨k, run_ok (i := .build) (by simp [neededFlags, hflag]) hbody⟩

/-- Settles O27: the round that Laws/Builder describes, its two pops stated member by member. -/
theorem mergeJoinsTheTwoSmallest : Obligations.MergeJoinsTheTwoSmallest := by
  intro p w htwo hrange hord hroom hheap
  obtain ⟨l, r, rest, w', hrun, hnodes, hl, hr, -, hrest, hpushed, hord'⟩ :=
    mergeOnce_spec htwo hrange hord hroom hheap
  obtain ⟨hlmem, hlmin⟩ := isMinimal_iff.mp hl
  obtain ⟨hrmem, hrmin⟩ := isMinimal_iff.mp hr
  exact ⟨l, r, w', hrun, hnodes, hlmem, hlmin, hrmem, hrmin, hpushed.trans (hrest.cons _), hord'⟩

end Sys2Proof.Machine
end

section
/-! ## The codes are optimal

Huffman's theorem for the tree that BUILD makes and the codes that GENCODES reads off it (R146
item 3, R160 item 6): the sum of the merged frequencies is at most the weighted length of any lengths
that meet Kraft's inequality, and it is the weighted length of GENCODES's codes. A tree of one leaf has
no merge; its code is one bit, and no code is shorter (R158). -/

namespace Sys2Proof.Machine

/-! ### The tree of a table -/

/-- The leaves start the loop with the counts of the table as the heap's frequencies (R138). -/
theorem heapInit_leaves_freqs (p : Params) (freq : List (Symbol × Nat)) (tick : Nat) :
    ((heapInit p (freqOf (leavesOf freq)) freq.length tick).map (freqOf (leavesOf freq))).Perm
      (freq.map (·.2)) := by
  have hcounts : (List.range freq.length).map (freqOf (leavesOf freq)) = freq.map (·.2) := by
    apply List.ext_getElem (by simp)
    intro i hi _
    have hi' : i < freq.length := by simpa using hi
    simp [freqOf, nodeAt_leavesOf hi', Node.freq]
  exact hcounts ▸ (heapInit_spec p freq.length tick).1.map _

/-- The merges of BUILD are optimal for the counts of the table (R146 item 3). -/
theorem buildBody_optimal {s u : State} (hnode : s.mem.node = [])
    (hcap : s.params.nnodeMax.admits (2 * s.mem.freq.length - 1) = true)
    (hb : buildBody s = .ok u) : Optimal (s.mem.freq.map (·.2)) (internalSum u.mem.node) := by
  obtain ⟨-, -, leaves, w, root, rest, hleaves, hloop, -, rfl⟩ := buildBody_ok hb
  obtain ⟨rfl, -⟩ := memAppend_ok hleaves
  rw [hnode, List.nil_append] at hloop
  obtain ⟨c, hsum, hopt⟩ := mergeLoop_optimal hcap _ (Growing.start s.mem.freq s.tick _) hloop
  rw [internalSum_leavesOf, Nat.zero_add] at hsum
  exact hsum ▸ hopt.perm (heapInit_leaves_freqs s.params s.mem.freq s.tick)

/-- A leaf of the arena is an entry of the table (R138). -/
theorem Growing.mem_of_leaf {freq : List (Symbol × Nat)} {w : Forest} (g : Growing freq w) {k : Nat}
    {c : Symbol} {f : Nat} (h : nodeAt w.nodes k = some (.leaf c f)) : (c, f) ∈ freq := by
  have hk : k < w.nodes.length := (List.getElem?_eq_some_iff.mp h).1
  by_cases hleaf : k < freq.length
  · have hmem : Node.leaf c f ∈ w.nodes.take freq.length :=
      List.mem_iff_getElem?.mpr ⟨k, by rwa [List.getElem?_take_of_lt hleaf]⟩
    rw [g.leaves] at hmem
    obtain ⟨e, he, heq⟩ := List.mem_map.mp hmem
    cases heq
    exact he
  · have hmerge := g.merges k hk (by omega)
    simp [isMergeAt, h] at hmerge

/-! ### Weighted lengths -/

/-- The count that a frequency table gives a symbol; 0 for a symbol without an entry. -/
def countIn (freq : List (Symbol × Nat)) (c : Symbol) : Nat :=
  ((freq.find? (fun e => e.1 == c)).map (·.2)).getD 0

theorem countIn_of_mem {freq : List (Symbol × Nat)} (hn : (freq.map (·.1)).Nodup)
    {e : Symbol × Nat} (he : e ∈ freq) : countIn freq e.1 = e.2 := by
  have hsome : (freq.find? (fun x => x.1 == e.1)).isSome = true :=
    List.find?_isSome.mpr ⟨e, he, beq_self_eq_true e.1⟩
  obtain ⟨x, hx⟩ := Option.isSome_iff_exists.mp hsome
  have hxe : x = e :=
    List.inj_on_of_nodup_map hn (List.mem_of_find?_eq_some hx) he (by simpa using List.find?_some hx)
  rw [countIn, hx, hxe]
  rfl

/-- A cost that is optimal for the counts of a table is at most the weighted length of any prefix code
for its symbols (R146 item 3). -/
theorem Optimal.le_weightedLength {freq : List (Symbol × Nat)} {c : Nat}
    (h : Optimal (freq.map (·.2)) c) (hn : (freq.map (·.1)).Nodup) {table : List (Symbol × Bits)}
    (hp : IsPrefixCode table) (hk : ∀ e ∈ freq, (codeOf? table e.1).isSome = true) :
    c ≤ weightedLength freq table := by
  have hle := h (freq.map (fun e => (e.2, ((codeOf? table e.1).getD []).length)))
    (by simp [Function.comp_def])
    (by simpa [Function.comp_def] using kraft_of_isPrefixCode hp hn hk)
  simpa [weighted, weightedLength, Function.comp_def] using hle

/-- A prefix code spends at least one bit on each occurrence of a symbol (R27). -/
theorem totalCount_le_weightedLength {freq : List (Symbol × Nat)} {table : List (Symbol × Bits)}
    (hp : IsPrefixCode table) (hk : ∀ e ∈ freq, (codeOf? table e.1).isSome = true) :
    totalCount freq ≤ weightedLength freq table := by
  refine List.sum_le_sum (fun e he => ?_)
  obtain ⟨code, hcode⟩ := Option.isSome_iff_exists.mp (hk e he)
  have hpos : 0 < code.length := List.length_pos_iff.mpr (hp.1 _ (mem_of_codeOf? hcode))
  simpa [hcode] using Nat.le_mul_of_pos_right e.2 hpos

/-- The code table of a finished tree has the smallest weighted length of all prefix codes. -/
theorem generate_optimal {p : Params} {freq : List (Symbol × Nat)} {w : Forest} {root : Nat}
    {out other : List (Symbol × Bits)} (g : Growing freq w) (ht : IsTree w.nodes root)
    (hcap : p.nsymMax.admits freq.length = true) (hn : (freq.map (·.1)).Nodup)
    (hopt : Optimal (freq.map (·.2)) (internalSum w.nodes))
    (hgen : generate p w.nodes root = .ok out) (hp : IsPrefixCode other)
    (hk : ∀ e ∈ freq, (codeOf? other e.1).isSome = true) :
    weightedLength freq out ≤ weightedLength freq other := by
  have hcap' : p.nsymMax.admits (leafSymbols w.nodes).length = true := by
    simpa [g.symbols] using hcap
  obtain ⟨out', hgen', hperm, -⟩ := generate_spec ht hcap'
  obtain rfl : out' = out := Except.ok.inj (hgen'.symm.trans hgen)
  rw [g.symbols] at hperm
  have hsum := weightedLength_eq hperm hn (fun e he => countIn_of_mem hn he)
  rcases ht.root_node with ⟨c, f, hnodes, rfl⟩ | ⟨htwo, -⟩
  · have hcount : countIn freq c = f :=
      countIn_of_mem hn (g.mem_of_leaf (k := 0) (by simp [hnodes, nodeAt]))
    have hout : out' = [(c, [false])] := (memAppend_ok (by rwa [hnodes] at hgen)).1
    calc weightedLength freq out'
        = f := by rw [hsum, hout]; simp [hcount]
      _ ≤ totalCount freq := g.bounded (.leaf c f) (by simp [hnodes])
      _ ≤ weightedLength freq other := totalCount_le_weightedLength hp hk
  · calc weightedLength freq out'
        = internalSum w.nodes := hsum.trans (generate_weight ht hcap' htwo
            (fun _ _ _ h => countIn_of_mem hn (g.mem_of_leaf h)) hgen)
      _ ≤ weightedLength freq other := hopt.le_weightedLength hn hp hk

/-! ### The two commands -/

/-- GENCODES's body stores the code table of the tree (R155). -/
theorem gencodesBody_of_generate {s : State} {out : List (Symbol × Bits)}
    (h : generate s.params s.mem.node s.regs.root = .ok out) :
    gencodesBody s = .ok { s with mem := { s.mem with code := out } } := by
  rw [gencodesBody, h]

/-- The length of a text's bitstream is the total that its own counts give the table (R172). -/
theorem bitstreamOf_length (table : List (Symbol × Bits)) (text : List Symbol) :
    (bitstreamOf table text).length = weightedLength (tableOf text) table := by
  have hset : text.eraseDups.toFinset = text.toFinset := by ext; simp
  rw [bitstreamOf, List.length_flatMap, Finset.sum_list_map_count, ← hset,
    List.sum_toFinset _ (nodup_eraseDups text)]
  simp [weightedLength, tableOf, Function.comp_def]

/-- Settles O32: what BUILD's merges cost is optimal, and GENCODES's codes cost just that. -/
theorem codesHaveMinimalTotalLength : Obligations.CodesHaveMinimalTotalLength := by
  refine ⟨fun s hflag hne hnodup hfit hcap => ?_, fun text table => bitstreamOf_length table text⟩
  obtain ⟨w, hgrown, -, htree, k, hbody⟩ := build_runs hne hfit hcap
  have hopt := buildBody_optimal (s := s.invalidate .tree) rfl
    (nnodeMax_admits_tree (List.length_pos_iff.mpr hne) hcap) hbody
  have hbuild := run_ok (i := .build) (by simp [neededFlags, hflag]) hbody
  obtain ⟨out, hgen, -⟩ :=
    generate_spec (p := s.params) htree (by simpa [hgrown.symbols] using hcap)
  refine ⟨_, _, hbuild, rfl, run_ok (i := .gencodes) ?_ (gencodesBody_of_generate hgen), rfl, ?_⟩
  · simp [neededFlags, State.flag, okControl, outputFlag, Flag.bit]
  · exact fun other hp hk => generate_optimal hgrown htree hcap hnodup hopt hgen hp hk

end Sys2Proof.Machine
end

section
/-! ## The code generator

GENCODES ends with code 0 just when `generate` gives a table, and CODE is then that table (R155). So
each statement about the command is one about `generate`, which Laws/Generator and Laws/Huffman
describe: its run on a tree, the order, the length and the Kraft sum of its codes. -/

namespace Sys2Proof.Machine

/-! ### The command and its table -/

/-- GENCODES stores the table of `generate` in CODE and changes nothing else (R155). -/
theorem exec_gencodes_of_generate {s : State} {table : List (Symbol × Bits)}
    (hflag : s.flag .tree = true)
    (hgen : generate s.params s.mem.node s.regs.root = .ok table) :
    exec .gencodes s = .next { s with
      mem := { s.mem with code := table }, ctl := okControl (some .code) s.ctl } :=
  run_ok (i := .gencodes) (by simp [neededFlags, hflag])
    (gencodesBody_of_generate (s := s.invalidate .code) hgen)

/-- A command whose ERR is 0 ended well: neither an input that is not valid nor an error of the body
leaves it 0 (R234, R238). -/
theorem body_of_exec_err_ok {i : Instr} {s t : State} (h : exec i s = .next t)
    (herr : t.ctl.err = .ok) :
    ∃ u, bodyOf i (s.invalidateOutput (outputFlag i)) = .ok u ∧ t.mem = u.mem := by
  rcases exec_ok h with ⟨-, rfl⟩ | ⟨-, u, hbody, rfl⟩ | ⟨-, c, hbody, rfl⟩
  · simp at herr
  · exact ⟨u, hbody, by simp⟩
  · exact absurd (by simpa using herr) (body_error hbody).1

/-- After a GENCODES that ended with code 0, CODE is the table of `generate` (R155). -/
theorem generate_of_exec_gencodes {s t : State} (h : exec .gencodes s = .next t)
    (herr : t.ctl.err = .ok) :
    generate s.params s.mem.node s.regs.root = .ok t.mem.code := by
  obtain ⟨u, hbody, hmem⟩ := body_of_exec_err_ok h herr
  obtain ⟨table, hgen, rfl⟩ := gencodesBody_ok hbody
  rw [hmem]
  exact hgen

/-- A root that is a leaf is not walked: its code is "0", the empty path being no code (R158). -/
theorem generate_of_root_leaf {p : Params} {nodes : List Node} {root f : Nat} {c : Symbol}
    (hroot : nodeAt nodes root = some (.leaf c f)) (hcap : p.nsymMax.admits 1 = true) :
    generate p nodes root = .ok [(c, [false])] := by
  simp only [generate, hroot]
  exact memAppend_of_admits hcap

/-! ### The statements about the code generator -/

/-- Settles O29: the generator's run on a tree, as the command stores it. -/
theorem gencodesGivesAPrefixCode : Obligations.GencodesGivesAPrefixCode := by
  intro s hflag htree hcap
  obtain ⟨table, hgen, hsymbols, hprefix, hpaths⟩ := generate_spec htree hcap
  exact ⟨table, exec_gencodes_of_generate hflag hgen, hsymbols, hprefix, hpaths⟩

/-- Settles O30: of two codes the earlier leaves the later to the left where they part. -/
theorem gencodesEmitsInLexicographicOrder : Obligations.GencodesEmitsInLexicographicOrder :=
  fun _ _ h herr => (generate_leftOf (generate_of_exec_gencodes h herr)).imp LeftOf.lt

/-- Settles O31: with two leaves or more the root is internal, so the codes are those of a walk. -/
theorem codeLengthsAndCompleteness : Obligations.CodeLengthsAndCompleteness := by
  intro s t hflag htree htwo h herr
  have hgen := generate_of_exec_gencodes h herr
  constructor
  · intro e he
    exact Nat.le_sub_one_of_lt (generate_length htree htwo hgen e he)
  · obtain ⟨c, f, hnodes, -⟩ | ⟨-, l, r, f, hroot⟩ := htree.root_node
    · simp [hnodes, leafSymbols, Node.sym?] at htwo
    · exact generate_kraft hroot hgen

/-- Settles O28: the table of a root leaf has the one code "0". -/
theorem gencodesOnARootLeaf : Obligations.GencodesOnARootLeaf :=
  fun _ _ _ hflag hroot hcap =>
    exec_gencodes_of_generate hflag (generate_of_root_leaf hroot hcap)

end Sys2Proof.Machine
end

section
/-! ## The bitstream codec

A command of the codec answers what its loop answers (R170, R173). Laws/Codec runs the loops over the
part of TEXT that encodes and the part of BITS that is matched; here stand the ends of the loops that
raise, two for each, and the statements about ENCODE and DECODE. -/

namespace Sys2Proof.Machine

/-! ### The commands and their loops -/

/-- ENCODE's body ends as its loop does, with the loop's result in BITS (R170). -/
theorem encodeBody_of_loop {s : State} {r : Except Stop Bits}
    (h : encodeLoop s.params s.mem.code s.mem.text [] = r) :
    encodeBody s = r.map (fun l => { s with mem := { s.mem with bits := l } }) := by
  rw [encodeBody, h]
  cases r <;> rfl

/-- ENCODE stores the bits of its loop in BITS and changes nothing else (R170). -/
theorem exec_encode_of_loop {s : State} {bits : Bits} (htext : s.flag .text = true)
    (hcode : s.flag .code = true)
    (hloop : encodeLoop s.params s.mem.code s.mem.text [] = .ok bits) :
    exec .encode s = .next { s with
      mem := { s.mem with bits := bits }, ctl := okControl (some .bits) s.ctl } :=
  run_ok (i := .encode) (by simp [neededFlags, htext, hcode])
    (encodeBody_of_loop (s := s.invalidate .bits) hloop)

/-- An ENCODE whose loop raises leaves BITS free and V.BITS 0 (R170, R238). -/
theorem exec_encode_of_loop_raise {s : State} {c : ResultCode} (htext : s.flag .text = true)
    (hcode : s.flag .code = true)
    (hloop : encodeLoop s.params s.mem.code s.mem.text [] = .error (.raise c)) :
    ∃ l k, exec .encode s = .next { s with
      mem := { s.mem with bits := l }, ctl := errControl (some .bits) c s.ctl, tick := k } :=
  ⟨_, _, run_err (i := .encode) (by simp [neededFlags, htext, hcode])
    (encodeBody_of_loop (s := s.invalidate .bits) hloop)⟩

/-- DECODE's body ends as its loop does, with the loop's result in OUT (R173). -/
theorem decodeBody_of_loop {s : State} {r : Except Stop (List Symbol)}
    (h : decodeLoop s.params s.mem.inv s.mem.bits [] [] = r) :
    decodeBody s = r.map (fun l => { s with mem := { s.mem with out := l } }) := by
  rw [decodeBody, h]
  cases r <;> rfl

/-- DECODE stores the symbols of its loop in OUT and changes nothing else (R173). -/
theorem exec_decode_of_loop {s : State} {out : List Symbol} (hbits : s.flag .bits = true)
    (hinv : s.flag .inv = true)
    (hloop : decodeLoop s.params s.mem.inv s.mem.bits [] [] = .ok out) :
    exec .decode s = .next { s with
      mem := { s.mem with out := out }, ctl := okControl (some .out) s.ctl } :=
  run_ok (i := .decode) (by simp [neededFlags, hbits, hinv])
    (decodeBody_of_loop (s := s.invalidate .out) hloop)

/-- A DECODE whose loop raises leaves OUT free and V.OUT 0 (R173, R238). -/
theorem exec_decode_of_loop_raise {s : State} {c : ResultCode} (hbits : s.flag .bits = true)
    (hinv : s.flag .inv = true)
    (hloop : decodeLoop s.params s.mem.inv s.mem.bits [] [] = .error (.raise c)) :
    ∃ l k, exec .decode s = .next { s with
      mem := { s.mem with out := l }, ctl := errControl (some .out) c s.ctl, tick := k } :=
  ⟨_, _, run_err (i := .decode) (by simp [neededFlags, hbits, hinv])
    (decodeBody_of_loop (s := s.invalidate .out) hloop)⟩

/-! ### How the loops end after a good start -/

/-- ENCODE's loop at a symbol without a code (R228). -/
theorem encodeLoop_unknown {p : Params} {table : List (Symbol × Bits)} {c : Symbol}
    (h : codeOf? table c = none) (cs : List Symbol) (acc : Bits) :
    encodeLoop p table (c :: cs) acc = .error (.raise .unknownSymbol) := by
  simp [encodeLoop, h]

/-- ENCODE's loop at a code that no longer fits (R170). -/
theorem encodeLoop_full {p : Params} {table : List (Symbol × Bits)} {c : Symbol} {code acc : Bits}
    (h : codeOf? table c = some code)
    (hfull : p.bitsMax.admits (acc.length + code.length) = false) (cs : List Symbol) :
    encodeLoop p table (c :: cs) acc = .error (.raise .capacity) := by
  simp [encodeLoop, h, memAppend_of_not_admits hfull]

/-- DECODE's loop from the start over greedy matches that fit, up to the bits after them (R173). -/
theorem decodeLoop_start {p : Params} {table : List (Bits × Symbol)} {chunks : List Bits}
    (h : ∀ b ∈ chunks, IsGreedyMatch table b) (hfit : p.textMax.admits chunks.length = true)
    (bs : Bits) :
    decodeLoop p table (chunks.flatten ++ bs) [] [] =
      decodeLoop p table bs [] (chunks.filterMap (symbolOf? table)) :=
  decodeLoop_chunks chunks bs [] h (by simpa using hfit)

/-- DECODE's loop over leftover bits: they pile up in the buffer, which is not empty at the end
(R229). -/
theorem decodeLoop_leftover {p : Params} {table : List (Bits × Symbol)} {rest : Bits}
    (hne : rest ≠ []) (hno : HasNoMatch table rest) (out : List Symbol) :
    decodeLoop p table rest [] out = .error (.raise .undecodableStream) := by
  have hrun := decodeLoop_noMatch (p := p) rest [] [] out hno
  rw [List.append_nil, List.nil_append] at hrun
  rw [hrun, decodeLoop, if_neg hne]

/-- DECODE's loop at a match when OUT is full (R175). -/
theorem decodeLoop_full {p : Params} {table : List (Bits × Symbol)} {b : Bits} {out : List Symbol}
    (hb : IsGreedyMatch table b) (hfull : p.textMax.admits (out.length + 1) = false) (bs : Bits) :
    decodeLoop p table (b ++ bs) [] out = .error (.raise .capacity) := by
  obtain ⟨sym, -, hrun⟩ := decodeLoop_match (p := p) bs out hb
  rw [hrun, memAppend_of_not_admits hfull]

/-- Each greedy match gives one symbol (R173). -/
theorem length_filterMap_symbolOf? {table : List (Bits × Symbol)} {chunks : List Bits}
    (h : ∀ b ∈ chunks, IsGreedyMatch table b) :
    (chunks.filterMap (symbolOf? table)).length = chunks.length :=
  List.filterMap_length_eq_length.mpr fun b hb => (h b hb).2.1

/-! ### The statements about the codec -/

/-- Settles O33: the loop's run on a text that encodes and fits, as the command stores it. -/
theorem encodeConcatenatesTheCodes : Obligations.EncodeConcatenatesTheCodes :=
  fun _ htext hcode hknown hfit => exec_encode_of_loop htext hcode (encodeLoop_text hknown hfit)

/-- Settles O34: the loop comes to the bad symbol with the bits of the symbols before it. -/
theorem encodeStopsAtTheFirstBadSymbol : Obligations.EncodeStopsAtTheFirstBadSymbol := by
  intro s pre post c htext hcode hsplit hknown hfit
  have hrun : encodeLoop s.params s.mem.code s.mem.text [] =
      encodeLoop s.params s.mem.code (c :: post) (bitstreamOf s.mem.code pre) := by
    rw [hsplit, encodeLoop_known pre (c :: post) [] hknown (by simpa using hfit), List.nil_append]
  constructor
  · intro hnone
    exact exec_encode_of_loop_raise htext hcode (hrun.trans (encodeLoop_unknown hnone post _))
  · intro code hsome hfull
    exact exec_encode_of_loop_raise htext hcode (hrun.trans (encodeLoop_full hsome hfull post))

/-- Settles O35: after the matches no bits are left and the buffer is empty. -/
theorem decodeMatchesGreedily : Obligations.DecodeMatchesGreedily := by
  intro s chunks hbits hinv hmatch hsplit hfit
  refine exec_decode_of_loop hbits hinv ?_
  rw [hsplit, ← List.append_nil chunks.flatten, decodeLoop_start hmatch hfit, decodeLoop, if_pos rfl]

/-- Settles O36: after the matches the loop stands before the leftover bits, or before a match with
OUT as long as the matches are many. -/
theorem decodeStopsOnLeftoverBitsOrFullOutput : Obligations.DecodeStopsOnLeftoverBitsOrFullOutput := by
  intro s chunks rest hbits hinv hmatch
  constructor
  · intro hsplit hne hno hfit
    refine exec_decode_of_loop_raise hbits hinv ?_
    rw [hsplit, decodeLoop_start hmatch hfit]
    exact decodeLoop_leftover hne hno _
  · intro b hb hsplit hfit hfull
    refine exec_decode_of_loop_raise hbits hinv ?_
    rw [hsplit, List.append_assoc, decodeLoop_start hmatch hfit]
    exact decodeLoop_full hb (by rwa [length_filterMap_symbolOf? hmatch]) rest

/-- Settles O37: ENCODE leaves TEXT's bitstream in BITS and INV as it is, and the codes of a prefix
code are greedy matches in its inverse. -/
theorem decodeUndoesEncode : Obligations.DecodeUndoesEncode := by
  intro s htext hcode hinv hprefix hinverse hknown hbits hout
  have hencode := encodeConcatenatesTheCodes s htext hcode hknown hbits
  have hloop : decodeLoop s.params s.mem.inv (bitstreamOf s.mem.code s.mem.text) [] [] =
      .ok s.mem.text := hinverse ▸ decodeLoop_bitstream hprefix hknown hout
  refine ⟨_, _, hencode, rfl, exec_decode_of_loop ?_ ?_ hloop, rfl, rfl⟩
  · simp [State.flag, okControl, Flag.bit]
  · simpa [State.flag, okControl, Flag.bit] using hinv

end Sys2Proof.Machine
end

section
/-! ## The serializer

SERDATA and DESDATA have one test each for every way they can end (R195, R202, R203). SERTAB and
DESTAB answer what their loops answer; Laws/Serializer runs the loops over the pairs or records that
fit, and here stand the ends of the loops that raise (R198, R199, R204, R205). -/

namespace Sys2Proof.Machine

/-! ### The end of a command -/

/-- A command that ends well makes the buffer of its output flag valid (R237 step 5). -/
theorem flag_of_okControl {f : Flag} {c : Control} {t : State} (h : t.ctl = okControl (some f) c) :
    t.flag f = true := by
  simp [State.flag, h, okControl, f.bit_lt]

/-- An error other than NotReadyError is one that the body raised (R234, R238). -/
theorem body_of_exec_err {i : Instr} {s t : State} {c : ResultCode} (h : exec i s = .next t)
    (herr : t.ctl.err = c) (hok : c ≠ .ok) (hready : c ≠ .notReady) :
    bodyOf i (s.invalidateOutput (outputFlag i)) = .error (.raise c) := by
  subst herr
  rcases exec_ok h with ⟨-, rfl⟩ | ⟨-, u, -, rfl⟩ | ⟨-, c, hbody, rfl⟩
  · exact absurd rfl hready
  · exact absurd rfl hok
  · exact hbody

/-! ### SERDATA and DESDATA -/

/-- SERDATA with room in DATA stores the padding length and the artifact (R195). -/
theorem exec_serdata_of_room {s : State} (hbits : s.flag .bits = true)
    (hroom : s.params.dataMax.admits
      (1 + (s.mem.bits.length + padOf s.mem.bits.length) / 8) = true) :
    exec .serdata s = .next { s with
      mem := { s.mem with data := dataArtifact s.mem.bits },
      regs := { s.regs with pad := padOf s.mem.bits.length },
      ctl := okControl (some .data) s.ctl } :=
  run_ok (i := .serdata) (by simp [neededFlags, hbits]) (if_pos hroom)

/-- DESDATA's body on an artifact that is not corrupt: the capacity decides (R202). -/
theorem desdataBody_of_legal {s : State} {p : Byte} {body : List Byte}
    (hdata : s.mem.data = p :: body) (hpad : p.toNat ≤ 7) (hlen : p.toNat ≤ 8 * body.length) :
    desdataBody s = if s.params.bitsMax.admits (8 * body.length - p.toNat) then
      .ok { s with mem := { s.mem with bits := (unpack body).take (8 * body.length - p.toNat) } }
      else .error (.raise .capacity) := by
  simp only [desdataBody, hdata, unpack_length]
  rw [if_neg (by omega), if_neg (by omega)]

/-- DESDATA's body on the artifact of a bitstream: stripping the padding leaves the bits before it
(R208). -/
theorem desdataBody_dataArtifact {s : State} {b : Bits} (hdata : s.mem.data = dataArtifact b)
    (hfit : s.params.bitsMax.admits b.length = true) :
    desdataBody s = .ok { s with mem := { s.mem with bits := b } } := by
  obtain ⟨hpad, -⟩ := padOf_spec b.length
  obtain ⟨hunpack, hlen⟩ := unpack_padded b
  have hbyte : (u8 (padOf b.length)).toNat = padOf b.length := u8_toNat (by omega)
  rw [desdataBody_of_legal hdata (by omega) (by omega), hbyte, hlen, Nat.add_sub_cancel, hunpack,
    List.take_left, if_pos hfit]

/-- DESDATA gives back the bitstream whose artifact stands in DATA (R208). -/
theorem exec_desdata_of_dataArtifact {s : State} {b : Bits} (hflag : s.flag .data = true)
    (hdata : s.mem.data = dataArtifact b) (hfit : s.params.bitsMax.admits b.length = true) :
    exec .desdata s = .next { s with
      mem := { s.mem with bits := b }, ctl := okControl (some .bits) s.ctl } :=
  run_ok (i := .desdata) (by simp [neededFlags, hflag])
    (desdataBody_dataArtifact (s := s.invalidate .bits) hdata hfit)

/-- DESDATA's body calls the artifact corrupt in the three cases of R203 and in no other. -/
theorem desdataBody_corrupt_iff {s : State} :
    desdataBody s = .error (.raise .corruptArtifact) ↔ s.mem.data = [] ∨
      ∃ p body, s.mem.data = p :: body ∧ (7 < p.toNat ∨ 8 * body.length < p.toNat) := by
  cases hdata : s.mem.data with
  | nil => simp [desdataBody, hdata]
  | cons p body =>
    by_cases hbad : 7 < p.toNat ∨ 8 * body.length < p.toNat
    · refine iff_of_true ?_ (.inr ⟨p, body, rfl, hbad⟩)
      simp only [desdataBody, hdata, unpack_length]
      rcases hbad with hpad | hlen
      · rw [if_pos hpad]
      · rw [if_pos hlen, ite_self]
    · refine iff_of_false ?_ (by simpa using hbad)
      rw [desdataBody_of_legal hdata (by omega) (by omega)]
      split <;> simp

/-- Settles O39: the body of the artifact packs the padded bits, so it unpacks to them. -/
theorem serdataWritesThePaddedArtifact : Obligations.SerdataWritesThePaddedArtifact := by
  intro s hbits
  constructor
  · intro hroom
    obtain ⟨hpad, hmod⟩ := padOf_spec s.mem.bits.length
    obtain ⟨hunpack, hlen⟩ := unpack_padded s.mem.bits
    exact ⟨_, _, exec_serdata_of_room hbits hroom, hpad, hmod, by omega, hunpack⟩
  · intro hfull
    have hbody : serdataBody (s.invalidate .data) = .error (.raise .capacity) :=
      if_neg (ne_true_of_eq_false hfull)
    exact ⟨_, _, _, run_err (i := .serdata) (by simp [neededFlags, hbits]) hbody⟩

/-- Settles O40: on an artifact that is not corrupt the capacity decides between the two ends. -/
theorem desdataUnpacksAndStrips : Obligations.DesdataUnpacksAndStrips := by
  intro s p body hflag hdata hpad hlen
  have hneeds : (neededFlags .desdata).all s.flag = true := by simp [neededFlags, hflag]
  have hbody := desdataBody_of_legal (s := s.invalidate .bits) hdata hpad hlen
  constructor
  · intro hroom
    exact run_ok (i := .desdata) hneeds (hbody.trans (if_pos hroom))
  · intro hfull
    have hraise := hbody.trans (if_neg (ne_true_of_eq_false hfull))
    exact ⟨_, _, run_err (i := .desdata) hneeds hraise⟩

/-- Settles O41: CorruptArtifactError comes from the body alone. -/
theorem desdataCorruptCases : Obligations.DesdataCorruptCases := by
  intro s hflag
  refine Iff.trans ⟨?_, ?_⟩ (desdataBody_corrupt_iff (s := s.invalidate .bits))
  · rintro ⟨l, k, hrun⟩
    exact body_of_exec_err (i := .desdata) hrun rfl (by decide) (by decide)
  · intro hbody
    exact ⟨_, _, run_err (i := .desdata) (by simp [neededFlags, hflag]) hbody⟩

/-- Settles O42: DATA holds the artifact of BITS, whose length says how many bits to strip. -/
theorem desdataUndoesSerdata : Obligations.DesdataUndoesSerdata := by
  intro s hbits hroom hfit
  exact ⟨_, _, exec_serdata_of_room hbits hroom, rfl,
    exec_desdata_of_dataArtifact (flag_of_okControl rfl) rfl hfit, rfl, rfl⟩

/-! ### SERTAB -/

/-- SERTAB's body ends as its loop does, with the loop's result in CTAB (R198). -/
theorem sertabBody_of_loop {s : State} {r : Except Stop (List Byte)}
    (h : sertabLoop s.params s.mem.code [] = r) :
    sertabBody s = r.map (fun l => { s with mem := { s.mem with ctab := l } }) := by
  rw [sertabBody, h]
  cases r <;> rfl

/-- A SERTAB whose loop raises leaves CTAB free and V.CTAB 0 (R198, R238). -/
theorem exec_sertab_of_loop_raise {s : State} {c : ResultCode} (hcode : s.flag .code = true)
    (hloop : sertabLoop s.params s.mem.code [] = .error (.raise c)) :
    ∃ l k, exec .sertab s = .next { s with
      mem := { s.mem with ctab := l }, ctl := errControl (some .ctab) c s.ctl, tick := k } :=
  ⟨_, _, run_err (i := .sertab) (by simp [neededFlags, hcode])
    (sertabBody_of_loop (s := s.invalidate .ctab) hloop)⟩

/-- SERTAB's loop at a pair over the format limit (R199). -/
theorem sertabLoop_unfit {p : Params} {e : Symbol × Bits} (h : ¬ FitsFormat e)
    (es : List (Symbol × Bits)) (acc : List Byte) :
    sertabLoop p (e :: es) acc = .error (.raise .formatLimitExceeded) := by
  rw [sertabLoop, if_pos]
  unfold lenFieldMax
  unfold FitsFormat at h
  omega

/-- SERTAB's loop at a record that no longer fits (R198, R241). -/
theorem sertabLoop_full {p : Params} {e : Symbol × Bits} {acc : List Byte} (h : FitsFormat e)
    (hfull : p.ctabMax.admits (acc.length + (tableRecord e.1 e.2).length) = false)
    (es : List (Symbol × Bits)) : sertabLoop p (e :: es) acc = .error (.raise .capacity) := by
  obtain ⟨hsym, hcode⟩ := h
  rw [sertabLoop, if_neg (by unfold lenFieldMax; omega), memAppend_of_not_admits hfull]

/-- Settles O43: the loop's run on pairs that fit, as the command stores it. -/
theorem sertabWritesTheRecords : Obligations.SertabWritesTheRecords := by
  intro s hcode hfits hroom
  have hloop : sertabLoop s.params s.mem.code [] = .ok (tableArtifact s.mem.code) := by
    simpa [sertabLoop] using sertabLoop_fits s.mem.code [] [] hfits (by simpa using hroom)
  exact run_ok (i := .sertab) (by simp [neededFlags, hcode])
    (sertabBody_of_loop (s := s.invalidate .ctab) hloop)

/-- Settles O44: the loop comes to the bad pair with the records of the pairs before it. -/
theorem sertabStopsAtTheFirstBadPair : Obligations.SertabStopsAtTheFirstBadPair := by
  intro s pre post e hcode hsplit hfits hroom
  have hrun : sertabLoop s.params s.mem.code [] =
      sertabLoop s.params (e :: post) (tableArtifact pre) := by
    rw [hsplit, sertabLoop_fits pre (e :: post) [] hfits (by simpa using hroom), List.nil_append]
  constructor
  · intro hunfit
    exact exec_sertab_of_loop_raise hcode (hrun.trans (sertabLoop_unfit hunfit post _))
  · intro hfit hfull
    exact exec_sertab_of_loop_raise hcode (hrun.trans (sertabLoop_full hfit hfull post))

/-! ### DESTAB -/

/-- DESTAB's body ends as its loop does, with the loop's result in INV (R204). -/
theorem destabBody_of_loop {s : State} {r : Except Stop (List (Bits × Symbol))}
    (h : destabLoop s.params s.mem.ctab.length s.mem.ctab [] = r) :
    destabBody s = r.map (fun l => { s with mem := { s.mem with inv := l } }) := by
  rw [destabBody, h]
  cases r <;> rfl

/-- A DESTAB whose loop raises leaves INV free and V.INV 0 (R204, R238). -/
theorem exec_destab_of_loop_raise {s : State} {c : ResultCode} (hctab : s.flag .ctab = true)
    (hloop : destabLoop s.params s.mem.ctab.length s.mem.ctab [] = .error (.raise c)) :
    ∃ l k, exec .destab s = .next { s with
      mem := { s.mem with inv := l }, ctl := errControl (some .inv) c s.ctl, tick := k } :=
  ⟨_, _, run_err (i := .destab) (by simp [neededFlags, hctab])
    (destabBody_of_loop (s := s.invalidate .inv) hloop)⟩

/-- DESTAB's loop from the start over whole records that fit, up to the bytes after them, with
rounds enough for these (R204, R206). -/
theorem destabLoop_start {p : Params} {records : List (Symbol × Bits)} {bytes rest : List Byte}
    (hbytes : bytes = tableArtifact records ++ rest)
    (hfits : ∀ e ∈ records, FitsFormat e ∧ e.2 ≠ [])
    (hsyms : symbolsFit p (records.map (·.1)) = true)
    (hroom : p.nsymMax.admits (records.map (·.2)).eraseDups.length = true) :
    ∃ rounds, rest.length ≤ rounds ∧
      destabLoop p bytes.length bytes [] = destabLoop p rounds rest (rebuiltTable records) := by
  subst hbytes
  exact destabLoop_records records rest [] (le_refl _) hfits hsyms (by simpa using hroom)

/-- DESTAB's loop ends at the end of the bytes. -/
theorem destabLoop_nil (p : Params) (rounds : Nat) (inv : List (Bits × Symbol)) :
    destabLoop p rounds [] inv = .ok inv := by
  cases rounds <;> rfl

/-- DESTAB's loop at a malformed record (R205). -/
theorem destabLoop_bad {p : Params} {bytes : List Byte} (h : BadRecord bytes) (rounds : Nat)
    (inv : List (Bits × Symbol)) :
    destabLoop p rounds bytes inv = .error (.raise .corruptArtifact) := by
  have hread := readRecord_bad h
  obtain ⟨b, bs, rfl⟩ : ∃ b bs, bytes = b :: bs := by cases h <;> exact ⟨_, _, rfl⟩
  cases rounds with
  | zero => rfl
  | succ n => simp only [destabLoop, hread]

/-- DESTAB's loop at a record whose symbol is too long, or whose new code has no room in INV
(R204, R241). -/
theorem destabLoop_full {p : Params} {records : List (Symbol × Bits)} {e : Symbol × Bits}
    (hfit : FitsFormat e) (hne : e.2 ≠ [])
    (hfull : p.symlenMax.admits e.1.len = false ∨ (e.2 ∉ records.map (·.2) ∧
      p.nsymMax.admits ((records.map (·.2)).eraseDups.length + 1) = false))
    (rest : List Byte) (rounds : Nat) :
    destabLoop p (rounds + 1) (tableRecord e.1 e.2 ++ rest) (rebuiltTable records) =
      .error (.raise .capacity) := by
  have hread : readRecord (tableRecord e.1 e.2 ++ rest) = some (e.1, e.2, rest) :=
    readRecord_tableRecord rest hfit hne
  obtain ⟨b, bs, hbytes⟩ : ∃ b bs, tableRecord e.1 e.2 ++ rest = b :: bs := ⟨_, _, rfl⟩
  rw [hbytes] at hread ⊢
  simp only [destabLoop, hread]
  by_cases hsym : p.symlenMax.admits e.1.len = true
  · rcases hfull with hlong | ⟨hnew, hfull⟩
    · rw [hsym] at hlong
      cases hlong
    · rcases rebuiltTable_snoc records e with ⟨hold, -⟩ | ⟨-, hrep, -⟩
      · exact absurd hold hnew
      · rw [← rebuiltTable_keys, List.length_map] at hfull
        simp only [hsym, if_true, hrep]
        rw [memAppend_of_not_admits hfull]
  · rw [if_neg hsym]

/-- Settles O45: the loop's run on whole records, as the command stores it. -/
theorem destabRebuildsTheInverseTable : Obligations.DestabRebuildsTheInverseTable := by
  intro s records hctab hbytes hfits hsyms hroom
  obtain ⟨rounds, -, hloop⟩ :=
    destabLoop_start (hbytes.trans (List.append_nil _).symm) hfits hsyms hroom
  rw [destabLoop_nil] at hloop
  exact run_ok (i := .destab) (by simp [neededFlags, hctab])
    (destabBody_of_loop (s := s.invalidate .inv) hloop)

/-- Settles O46: the loop comes to the bad record with the table of the records before it. -/
theorem destabStopsAtTheFirstBadRecord : Obligations.DestabStopsAtTheFirstBadRecord := by
  intro s records hctab hfits hsyms hroom
  constructor
  · intro bad hbytes hbad
    obtain ⟨rounds, -, hloop⟩ := destabLoop_start hbytes hfits hsyms hroom
    exact exec_destab_of_loop_raise hctab (hloop.trans (destabLoop_bad hbad rounds _))
  · intro e rest hfit hne hbytes hfull
    rw [List.append_assoc] at hbytes
    obtain ⟨rounds, hrounds, hloop⟩ := destabLoop_start hbytes hfits hsyms hroom
    obtain ⟨n, rfl⟩ : ∃ n, rounds = n + 1 := by
      rw [List.length_append, tableRecord_length] at hrounds
      exact ⟨rounds - 1, by omega⟩
    exact exec_destab_of_loop_raise hctab (hloop.trans (destabLoop_full hfit hne hfull rest n))

/-- Settles O47: the table rebuilt from the records of CODE is its inverse. -/
theorem destabUndoesSertab : Obligations.DestabUndoesSertab := by
  intro s hcode hfits hprefix hctab hsyms hroom
  have hser := sertabWritesTheRecords s hcode hfits hctab
  refine ⟨_, _, hser, rfl, destabRebuildsTheInverseTable _ s.mem.code (flag_of_okControl rfl) rfl
    (fun e he => ⟨hfits e he, hprefix.1 e he⟩) hsyms (Bound.admits_mono ?_ hroom), rfl,
    rebuilt_prefix hprefix⟩
  rw [← rebuiltTable_keys, rebuilt_prefix hprefix]
  simp [inverseTable]

end Sys2Proof.Machine
end

section
/-! ## No command stops in a state that meets the invariants

The three faults of log entry 11 are HPUSH's and HPOP's on a heap with a dangling entry, and those of
GENCODES's walk; a heap in range and a tree rule them out (R24, R25, R269). -/

namespace Sys2Proof.Machine

/-- Where a body faults: in GENCODES's walk, or on a heap with a dangling entry (log entry 11). -/
theorem body_fault {i : Instr} {s : State} {f : Fault} (h : bodyOf i s = .error (.fault f)) :
    (i = .gencodes ∧ generate s.params s.mem.node s.regs.root = .error (.fault f)) ∨
    heapInRange s = false := by
  cases i with
  | hinit n =>
    simp only [bodyOf, hinitBody] at h
    split at h <;> cases h
  | hpush k =>
    simp only [bodyOf, hpushBody] at h
    split at h
    · split at h
      · next hp => cases h; cases (heapPush_error hp).1
      · split at h
        · cases h
        · next hrange => exact .inr (by simpa using hrange)
    · cases h
  | hpop =>
    simp only [bodyOf, hpopBody] at h
    split at h
    · next hp => cases h; cases (heapPop_error hp).1
    · split at h
      · cases h
      · next hrange => exact .inr (by simpa using hrange)
  | count =>
    simp only [bodyOf, countBody] at h
    split at h
    · cases h
    · next hl => cases h; cases countLoop_error hl
  | build => rcases buildBody_err h with ⟨he, -⟩ | he <;> cases he
  | gencodes =>
    simp only [bodyOf, gencodesBody] at h
    split at h
    · cases h
    · next hgen => cases h; exact .inl ⟨rfl, hgen⟩
  | encode =>
    simp only [bodyOf, encodeBody] at h
    split at h
    · cases h
    · next hl => cases h; rcases encodeLoop_error hl with he | he <;> cases he
  | decode =>
    simp only [bodyOf, decodeBody] at h
    split at h
    · cases h
    · next hl => cases h; rcases decodeLoop_error hl with he | he <;> cases he
  | verify =>
    simp only [bodyOf, verifyBody] at h
    split at h
    · cases h
    · split at h <;> cases h
  | serdata =>
    simp only [bodyOf, serdataBody] at h
    split at h <;> cases h
  | sertab =>
    simp only [bodyOf, sertabBody] at h
    split at h
    · cases h
    · next hl => cases h; rcases sertabLoop_error hl with he | he <;> cases he
  | desdata =>
    simp only [bodyOf, desdataBody] at h
    split at h
    · cases h
    · split at h
      · cases h
      · split at h
        · cases h
        · split at h <;> cases h
  | destab =>
    simp only [bodyOf, destabBody] at h
    split at h
    · cases h
    · next hl => cases h; rcases destabLoop_error hl with he | he <;> cases he

/-- The invalidation of an output leaves HEAP in range: BUILD's empties it with NODE (R237 step 3). -/
theorem heapInRange_invalidateOutput {s : State} (h : heapInRange s = true) (out : Option Flag) :
    heapInRange (s.invalidateOutput out) = true := by
  rw [heapInRange, State.invalidateOutput_mem]
  split
  · rfl
  · exact h

/-- A valid tree has a code table (R159, R160). -/
theorem generate_of_inv {s : State} (hi : MachineInv s) (htree : s.flag .tree = true) :
    ∃ table, generate s.params s.mem.node s.regs.root = .ok table ∧
      (table.map (·.1)).Perm (leafSymbols s.mem.node) := by
  obtain ⟨hparams, hwf, -, -, -, htreeOk, -⟩ := hi
  obtain ⟨hist, -⟩ := htreeOk.2 htree
  obtain ⟨table, hgen, hperm, -⟩ := generate_spec hist (leafSymbols_admits hparams hwf hist)
  exact ⟨table, hgen, hperm⟩

/-- From a state that meets the invariants every command answers a next state (R269). -/
theorem exec_next {s : State} (hi : MachineInv s) (i : Instr) : ∃ t, exec i s = .next t := by
  cases hrun : exec i s with
  | next t => exact ⟨t, rfl⟩
  | refused r => exact absurd ((exec_eq i s).symm.trans hrun) runFrame_not_refused
  | fault f =>
    obtain ⟨hneeds, hbody⟩ := runFrame_fault ((exec_eq i s).symm.trans hrun)
    rcases body_fault hbody with ⟨rfl, hfault⟩ | hrange
    · obtain ⟨table, hgen, -⟩ := generate_of_inv hi (by simpa [neededFlags] using hneeds)
      cases hgen.symm.trans hfault
    · obtain ⟨-, -, -, -, -, -, hheap, -⟩ := hi
      rw [heapInRange_invalidateOutput hheap.1] at hrange
      cases hrange

/-- Commands run one after another from a state that meets the invariants reach their end. -/
theorem runCommands_isSome (is : List Instr) {s : State} (hi : MachineInv s) :
    ∃ codes t, runCommands is s = some (codes, t) := by
  induction is generalizing s with
  | nil => exact ⟨[], s, rfl⟩
  | cons i is ih =>
    obtain ⟨u, hu⟩ := exec_next hi i
    obtain ⟨codes, t, hrest⟩ := ih (exec_inv hi hu)
    exact ⟨u.ctl.err :: codes, t, by simp [runCommands, hu, hrest]⟩

/-- The first of several commands, and the others after it. -/
theorem runCommands_cons {i : Instr} {is : List Instr} {s t : State} {codes : List ResultCode}
    (h : runCommands (i :: is) s = some (codes, t)) :
    ∃ u codes', exec i s = .next u ∧ runCommands is u = some (codes', t) ∧
      codes = u.ctl.err :: codes' := by
  unfold runCommands at h
  split at h
  · next u hu =>
    split at h
    · next codes' v hrest => cases h; exact ⟨u, codes', hu, hrest, rfl⟩
    · cases h
  · cases h
  · cases h

end Sys2Proof.Machine
end

section
/-! ## The whole pipeline

Each of the ten commands of ROUNDTRIP completes, unless it meets a capacity or the format limit, in a
state where the buffers hold what the next one needs (`Completes`); these chain into the statement
about all ten (`Achieves`), for every tie choice (R209). -/

namespace Sys2Proof.Machine

/-! ### What a buffer holds -/

/-- Space `x` can be read and holds `v` (R70). -/
structure Holds (x : Space) (v : ReadValue) (s : State) : Prop where
  readable : spaceReadable x s = true
  contents : contentsOf x s = v

/-- A buffer can be read when its flag is 1 (R35, R70). -/
theorem spaceReadable_eq_flag {f : Flag} {x : Space} (hx : f.buffer = some x) (s : State) :
    spaceReadable x s = s.flag f := by
  cases f <;> cases hx <;> rfl

theorem Holds.flag {f : Flag} {x : Space} {v : ReadValue} {s : State} (h : Holds x v s)
    (hx : f.buffer = some x) : s.flag f = true :=
  (spaceReadable_eq_flag hx s).symm.trans h.readable

/-- A buffer that a command does not write holds the same after it (R61). -/
theorem Holds.of_exec {x : Space} {v : ReadValue} {i : Instr} {s t : State} (hs : Holds x v s)
    (h : exec i s = .next t) (hx : x ∉ writtenSpaces i := by decide) : Holds x v t := by
  have hkept := exec_othersKept h
  have hflag : ∀ f : Flag, f.buffer = some x → t.flag f = s.flag f := fun f hf =>
    hkept.flag f fun ho => hx (output_mem_writtenSpaces ho hf)
  have hsame : spaceReadable x t = spaceReadable x s := by
    cases x
    case heap => rw [spaceReadable, hkept.params, spaceReadable]
    all_goals exact hflag _ rfl
  exact ⟨hsame.trans hs.readable, (hkept.contents x hx).trans hs.contents⟩

/-! ### Commands that meet no limit -/

/-- The code of a command that meets neither a capacity nor the format limit (R209). -/
abbrev MeetsNoLimit (c : ResultCode) : Prop := c ≠ .capacity ∧ c ≠ .formatLimitExceeded

/-- From a state that meets the invariants and `P`, command `i` ends with code 0 in a state that meets
`Q`, unless it meets a limit. -/
def Completes (i : Instr) (P Q : State → Prop) : Prop :=
  ∀ s t, MachineInv s → P s → exec i s = .next t → MeetsNoLimit t.ctl.err →
    t.ctl.err = .ok ∧ Q t

/-- The same of commands run one after another, none of which meets a limit. -/
def Achieves (is : List Instr) (P Q : State → Prop) : Prop :=
  ∀ s codes t, MachineInv s → P s → runCommands is s = some (codes, t) →
    (∀ c ∈ codes, MeetsNoLimit c) → (∀ c ∈ codes, c = .ok) ∧ Q t

theorem Achieves.nil (P : State → Prop) : Achieves [] P P := by
  intro s codes t _ hP h _
  cases h
  exact ⟨by simp, hP⟩

theorem Completes.cons {i : Instr} {is : List Instr} {P Q R : State → Prop} (hi : Completes i P Q)
    (his : Achieves is Q R) : Achieves (i :: is) P R := by
  intro s codes t hinv hP h hlimit
  obtain ⟨u, codes', hu, hrest, rfl⟩ := runCommands_cons h
  obtain ⟨hfirst, hlimit'⟩ := List.forall_mem_cons.mp hlimit
  obtain ⟨hok, hQ⟩ := hi s u hinv hP hu hfirst
  obtain ⟨hoks, hR⟩ := his u codes' t (exec_inv hinv hu) hQ hrest hlimit'
  exact ⟨List.forall_mem_cons.mpr ⟨hok, hoks⟩, hR⟩

theorem Achieves.of_forall {α : Type} {is : List Instr} {P : α → State → Prop} {Q : State → Prop}
    (h : ∀ a, Achieves is (P a) Q) : Achieves is (fun s => ∃ a, P a s) Q := by
  rintro s codes t hinv ⟨a, hP⟩
  exact h a s codes t hinv hP

/-- A command whose inputs are valid and whose body raises limits alone completes, when it meets none,
and its output is what its body makes (R237). -/
theorem exec_makes {i : Instr} {f : Flag} {x : Space} {s t : State} (ho : outputFlag i = some f)
    (hx : f.buffer = some x) (h : exec i s = .next t)
    (hneeds : (neededFlags i).all s.flag = true) (hlimit : MeetsNoLimit t.ctl.err)
    (hbody : ∀ c, bodyOf i (s.invalidate f) = .error (.raise c) → ¬ MeetsNoLimit c) :
    t.ctl.err = .ok ∧ ∃ u, bodyOf i (s.invalidate f) = .ok u ∧ Holds x (contentsOf x u) t := by
  rcases exec_ok h with ⟨hno, -⟩ | ⟨-, u, hb, rfl⟩ | ⟨-, c, hb, rfl⟩
  · cases hneeds.symm.trans hno
  · rw [ho] at hb ⊢
    refine ⟨rfl, u, hb, ?_, by simp⟩
    simp [spaceReadable_eq_flag hx]
  · rw [ho] at hb
    exact absurd hlimit (hbody c hb)

/-- The bodies of COUNT, GENCODES, SERDATA and SERTAB raise limits alone (R236). -/
theorem body_raises_limit {i : Instr} {s : State} {c : ResultCode}
    (h : bodyOf i s = .error (.raise c))
    (hcodes : ∀ c ∈ possibleCodes i, c = .ok ∨ c = .notReady ∨ ¬ MeetsNoLimit c := by decide) :
    ¬ MeetsNoLimit c := by
  obtain ⟨hok, hready, -, -, hcode⟩ := body_error h
  rcases hcode with hcode | ⟨-, rfl⟩
  · exact ((hcodes c hcode).resolve_left hok).resolve_left hready
  · decide

/-! ### From the text to its code table -/

/-- What BUILD starts from: TEXT and its frequency table. -/
def Counted (text : List Symbol) (s : State) : Prop :=
  Holds .text (.symbols text) s ∧ Holds .freq (.freqTable (tableOf text)) s

/-- What GENCODES starts from: TEXT and a tree whose leaves are its symbols. -/
def Built (text : List Symbol) (s : State) : Prop :=
  Holds .text (.symbols text) s ∧
  ∃ nodes, Holds .node (.nodes nodes) s ∧ leafSymbols nodes = text.eraseDups

/-- TEXT and a code table with a code for each of its symbols. -/
structure Coded (text : List Symbol) (table : List (Symbol × Bits)) (s : State) : Prop where
  textHeld : Holds .text (.symbols text) s
  codeHeld : Holds .code (.codeTable table) s
  known    : ∀ c ∈ text, (codeOf? table c).isSome = true

theorem Coded.of_exec {text : List Symbol} {table : List (Symbol × Bits)} {i : Instr} {s t : State}
    (hs : Coded text table s) (h : exec i s = .next t) (htext : .text ∉ writtenSpaces i := by decide)
    (hcode : .code ∉ writtenSpaces i := by decide) : Coded text table t :=
  ⟨hs.textHeld.of_exec h htext, hs.codeHeld.of_exec h hcode, hs.known⟩

theorem count_completes (text : List Symbol) :
    Completes .count (Holds .text (.symbols text)) (Counted text) := by
  intro s t _ htext h hlimit
  obtain ⟨hok, u, hbody, hfreq⟩ := exec_makes rfl rfl h
    (by simp [neededFlags, htext.flag (f := .text) rfl]) hlimit fun c hb => body_raises_limit hb
  obtain rfl := countBody_freq hbody
  obtain rfl : s.mem.text = text := ReadValue.symbols.inj htext.contents
  exact ⟨hok, htext.of_exec h, hfreq⟩

/-- A text that is not empty has a table that is not, so BUILD does not end with EmptyInputError. -/
theorem build_completes {text : List Symbol} (hne : text ≠ []) :
    Completes .build (Counted text) (Built text) := by
  rintro s t ⟨-, hwf, -⟩ ⟨htext, hfreq⟩ h hlimit
  have htable : s.mem.freq = tableOf text := ReadValue.freqTable.inj hfreq.contents
  have hsymbols : s.mem.freq.map (·.1) = text.eraseDups := htable ▸ tableOf_symbols text
  have hraises : ∀ c, buildBody (s.invalidate .tree) = .error (.raise c) → ¬ MeetsNoLimit c := by
    intro c hb
    rcases buildBody_err hb with ⟨-, hempty⟩ | hc
    · rw [show s.mem.freq = [] from hempty, List.map_nil] at hsymbols
      cases text with
      | nil => exact absurd rfl hne
      | cons c cs => simp [List.eraseDups_cons] at hsymbols
    · cases hc
      decide
  obtain ⟨hok, u, hbody, hnode⟩ := exec_makes rfl rfl h
    (by simp [neededFlags, hfreq.flag (f := .freq) rfl]) hlimit hraises
  obtain ⟨-, hleaves, -⟩ := buildBody_tree (Memory.wf_iff.mp hwf).2.1 hbody
  exact ⟨hok, htext.of_exec h, _, hnode, hleaves.trans hsymbols⟩

/-- Every symbol of the text is one of a leaf, and so has a code (R160). -/
theorem gencodes_completes (text : List Symbol) :
    Completes .gencodes (Built text) (fun s => ∃ table, Coded text table s) := by
  rintro s t hi ⟨htext, nodes, hnode, hleaves⟩ h hlimit
  have htree : s.flag .tree = true := hnode.flag rfl
  obtain rfl : s.mem.node = nodes := ReadValue.nodes.inj hnode.contents
  obtain ⟨hok, u, hbody, hcode⟩ := exec_makes rfl rfl h (by simp [neededFlags, htree]) hlimit
    fun c hb => body_raises_limit hb
  obtain ⟨table, hgen, rfl⟩ := gencodesBody_ok hbody
  obtain ⟨table', hgen', hperm⟩ := generate_of_inv hi htree
  obtain rfl : table' = table := Except.ok.inj (hgen'.symm.trans hgen)
  refine ⟨hok, table', htext.of_exec h, hcode, fun c hc => ?_⟩
  rw [codeOf?_isSome, hperm.mem_iff, hleaves]
  exact List.mem_eraseDups.mpr hc

/-! ### From the code table to the artifacts -/

section stages
variable (text : List Symbol) (table : List (Symbol × Bits))

/-- TEXT, its code table and its bitstream. -/
def Encoded (s : State) : Prop :=
  Coded text table s ∧ Holds .bits (.bits (bitstreamOf table text)) s

/-- The bitstream and its artifact, which SERTAB leaves alone. -/
def DataWritten (s : State) : Prop :=
  Encoded text table s ∧ Holds .data (.bytes (dataArtifact (bitstreamOf table text))) s

/-- The artifact of a code table within the format. -/
def TableWritten (s : State) : Prop :=
  Holds .ctab (.bytes (tableArtifact table)) s ∧ ∀ e ∈ table, FitsFormat e

variable {text table}

theorem Encoded.of_exec {i : Instr} {s t : State} (hs : Encoded text table s)
    (h : exec i s = .next t) (htext : .text ∉ writtenSpaces i := by decide)
    (hcode : .code ∉ writtenSpaces i := by decide) (hbits : .bits ∉ writtenSpaces i := by decide) :
    Encoded text table t :=
  ⟨hs.1.of_exec h htext hcode, hs.2.of_exec h hbits⟩

theorem Coded.isPrefixCode {s : State} (hs : Coded text table s) (hi : MachineInv s) :
    IsPrefixCode table := by
  obtain ⟨-, -, -, -, -, -, -, hcode⟩ := hi
  obtain rfl : s.mem.code = table := ReadValue.codeTable.inj hs.codeHeld.contents
  exact (hcode (hs.codeHeld.flag rfl)).2.2

/-- ENCODE's loop on symbols that all have codes stops at a capacity alone (R170). -/
theorem encodeLoop_error_of_known {p : Params} {cs : List Symbol} {acc : Bits} {e : Stop}
    (hknown : ∀ c ∈ cs, (codeOf? table c).isSome = true)
    (h : encodeLoop p table cs acc = .error e) : e = .raise .capacity := by
  induction cs generalizing acc with
  | nil => cases h
  | cons c cs ih =>
    obtain ⟨hc, hcs⟩ := List.forall_mem_cons.mp hknown
    obtain ⟨code, hcode⟩ := Option.isSome_iff_exists.mp hc
    simp only [encodeLoop, hcode] at h
    split at h
    · exact ih hcs h
    · next hfull => cases h; exact (memAppend_error hfull).1

theorem encode_completes : Completes .encode (Coded text table) (Encoded text table) := by
  intro s t _ hs h hlimit
  obtain rfl : s.mem.text = text := ReadValue.symbols.inj hs.textHeld.contents
  obtain rfl : s.mem.code = table := ReadValue.codeTable.inj hs.codeHeld.contents
  have hraises : ∀ c, encodeBody (s.invalidate .bits) = .error (.raise c) → ¬ MeetsNoLimit c := by
    intro c hb
    simp only [encodeBody] at hb
    split at hb
    · cases hb
    · next hloop =>
      cases hb
      cases encodeLoop_error_of_known hs.known hloop
      decide
  obtain ⟨hok, u, hbody, hbits⟩ := exec_makes rfl rfl h
    (by simp [neededFlags, hs.textHeld.flag (f := .text) rfl, hs.codeHeld.flag (f := .code) rfl])
    hlimit hraises
  obtain ⟨bits, hloop, rfl⟩ := encodeBody_ok hbody
  obtain ⟨rfl, -⟩ := encodeLoop_ok hloop (by simp)
  exact ⟨hok, hs.of_exec h, hbits⟩

theorem serdata_completes : Completes .serdata (Encoded text table) (DataWritten text table) := by
  intro s t _ hs h hlimit
  obtain ⟨hok, u, hbody, hdata⟩ := exec_makes rfl rfl h
    (by simp [neededFlags, hs.2.flag (f := .bits) rfl]) hlimit fun c hb => body_raises_limit hb
  obtain ⟨-, rfl⟩ := serdataBody_ok hbody
  have hbits : s.mem.bits = bitstreamOf table text := ReadValue.bits.inj hs.2.contents
  exact ⟨hok, hs.of_exec h, hbits ▸ hdata⟩

/-- A SERTAB that completes has found every pair within the format (R199). -/
theorem sertab_completes : Completes .sertab (DataWritten text table)
    (fun s => DataWritten text table s ∧ TableWritten table s) := by
  rintro s t - ⟨hs, hdata⟩ h hlimit
  obtain rfl : s.mem.code = table := ReadValue.codeTable.inj hs.1.codeHeld.contents
  obtain ⟨hok, u, hbody, hctab⟩ := exec_makes rfl rfl h
    (by simp [neededFlags, hs.1.codeHeld.flag (f := .code) rfl]) hlimit fun c hb => body_raises_limit hb
  obtain ⟨bytes, hloop, rfl⟩ := sertabBody_ok hbody
  obtain ⟨rfl, hfits, -⟩ := sertabLoop_ok hloop (by simp)
  exact ⟨hok, ⟨hs.of_exec h, hdata.of_exec h⟩, hctab, hfits⟩

/-! ### From the artifacts back to the text -/

/-- The bitstream, which BITS still holds, fits, so DESDATA meets no limit. -/
theorem desdata_completes : Completes .desdata
    (fun s => DataWritten text table s ∧ TableWritten table s)
    (fun s => Encoded text table s ∧ TableWritten table s) := by
  rintro s t ⟨-, hwf, -⟩ ⟨⟨⟨hs, hbits⟩, hdata⟩, hctab, hfits⟩ h -
  obtain ⟨-, -, -, -, -, -, hroom, -⟩ := Memory.wf_iff.mp hwf
  rw [show s.mem.bits = bitstreamOf table text from ReadValue.bits.inj hbits.contents] at hroom
  have hrun := exec_desdata_of_dataArtifact (hdata.flag rfl) (ReadValue.bytes.inj hdata.contents)
    hroom
  have hcoded := hs.of_exec h
  have htable := hctab.of_exec h
  cases hrun.symm.trans h
  exact ⟨rfl, ⟨hcoded, flag_of_okControl rfl, rfl⟩, htable, hfits⟩

/-- DESTAB's body on the artifact of a code table stops at a capacity, or rebuilds the inverse table
(R204, R208). -/
theorem destabBody_of_tableArtifact {s : State} (hprefix : IsPrefixCode table)
    (hfits : ∀ e ∈ table, FitsFormat e) (hctab : s.mem.ctab = tableArtifact table) :
    destabBody s = .error (.raise .capacity) ∨
    destabBody s = .ok { s with mem := { s.mem with inv := inverseTable table } } := by
  have hloop := destab_records_cap (p := s.params) table [] (le_refl _)
    fun e he => ⟨hfits e he, hprefix.1 e he⟩
  rw [← hctab, List.nil_append, rebuilt_prefix hprefix] at hloop
  exact hloop.symm.imp (destabBody_of_loop (s := s)) (destabBody_of_loop (s := s))

theorem destab_completes : Completes .destab (fun s => Encoded text table s ∧ TableWritten table s)
    (fun s => Encoded text table s ∧ Holds .inv (.inverseTable (inverseTable table)) s) := by
  rintro s t hi ⟨hs, hctab, hfits⟩ h hlimit
  have hprefix := hs.1.isPrefixCode hi
  have hends := destabBody_of_tableArtifact (s := s.invalidate .inv) hprefix hfits
    (ReadValue.bytes.inj hctab.contents)
  have hraises : ∀ c, destabBody (s.invalidate .inv) = .error (.raise c) → ¬ MeetsNoLimit c := by
    intro c hb
    rcases hends with hfull | hrebuilt
    · cases hfull.symm.trans hb
      decide
    · cases hrebuilt.symm.trans hb
  obtain ⟨hok, u, hbody, hinv⟩ := exec_makes rfl rfl h
    (by simp [neededFlags, hctab.flag (f := .ctab) rfl]) hlimit hraises
  rcases hends with hfull | hrebuilt
  · cases hfull.symm.trans hbody
  · cases hrebuilt.symm.trans hbody
    exact ⟨hok, hs.of_exec h, hinv⟩

/-- OUT has the capacity of TEXT, which holds the same symbols, so DECODE meets no limit. -/
theorem decode_completes : Completes .decode
    (fun s => Encoded text table s ∧ Holds .inv (.inverseTable (inverseTable table)) s)
    (fun s => Holds .text (.symbols text) s ∧ Holds .out (.symbols text) s) := by
  rintro s t hi ⟨⟨hs, hbits⟩, hinv⟩ h -
  obtain ⟨-, hwf, -⟩ := id hi
  have hroom : s.params.textMax.admits text.length = true := by
    rw [← show s.mem.text = text from ReadValue.symbols.inj hs.textHeld.contents]
    exact (Memory.wf_iff.mp hwf).1
  have hloop : decodeLoop s.params s.mem.inv s.mem.bits [] [] = .ok text := by
    rw [show s.mem.inv = inverseTable table from ReadValue.inverseTable.inj hinv.contents,
      show s.mem.bits = bitstreamOf table text from ReadValue.bits.inj hbits.contents]
    exact decodeLoop_bitstream (hs.isPrefixCode hi) hs.known hroom
  have htext := hs.textHeld.of_exec h
  cases (exec_decode_of_loop (hbits.flag rfl) (hinv.flag rfl) hloop).symm.trans h
  exact ⟨rfl, htext, flag_of_okControl rfl, rfl⟩

/-- VERIFY's body changes nothing when OUT equals TEXT (R177). -/
theorem verifyBody_of_equal {s : State} (h : s.mem.out = s.mem.text) : verifyBody s = .ok s := by
  simp [verifyBody, h]

theorem verify_completes : Completes .verify
    (fun s => Holds .text (.symbols text) s ∧ Holds .out (.symbols text) s)
    (Holds .out (.symbols text)) := by
  rintro s t - ⟨htext, hout⟩ h -
  have hequal : s.mem.out = s.mem.text :=
    ReadValue.symbols.inj (hout.contents.trans htext.contents.symm)
  have hrun := run_ok (i := .verify)
    (by simp [neededFlags, htext.flag (f := .text) rfl, hout.flag (f := .out) rfl])
    (verifyBody_of_equal hequal)
  have hout' := hout.of_exec h
  cases hrun.symm.trans h
  exact ⟨rfl, hout'⟩

end stages

/-- The ten commands of ROUNDTRIP, one after another (R209). -/
theorem pipeline_achieves {text : List Symbol} (hne : text ≠ []) :
    Achieves pipeline (Holds .text (.symbols text)) (Holds .out (.symbols text)) :=
  (count_completes text).cons <| (build_completes hne).cons <| (gencodes_completes text).cons <|
    .of_forall fun _ => encode_completes.cons <| serdata_completes.cons <| sertab_completes.cons <|
      desdata_completes.cons <| destab_completes.cons <| decode_completes.cons <|
        verify_completes.cons <| .nil _

/-- Settles O60: no command stops, and each leaves what the next one needs. -/
theorem roundTripGivesBackTheText : Obligations.RoundTripGivesBackTheText := by
  intro s hi htext hne
  obtain ⟨codes, t, hrun⟩ := runCommands_isSome pipeline hi
  refine ⟨codes, t, hrun, fun hcapacity hformat => ?_⟩
  obtain ⟨hok, hout⟩ := pipeline_achieves hne s codes t hi ⟨htext, rfl⟩ hrun fun c hc =>
    ⟨ne_of_mem_of_not_mem hc hcapacity, ne_of_mem_of_not_mem hc hformat⟩
  exact ⟨hok, ReadValue.symbols.inj hout.contents⟩

end Sys2Proof.Machine
end

section
/-! ## The errors

How a command ends when an input is not valid (R234), which control registers each end sets and what
it leaves of NODE and HEAP (R237 to R239), and the codes that commands and loads end with (R226, R227,
R232, R236). Each statement about all commands goes through the three ends of the frame, `exec_ok`. -/

namespace Sys2Proof.Machine

/-! ### Inputs that are not valid -/

/-- Ending with an error writes the control registers alone (R237, R238). -/
theorem State.endWith_error (s : State) {c : ResultCode} (hc : c ≠ .ok) :
    s.endWith c = { s with ctl := errControl none c s.ctl } := by
  rw [← endErr_ctl none c s s hc rfl]
  rfl

/-- A command with an input that is not valid is refused before it does anything (R237 step 2). -/
theorem exec_of_invalid_input {i : Instr} {s : State} (hn : (neededFlags i).all s.flag = false) :
    exec i s = .next { s with ctl := errControl none .notReady s.ctl } := by
  rw [exec_eq, runFrame_notReady hn, State.endWith_error s (by decide)]

/-- An end with any other code shows that the inputs were valid (R234). -/
theorem inputs_valid_of_exec {i : Instr} {s t : State} (h : exec i s = .next t)
    (hready : t.ctl.err ≠ .notReady) : (neededFlags i).all s.flag = true := by
  by_contra hn
  cases (exec_of_invalid_input (Bool.eq_false_of_not_eq_true hn)).symm.trans h
  exact hready rfl

/-- Settles O9: the frame refuses such a command, and no body raises NotReadyError. -/
theorem notReadyExactlyWhenAnInputIsInvalid : Obligations.NotReadyExactlyWhenAnInputIsInvalid := by
  refine fun i s => ⟨exec_of_invalid_input, fun t h herr => ?_⟩
  rcases exec_ok h with ⟨hn, -⟩ | ⟨-, u, -, rfl⟩ | ⟨-, c, hbody, rfl⟩
  · exact hn
  · cases herr
  · obtain ⟨-, hready, -⟩ := body_error hbody
    exact absurd herr hready

/-! ### The ends of a command -/

/-- Settles O10: the control registers of the three ends of the frame. -/
theorem endOfCommandSetsTheControlRegisters : Obligations.EndOfCommandSetsTheControlRegisters := by
  intro i s t h
  rcases exec_ok h with ⟨hn, rfl⟩ | ⟨-, u, hbody, rfl⟩ | ⟨hn, c, hbody, rfl⟩
  · rw [hn]
    exact .inr ⟨by simp, endErr_ctl none _ s s (by decide) rfl⟩
  · exact .inl ⟨rfl, endOk_ctl _ s u (body_frame hbody).1⟩
  · obtain ⟨hc, -⟩ := body_error hbody
    rw [if_pos hn]
    exact .inr ⟨hc, endErr_ctl _ c s _ hc (State.spoilOutput_ctl _ _)⟩

/-- Settles O12: on an error of the body NODE and HEAP are as the invalidation of the output left them,
which empties them for the tree and for no other output (R237 step 3). -/
theorem failedCommandIsPrecise : Obligations.FailedCommandIsPrecise := by
  intro i s t h herr
  rcases exec_ok h with ⟨hn, rfl⟩ | ⟨-, u, -, rfl⟩ | ⟨hn, c, -, rfl⟩
  · exact ⟨fun _ => ⟨rfl, rfl⟩, fun hvalid => absurd (hn.symm.trans hvalid) (by decide)⟩
  · exact absurd rfl herr
  · refine ⟨fun hinvalid => absurd (hn.symm.trans hinvalid) (by decide),
      fun _ => ⟨?_, fun hi => ?_, fun f hf => ?_⟩⟩
    · rintro rfl
      simp [State.invalidateOutput_mem, outputFlag]
    · have ho : outputFlag i ≠ some .tree := fun ho => hi (outputFlag_tree ho)
      simp [State.invalidateOutput_mem, ho]
    · simp [hf]

/-! ### The codes a command or load can end with -/

theorem ok_mem_possibleCodes (i : Instr) : .ok ∈ possibleCodes i := by
  cases i <;> simp [possibleCodes]

/-- A command that needs an input can find it not valid (R234, R236). -/
theorem notReady_mem_possibleCodes {i : Instr} (h : neededFlags i ≠ []) :
    .notReady ∈ possibleCodes i := by
  cases i <;> simp_all [possibleCodes, neededFlags]

/-- GENCODES on a valid tree raises no error: CODE has room for the leaves' codes (R159, R160). -/
theorem gencodesBody_of_inv {s : State} (hi : MachineInv s) (htree : s.flag .tree = true) :
    ∃ u, gencodesBody (s.invalidate .code) = .ok u := by
  obtain ⟨table, hgen, -⟩ := generate_of_inv hi htree
  exact ⟨_, gencodesBody_of_generate (s := s.invalidate .code) hgen⟩

/-- The codes of a command in a state that meets the invariants (R236). They rule out GENCODES over its
capacity, the one error of a body that the table does not list. -/
theorem exec_err_mem_possibleCodes {i : Instr} {s t : State} (hi : MachineInv s)
    (h : exec i s = .next t) : t.ctl.err ∈ possibleCodes i := by
  rcases exec_ok h with ⟨hn, rfl⟩ | ⟨-, u, -, rfl⟩ | ⟨hn, c, hbody, rfl⟩
  · refine notReady_mem_possibleCodes fun hnone => ?_
    simp [hnone] at hn
  · exact ok_mem_possibleCodes i
  · obtain ⟨-, -, -, -, hcode | ⟨rfl, rfl⟩⟩ := body_error hbody
    · exact hcode
    · obtain ⟨u, hu⟩ := gencodesBody_of_inv hi (by simpa [neededFlags] using hn)
      cases hu.symm.trans hbody

/-- A load ends with code 0 or with the code of its check (R65). -/
theorem runLoad_err_mem {f : Flag} {check : Option ResultCode} {store : State → State} {s : State}
    {codes : List ResultCode} (h : ∀ c, check = some c → c ∈ codes) :
    (runLoad f check store s).ctl.err ∈ .ok :: codes := by
  cases check with
  | none => exact List.mem_cons_self
  | some c => exact List.mem_cons_of_mem _ (h c rfl)

/-- A check of capacities alone, as of a text or an artifact, reports nothing but CapacityError (R66,
R68, R69). -/
theorem capacityCheck_some {fits : Bool} {c : ResultCode}
    (h : (if fits then none else some .capacity) = some c) : c ∈ [ResultCode.capacity] := by
  obtain ⟨-, hc⟩ := Option.ite_none_left_eq_some.mp h
  cases hc
  exact List.mem_singleton_self _

/-- The check of a frequency table reports its legality before the capacities (R67). -/
theorem ldfreqCheck_some {p : Params} {v : List (Symbol × Nat)} {c : ResultCode}
    (h : ldfreqCheck p v = some c) : c ∈ [ResultCode.illegalCommand, .capacity] := by
  unfold ldfreqCheck at h
  split at h
  · exact List.mem_cons_of_mem _ (capacityCheck_some h)
  · cases h
    exact List.mem_cons_self

/-- Settles O13: the three ends of a command under the invariants, and the checks of the loads. -/
theorem resultCodesAreThoseOfTheTable : Obligations.ResultCodesAreThoseOfTheTable :=
  ⟨fun _ _ _ => exec_err_mem_possibleCodes,
    fun _ _ => runLoad_err_mem fun _ => capacityCheck_some,
    fun _ _ => runLoad_err_mem fun _ => ldfreqCheck_some,
    fun _ _ => runLoad_err_mem fun _ => capacityCheck_some,
    fun _ _ => runLoad_err_mem fun _ => capacityCheck_some⟩

/-! ### Single errors -/

/-- HPOP's body raises EmptyQueueError on an empty heap (R122). -/
theorem hpopBody_of_empty {s : State} (h : s.mem.heap = []) :
    hpopBody s = .error (.raise .emptyQueue) := by
  simp [hpopBody, h, heapPop]

/-- Settles O19: the body of HPOP is the only one that raises EmptyQueueError, BUILD popping from a heap
that is never empty; V.HRES is 0 as after every command that failed. -/
theorem emptyQueueErrorExactlyOnAnEmptyHeap : Obligations.EmptyQueueErrorExactlyOnAnEmptyHeap := by
  constructor
  · intro s hempty
    have hrun := run_err (i := .hpop) (s := s) rfl (hpopBody_of_empty (s := s.invalidate .hres) hempty)
    obtain ⟨-, hfailed⟩ := failedCommandIsPrecise _ _ _ hrun (by simp [errControl])
    obtain ⟨-, -, hflag⟩ := hfailed rfl
    exact ⟨_, hrun, rfl, rfl, hflag .hres rfl⟩
  · intro i s t h herr
    obtain ⟨-, -, hqueue, -⟩ := body_error (body_of_exec_err h herr (by decide) (by decide))
    obtain ⟨rfl, hempty⟩ := hqueue rfl
    exact ⟨rfl, hempty⟩

/-- BUILD's body raises EmptyInputError on the empty table, before anything is written (R137, R143). -/
theorem buildBody_of_empty {s : State} (h : s.mem.freq = []) :
    buildBody s = .error (.raise .emptyInput) :=
  if_pos h

/-- Settles O23: the body of BUILD is the only one that raises EmptyInputError, and it runs only with
V.FREQ 1. -/
theorem emptyInputErrorExactlyOnAnEmptyTable : Obligations.EmptyInputErrorExactlyOnAnEmptyTable := by
  constructor
  · intro s hflag hempty
    exact exec_build_raise hflag (buildBody_of_empty (s := s.invalidate .tree) hempty)
  · intro i s t h herr
    have hvalid := inputs_valid_of_exec h (by rw [herr]; decide)
    obtain ⟨-, -, -, hinput, -⟩ := body_error (body_of_exec_err h herr (by decide) (by decide))
    obtain ⟨rfl, hempty⟩ := hinput rfl
    exact ⟨rfl, by simpa [neededFlags] using hvalid, hempty⟩

/-- VERIFY's body raises RoundTripMismatchError when OUT differs from TEXT, in length or in an element
(R177). -/
theorem verifyBody_of_ne {s : State} (h : s.mem.out ≠ s.mem.text) :
    verifyBody s = .error (.raise .roundTripMismatch) := by
  rw [verifyBody, if_neg h, ite_self]

/-- Settles O38: VERIFY has no output to invalidate, so its body compares TEXT and OUT as they stand. -/
theorem verifyComparesOutWithText : Obligations.VerifyComparesOutWithText := by
  intro s htext hout
  have hneeds : (neededFlags .verify).all s.flag = true := by simp [neededFlags, htext, hout]
  exact ⟨fun hequal => run_ok (i := .verify) hneeds (verifyBody_of_equal hequal),
    fun hne => run_err (i := .verify) hneeds (verifyBody_of_ne hne)⟩

end Sys2Proof.Machine
end

section
/-! ## Straight after reset, and progress of the step

What each command does in the state that reset leaves (R261), and that the step answers a next state
wherever the invariants hold (R269). -/

namespace Sys2Proof.Machine

/-! ### The commands straight after reset -/

/-- HINIT 0 on an empty heap writes nothing: heap_init of no nodes is the empty heap (R120). -/
theorem hinitBody_zero {s : State} (h : s.mem.heap = []) :
    hinitBody 0 s = .ok { s with tick := s.tick + 1 } := by
  have hinit : heapInit s.params (freqOf s.mem.node) 0 s.tick = s.mem.heap :=
    (List.eq_nil_of_length_eq_zero (heapInit_length _ _ 0 _)).trans h.symm
  rw [hinitBody_of_le (Nat.zero_le _), hinit]

/-- The control registers after reset are those of an action that ended with code 0 (R37, R44). -/
theorem okControl_applyReset (s : State) :
    okControl none (applyReset s).ctl = (applyReset s).ctl := by
  show okControl none State.reset.ctl = State.reset.ctl
  decide

/-- HINIT 0 succeeds after reset, with HEAP, ERR and STATUS as reset left them (R261). -/
theorem exec_hinit_zero_applyReset (s : State) :
    exec (.hinit 0) (applyReset s) = .next { applyReset s with tick := s.tick + 1 } := by
  rw [run_ok (i := .hinit 0) (s := applyReset s) rfl (hinitBody_zero rfl), outputFlag,
    okControl_applyReset]
  rfl

/-- After reset a command that needs an input finds it not valid (R234, R261). -/
theorem exec_applyReset_of_needs {i : Instr} (hneeds : neededFlags i ≠ []) (s : State) :
    exec i (applyReset s) = .next { applyReset s with
      ctl := errControl none .notReady (applyReset s).ctl } := by
  obtain ⟨f, hf⟩ := List.exists_mem_of_ne_nil _ hneeds
  exact exec_of_invalid_input (List.all_eq_false.mpr ⟨f, hf, by simp⟩)

/-- Settles O15: no node exists after reset, so every operand but HINIT's 0 is out of range; HEAP is
empty; and no flag is set. -/
theorem commandsStraightAfterReset : Obligations.CommandsStraightAfterReset := by
  intro s
  obtain ⟨t, hpop, herr, -⟩ := emptyQueueErrorExactlyOnAnEmptyHeap.1 (applyReset s) rfl
  have hneeds : ∀ i ∈ [Instr.count, .build, .gencodes, .encode, .decode, .verify, .serdata,
      .sertab, .desdata, .destab], neededFlags i ≠ [] := by decide
  exact ⟨⟨_, exec_hinit_zero_applyReset s⟩, fun _ => exec_hinit_out_of_range (s := applyReset s),
    fun k => exec_hpush_out_of_range (s := applyReset s) (Nat.zero_le k), ⟨t, hpop, herr⟩,
    fun i hi => exec_applyReset_of_needs (hneeds i hi) s⟩

/-! ### Progress of the step -/

/-- The invariants leave HUFF open to the host's actions (R37, R64). -/
theorem MachineInv.not_busy {s : State} (hi : MachineInv s) : s.busy = false := by
  obtain ⟨-, -, ⟨hstatus, -⟩, -⟩ := hi
  rw [State.busy, hstatus]
  split <;> rfl

/-- A command word is illegal or runs a command, so from a state that meets the invariants it ends in
a next state (R237, R269). -/
theorem runWord_next {s : State} (hi : MachineInv s) (w : Word) : ∃ t, runWord w s = .next t := by
  rw [runWord]
  split
  · exact ⟨_, rfl⟩
  · exact exec_next hi _

/-- From a state that meets the invariants HUFF takes the word in CMD, if any, to a next state. -/
theorem takeCommand_next {s : State} (hi : MachineInv s) : ∃ t, takeCommand s = .next t := by
  rw [takeCommand]
  split
  · exact runWord_next (s := { s with ctl := { s.ctl with cmd := none } }) hi _
  · exact ⟨_, rfl⟩

/-- A macro's next word, if it has one, goes to CMD, and only the host's side changes with it
(R106). -/
theorem issueNext_cases {s : State} (hcmd : s.ctl.cmd = none) (ws : List Word) :
    (issueNext ws s).ctl.cmd = none ∨
      ∃ w host, issueNext ws s = writeCmd w { s with host := host } := by
  cases ws with
  | nil => exact .inl hcmd
  | cons w ws => exact .inr ⟨w, _, rfl⟩

/-- An action of the host leaves CMD empty, or it writes CMD and changes nothing of HUFF besides
(R36, R64, R106). -/
theorem hostAct_cases {s : State} (hcmd : s.ctl.cmd = none) (a : HostAction) :
    (hostAct a s).ctl.cmd = none ∨
      ∃ w host, hostAct a s = writeCmd w { s with host := host } := by
  obtain ⟨htext, hfreq, hdata, hctab⟩ := loads_cmd s hcmd
  cases a with
  | ldtext v => exact .inl (htext v)
  | ldfreq v => exact .inl (hfreq v)
  | lddata v => exact .inl (hdata v)
  | ldctab v => exact .inl (hctab v)
  | rd x => exact .inl hcmd
  | command w => exact .inr ⟨w, s.host, rfl⟩
  | script ws => exact issueNext_cases hcmd ws
  | scriptRest ws =>
    rw [hostAct]
    split
    · exact issueNext_cases hcmd ws
    · exact .inl hcmd
  | reset => exact .inl rfl

/-- What the host does with an idle HUFF that meets the invariants, and the word that it writes, if it
writes one, lead to a next state (R64, R269). -/
theorem takeCommand_hostAct_next {s : State} (hi : MachineInv s) (hcmd : s.ctl.cmd = none)
    (a : HostAction) : ∃ t, takeCommand (hostAct a s) = .next t := by
  rcases hostAct_cases hcmd a with hempty | ⟨w, host, hact⟩
  · exact ⟨_, take_none hempty⟩
  · rw [hact, takeCommand_writeCmd (s := { s with host := host }) hcmd]
    exact runWord_next (s := { s with host := host }) hi w

/-- Settles O59: the step runs the word in CMD, idles, or takes the host's next action; the invariants
rule out a busy HUFF and every fault of a command. -/
theorem stepNeverStopsFromAnInvariantState : Obligations.StepNeverStopsFromAnInvariantState := by
  intro s hi
  cases hcmd : s.ctl.cmd with
  | some w =>
    rw [step, advance, hcmd]
    exact takeCommand_next hi
  | none =>
    cases hp : s.host.pending with
    | nil => exact ⟨s, step_idle hcmd hp⟩
    | cons a rest =>
      rw [step_hostAct hcmd hp (.inl hi.not_busy)]
      exact takeCommand_hostAct_next (s := { s with host := { s.host with pending := rest } })
        hi hcmd a

end Sys2Proof.Machine
end

section
/-! ### The word in CMD -/

namespace Sys2Proof.Machine

/-- A word that decodes is run as the command it decodes to (R237). -/
theorem runWord_legal {w : Word} {i : Instr} (s : State) (h : decodeWord w = .ok i) :
    runWord w s = exec i s := by
  rw [runWord, h]

/-- A word that stands in CMD is taken from it and run, whatever else the state holds (R36). -/
theorem step_wordInCmd {s : State} {w : Word} (hcmd : s.ctl.cmd = some w) :
    step s = runWord w { s with ctl := { s.ctl with cmd := none } } := by
  have htake : step s = takeCommand s := by rw [step, advance, hcmd]
  rw [htake, takeCommand, hcmd]

/-- Settles O6: the step takes the word from CMD without a look at BUSY, and runs it as the command it
decodes to. -/
theorem stepExecutesTheWordInCmd : Obligations.StepExecutesTheWordInCmd :=
  fun _ _ _ hcmd hdec => (step_wordInCmd hcmd).trans (runWord_legal _ hdec)

end Sys2Proof.Machine
end
